-- ==== Sys2Proof/Word.lean ====
section
/-! DEFINITION. The words of the command port (spec/30_encoding.md R100) and the index of a line (spec/10_state.md R32). -/

namespace Sys2Proof

/-- A 32-bit word of the command port: CMD, DATA, NOW, VAL, and every 32-bit state element (R100, R9). -/
abbrev Word := BitVec 32

/-- An 8-bit character code (R36). -/
abbrev Byte := BitVec 8

/-- The index of a line, 0 to 7 (R8 NLINES, R32). -/
abbrev Line := Fin 8

end Sys2Proof
end

