-- ==== Sys2Proof/Syntax.lean ====
section
/-! DEFINITION. The 28 commands of spec/30_encoding.md R104, one constructor per row of the opcode table. An operand is the
field of the CMD word as R101 gives it; whether its value is legal is checked when the command is performed (R105, R313).
DATA and NOW are not part of the command word (R100): a meaning reads them from the state. -/

namespace Sys2Proof

/-- A command word whose opcode is assigned and whose reserved bits are 0 (R105). -/
inductive Instr where
  /-- NOP (R290). -/
  | nop
  /-- EQ_PUSH (R142): ADDR, PIN, LVL. -/
  | eqPush (addr : BitVec 7) (pin : BitVec 4) (lvl : Bool)
  /-- EQ_POLL_MATCH (R143): ADDR, PIN. -/
  | eqPollMatch (addr : BitVec 7) (pin : BitVec 4)
  /-- EQ_POLL_ADDR (R144): ADDR. -/
  | eqPollAddr (addr : BitVec 7)
  /-- EQ_POLL_ANY (R145). -/
  | eqPollAny
  /-- EQ_CLEAR (R146). -/
  | eqClear
  /-- LR_SET_STATUS (R162): LA the line, SV the LineStatus. -/
  | lrSetStatus (la sv : BitVec 4)
  /-- LR_SET_TIMER (R164): LA the line; DATA the duration. -/
  | lrSetTimer (la : BitVec 4)
  /-- LR_RESET_TIMER (R165): LA the line. -/
  | lrResetTimer (la : BitVec 4)
  /-- LR_TAKE_CHANGES (R167). -/
  | lrTakeChanges
  /-- LR_TAKE_EXPIRED (R168). -/
  | lrTakeExpired
  /-- LR_SET_PEER (R169): LA the line, LB the peer or 0xF, SV the selector. -/
  | lrSetPeer (la lb sv : BitVec 4)
  /-- LR_READ_DIGIT (R171): LA the line; DATA the index. -/
  | lrReadDigit (la : BitVec 4)
  /-- LR_READ_LINE (R172): LA the line. -/
  | lrReadLine (la : BitVec 4)
  /-- TD_ACTIVATE (R223). -/
  | tdActivate
  /-- TD_DEACTIVATE (R224). -/
  | tdDeactivate
  /-- RG_START (R252): LA the line. -/
  | rgStart (la : BitVec 4)
  /-- RG_STOP (R253): LA the line. -/
  | rgStop (la : BitVec 4)
  /-- RG_STOP_ALL (R254). -/
  | rgStopAll
  /-- XB_SET (R271): LA, LB the pair, SV the ConnState. -/
  | xbSet (la lb sv : BitVec 4)
  /-- XB_GET (R272): LA, LB the pair. -/
  | xbGet (la lb : BitVec 4)
  /-- XB_ARE_CONNECTED (R273): LA, LB the pair. -/
  | xbAreConnected (la lb : BitVec 4)
  /-- XB_GET_CONNECTED (R274): LA the line, SV the minimum ConnState. -/
  | xbGetConnected (la sv : BitVec 4)
  /-- XB_GET_ALL (R275): LA the line, SV the minimum ConnState. -/
  | xbGetAll (la sv : BitVec 4)
  /-- XB_DISCONNECT (R276): LA the line. -/
  | xbDisconnect (la : BitVec 4)
  /-- REG_READ (R291): REG the register number. -/
  | regRead (reg : BitVec 8)
  /-- REG_WRITE (R292): REG the register number; DATA the value. -/
  | regWrite (reg : BitVec 8)
  /-- CYCLE (R296): DATA carries SHK and Q. -/
  | cycle
deriving DecidableEq, Repr

end Sys2Proof
end

