-- ==== Sys2Proof/WellFormed.lean ====
section
/-! DEFINITION. The operand checks of spec/60_exceptions.md R313 that the command word alone decides (its items 3 to 7). A word
that fails one is still a command: the block rejects it with the check's code and no effect (R311). -/

namespace Sys2Proof

/-- A 4-bit line field names a line (R101, R312 ERR_LINE). -/
def lineFieldOk (f : BitVec 4) : Bool := f.toNat < 8

/-- A 4-bit field is a LineStatus code, 0 to 13 (R33). -/
def statusFieldOk (f : BitVec 4) : Bool := f.toNat < 14

/-- A 4-bit field is a ConnState code, 0 to 3 (R45). -/
def connFieldOk (f : BitVec 4) : Bool := f.toNat < 4

/-- A register number is RW: 0x00 to 0x10 or 0x18 to 0x1F (R50 to R52). -/
def regFieldWritable (n : BitVec 8) : Bool :=
  n.toNat ≤ 0x10 || (0x18 ≤ n.toNat && n.toNat ≤ 0x1F)

/-- A register number is RW or RO, that is, not one of R58's unassigned numbers. -/
def regFieldAssigned (n : BitVec 8) : Bool :=
  regFieldWritable n || (0x20 ≤ n.toNat && n.toNat ≤ 0x2B) || (0x30 ≤ n.toNat && n.toNat ≤ 0x4F)

/-- Every operand of the command is in range (R312, R313 items 3 to 7). -/
def Instr.wf : Instr → Bool
  | .nop => true
  | .eqPush _ _ _ => true
  | .eqPollMatch _ _ => true
  | .eqPollAddr _ => true
  | .eqPollAny => true
  | .eqClear => true
  | .lrSetStatus la sv => lineFieldOk la && statusFieldOk sv
  | .lrSetTimer la => lineFieldOk la
  | .lrResetTimer la => lineFieldOk la
  | .lrTakeChanges => true
  | .lrTakeExpired => true
  | .lrSetPeer la lb sv => lineFieldOk la && (lineFieldOk lb || lb == 0xF) && lb != la && decide (sv.toNat < 2)
  | .lrReadDigit la => lineFieldOk la
  | .lrReadLine la => lineFieldOk la
  | .tdActivate => true
  | .tdDeactivate => true
  | .rgStart la => lineFieldOk la
  | .rgStop la => lineFieldOk la
  | .rgStopAll => true
  | .xbSet la lb sv => lineFieldOk la && lineFieldOk lb && la != lb && connFieldOk sv
  | .xbGet la lb => lineFieldOk la && lineFieldOk lb && la != lb
  | .xbAreConnected la lb => lineFieldOk la && lineFieldOk lb && la != lb
  | .xbGetConnected la sv => lineFieldOk la && connFieldOk sv
  | .xbGetAll la sv => lineFieldOk la && connFieldOk sv
  | .xbDisconnect la => lineFieldOk la
  | .regRead reg => regFieldAssigned reg
  | .regWrite reg => regFieldWritable reg
  | .cycle => true

end Sys2Proof
end

