-- ==== Sys2Proof/Decode.lean ====
section
/-! DEFINITION. The decoder of spec/30_encoding.md R105 and the encoder of R101 to R104. A command is one 32-bit word
(R100, R111), so no byte order is visible (spec/20_memory.md R82). -/

namespace Sys2Proof

/-- A field's value in a 32-bit word, its lowest bit at bit lo (R9, R101). -/
def place {n : Nat} (lo : Nat) (x : BitVec n) : Word := x.setWidth 32 <<< lo

/-- OP = CMD[31:26] (R101). -/
def fieldOP (cmd : Word) : BitVec 6 := cmd.extractLsb' 26 6
/-- LA = CMD[25:22] (R102). -/
def fieldLA (cmd : Word) : BitVec 4 := cmd.extractLsb' 22 4
/-- LB = CMD[21:18] (R102). -/
def fieldLB (cmd : Word) : BitVec 4 := cmd.extractLsb' 18 4
/-- SV = CMD[17:14] (R102). -/
def fieldSV (cmd : Word) : BitVec 4 := cmd.extractLsb' 14 4
/-- ADDR = CMD[13:7] (R102). -/
def fieldADDR (cmd : Word) : BitVec 7 := cmd.extractLsb' 7 7
/-- PIN = CMD[6:3] (R102). -/
def fieldPIN (cmd : Word) : BitVec 4 := cmd.extractLsb' 3 4
/-- LVL = CMD[2] (R102). -/
def fieldLVL (cmd : Word) : Bool := cmd.getLsbD 2
/-- REG = CMD[25:18] (R102). -/
def fieldREG (cmd : Word) : BitVec 8 := cmd.extractLsb' 18 8

/-- A row of the opcode map (R104): the mask of R103 and the command its used fields make. -/
structure OpcodeRow where
  mask : Word
  command : Word → Instr

/-- The opcode map of R104: the row of an opcode, none for the unassigned opcodes of R107. -/
def opcodeRow : Nat → Option OpcodeRow
  | 0x00 => some ⟨0xFFFFFFFF, fun _ => .nop⟩
  | 0x01 => some ⟨0xFFFFC003, fun c => .eqPush (fieldADDR c) (fieldPIN c) (fieldLVL c)⟩
  | 0x02 => some ⟨0xFFFFC007, fun c => .eqPollMatch (fieldADDR c) (fieldPIN c)⟩
  | 0x03 => some ⟨0xFFFFC07F, fun c => .eqPollAddr (fieldADDR c)⟩
  | 0x04 => some ⟨0xFFFFFFFF, fun _ => .eqPollAny⟩
  | 0x05 => some ⟨0xFFFFFFFF, fun _ => .eqClear⟩
  | 0x08 => some ⟨0xFC3C3FFF, fun c => .lrSetStatus (fieldLA c) (fieldSV c)⟩
  | 0x09 => some ⟨0xFC3FFFFF, fun c => .lrSetTimer (fieldLA c)⟩
  | 0x0A => some ⟨0xFC3FFFFF, fun c => .lrResetTimer (fieldLA c)⟩
  | 0x0B => some ⟨0xFFFFFFFF, fun _ => .lrTakeChanges⟩
  | 0x0C => some ⟨0xFFFFFFFF, fun _ => .lrTakeExpired⟩
  | 0x0D => some ⟨0xFC003FFF, fun c => .lrSetPeer (fieldLA c) (fieldLB c) (fieldSV c)⟩
  | 0x0E => some ⟨0xFC3FFFFF, fun c => .lrReadDigit (fieldLA c)⟩
  | 0x0F => some ⟨0xFC3FFFFF, fun c => .lrReadLine (fieldLA c)⟩
  | 0x10 => some ⟨0xFFFFFFFF, fun _ => .tdActivate⟩
  | 0x11 => some ⟨0xFFFFFFFF, fun _ => .tdDeactivate⟩
  | 0x14 => some ⟨0xFC3FFFFF, fun c => .rgStart (fieldLA c)⟩
  | 0x15 => some ⟨0xFC3FFFFF, fun c => .rgStop (fieldLA c)⟩
  | 0x16 => some ⟨0xFFFFFFFF, fun _ => .rgStopAll⟩
  | 0x18 => some ⟨0xFC003FFF, fun c => .xbSet (fieldLA c) (fieldLB c) (fieldSV c)⟩
  | 0x19 => some ⟨0xFC03FFFF, fun c => .xbGet (fieldLA c) (fieldLB c)⟩
  | 0x1A => some ⟨0xFC03FFFF, fun c => .xbAreConnected (fieldLA c) (fieldLB c)⟩
  | 0x1B => some ⟨0xFC3C3FFF, fun c => .xbGetConnected (fieldLA c) (fieldSV c)⟩
  | 0x1C => some ⟨0xFC3C3FFF, fun c => .xbGetAll (fieldLA c) (fieldSV c)⟩
  | 0x1D => some ⟨0xFC3FFFFF, fun c => .xbDisconnect (fieldLA c)⟩
  | 0x20 => some ⟨0xFC03FFFF, fun c => .regRead (fieldREG c)⟩
  | 0x21 => some ⟨0xFC03FFFF, fun c => .regWrite (fieldREG c)⟩
  | 0x3F => some ⟨0xFFFFFFFF, fun _ => .cycle⟩
  | _ => none

/-- Why a CMD word is no command (R105). -/
inductive DecodeError where
  /-- The opcode is unassigned (R107): ERR_ILLEGAL. -/
  | illegal
  /-- A bit that the opcode does not use is 1 (R106): ERR_RESERVED. -/
  | reserved
deriving DecidableEq, Repr

/-- The decoder of R105, total on every 32-bit word. The match of a row is OP shifted left by 26 (R103). -/
def decode (cmd : Word) : Except DecodeError Instr :=
  match opcodeRow (fieldOP cmd).toNat with
  | none => .error .illegal
  | some row =>
    if cmd &&& row.mask = place 26 (fieldOP cmd) then .ok (row.command cmd)
    else .error .reserved

/-- The opcode of a command (R104, column OP). -/
def Instr.opcode : Instr → BitVec 6
  | .nop => 0x00
  | .eqPush _ _ _ => 0x01
  | .eqPollMatch _ _ => 0x02
  | .eqPollAddr _ => 0x03
  | .eqPollAny => 0x04
  | .eqClear => 0x05
  | .lrSetStatus _ _ => 0x08
  | .lrSetTimer _ => 0x09
  | .lrResetTimer _ => 0x0A
  | .lrTakeChanges => 0x0B
  | .lrTakeExpired => 0x0C
  | .lrSetPeer _ _ _ => 0x0D
  | .lrReadDigit _ => 0x0E
  | .lrReadLine _ => 0x0F
  | .tdActivate => 0x10
  | .tdDeactivate => 0x11
  | .rgStart _ => 0x14
  | .rgStop _ => 0x15
  | .rgStopAll => 0x16
  | .xbSet _ _ _ => 0x18
  | .xbGet _ _ => 0x19
  | .xbAreConnected _ _ => 0x1A
  | .xbGetConnected _ _ => 0x1B
  | .xbGetAll _ _ => 0x1C
  | .xbDisconnect _ => 0x1D
  | .regRead _ => 0x20
  | .regWrite _ => 0x21
  | .cycle => 0x3F

/-- Format L (R101): OP [31:26], LA [25:22], LB [21:18], SV [17:14]. -/
def encodeL (op : BitVec 6) (la lb sv : BitVec 4) : Word := place 26 op ||| place 22 la ||| place 18 lb ||| place 14 sv

/-- Format E (R101): OP [31:26], ADDR [13:7], PIN [6:3], LVL [2]. -/
def encodeE (op : BitVec 6) (addr : BitVec 7) (pin : BitVec 4) (lvl : Bool) : Word :=
  place 26 op ||| place 7 addr ||| place 3 pin ||| place 2 (BitVec.ofBool lvl)

/-- Format R (R101): OP [31:26], REG [25:18]. -/
def encodeR (op : BitVec 6) (reg : BitVec 8) : Word := place 26 op ||| place 18 reg

/-- Format N (R101): OP [31:26]. -/
def encodeN (op : BitVec 6) : Word := place 26 op

/-- The CMD word of a command: its format of R104 with the unused fields 0 (R103). -/
def encode (i : Instr) : Word :=
  match i with
  | .nop => encodeN i.opcode
  | .eqPush addr pin lvl => encodeE i.opcode addr pin lvl
  | .eqPollMatch addr pin => encodeE i.opcode addr pin false
  | .eqPollAddr addr => encodeE i.opcode addr 0 false
  | .eqPollAny => encodeN i.opcode
  | .eqClear => encodeN i.opcode
  | .lrSetStatus la sv => encodeL i.opcode la 0 sv
  | .lrSetTimer la => encodeL i.opcode la 0 0
  | .lrResetTimer la => encodeL i.opcode la 0 0
  | .lrTakeChanges => encodeN i.opcode
  | .lrTakeExpired => encodeN i.opcode
  | .lrSetPeer la lb sv => encodeL i.opcode la lb sv
  | .lrReadDigit la => encodeL i.opcode la 0 0
  | .lrReadLine la => encodeL i.opcode la 0 0
  | .tdActivate => encodeN i.opcode
  | .tdDeactivate => encodeN i.opcode
  | .rgStart la => encodeL i.opcode la 0 0
  | .rgStop la => encodeL i.opcode la 0 0
  | .rgStopAll => encodeN i.opcode
  | .xbSet la lb sv => encodeL i.opcode la lb sv
  | .xbGet la lb => encodeL i.opcode la lb 0
  | .xbAreConnected la lb => encodeL i.opcode la lb 0
  | .xbGetConnected la sv => encodeL i.opcode la 0 sv
  | .xbGetAll la sv => encodeL i.opcode la 0 sv
  | .xbDisconnect la => encodeL i.opcode la 0 0
  | .regRead reg => encodeR i.opcode reg
  | .regWrite reg => encodeR i.opcode reg
  | .cycle => encodeN i.opcode

/-- What the decoder reads from the opcode table's numbering of a row: the table's word is the CMD word itself, bit 0 its least
significant bit (R9, R104), and the bits from `nbits` on are 0. -/
def decodeTableWord (nbits w : Nat) : Option Instr := (decode (BitVec.ofNat 32 (w % 2 ^ nbits))).toOption

end Sys2Proof
end

