-- ==== Sys2Proof/Config.lean ====
section
/-! DEFINITION. The implementation parameters of spec/00_scope.md R8: the OPEN ones are the fields of `Params`, an argument of
every rule that reads one. `State` carries them (DESIGN CHOICE, entry 2 of the assumption log). -/

namespace Sys2Proof

/-- The OPEN parameters of R8. -/
structure Params where
  /-- EVQ_CAP, the capacity of the event queue (R46, R142). -/
  evqCap : Nat
  /-- DIGITS_MAX, the capacity of a digit buffer (R36, R170). -/
  digitsMax : Nat
  /-- RING_HALF_MS, the half-period of FR (R256). -/
  ringHalfMs : Word
  /-- DTMF_MAP, the character of each nibble (R221). -/
  dtmfMap : Vector Byte 16
deriving DecidableEq, Repr

/-- The constraints of R8: 1 <= EVQ_CAP <= 65535 and 1 <= DIGITS_MAX <= 63. -/
abbrev Params.wf (p : Params) : Prop :=
  1 ≤ p.evqCap ∧ p.evqCap ≤ 65535 ∧ 1 ≤ p.digitsMax ∧ p.digitsMax ≤ 63

/-- The default of DTMF_MAP (R221, its code row). -/
def defaultDtmfMap : Vector Byte 16 :=
  #v[0x44, 0x31, 0x32, 0x33, 0x34, 0x35, 0x36, 0x37, 0x38, 0x39, 0x30, 0x2A, 0x23, 0x41, 0x42, 0x43]

/-- The default parameters of R8. -/
def Params.default : Params :=
  { evqCap := 100, digitsMax := 32, ringHalfMs := 25, dtmfMap := defaultDtmfMap }

/-- NLINES (R8), the number that PARAMS reports (R56). -/
def nLines : Nat := 8

/-- NCHIPS (R8): the expander chips of the environment. The host's collect step pushes at most one event per chip (R318). -/
def nChips : Nat := 4

/-- CONSEC_MAX (R8), the saturation value of `hCount` (R41). -/
def consecMax : BitVec 16 := 65535

end Sys2Proof
end

