-- ==== Sys2Proof/Machine/State.lean ====
section
/-! DEFINITION. The state of the block (spec/10_state.md R31 to R52), the transaction port (spec/00_scope.md R6, R12) and the
state after reset (spec/70_reset_and_hazards.md R340). -/

namespace Sys2Proof.Machine

/-- LineStatus (R33), in the order of its codes 0 to 13. -/
inductive LineStatus where
  | idle | ready | pulseDialing | toneDialing | busy | fail | ringing
  | connected | disconnected | timeout | abandoned | incoming | operator | systemConfig
deriving DecidableEq, Repr

/-- HookState (R35): On, Off, Disconnected, codes 0 to 2. -/
inductive HookState where
  | on | off | disconnected
deriving DecidableEq, Repr

/-- The phase of the pulse detector (R43), codes 0 to 2. -/
inductive PulsePhase where
  | idle | inPulse | betweenPulses
deriving DecidableEq, Repr

/-- The phase of the ring cadence (R44), codes 0 to 2. -/
inductive RingPhase where
  | idle | toggling | pause
deriving DecidableEq, Repr

/-- ConnState (R45), in the order None < Attempting < Ringing < Established, codes 0 to 3. -/
inductive ConnState where
  | none | attempting | ringing | established
deriving DecidableEq, Repr

/-- The record of one line (R32 to R44). A line index that is optional is an `Option`: `none` is the code 0xF (R9). -/
structure LineRec where
  /-- `status` (R34). -/
  status : LineStatus
  /-- `prevStatus` (R34). -/
  prevStatus : LineStatus
  /-- `hook`, the accepted hook state (R35). -/
  hook : HookState
  /-- `prevHook` (R35). -/
  prevHook : HookState
  /-- `digits`, oldest first (R36). -/
  digits : List Byte
  /-- `incomingFrom` (R37). -/
  incomingFrom : Option Line
  /-- `outgoingTo` (R37). -/
  outgoingTo : Option Line
  /-- `tArmed`, the timer is armed (R38). -/
  tArmed : Bool
  /-- `tStart`, NOW at arming (R38). -/
  tStart : Word
  /-- `tDur`, the duration in ms (R38). -/
  tDur : Word
  /-- `change`, the change bit (R39). -/
  change : Bool
  /-- `expired`, the timer-expiry bit (R39). -/
  expired : Bool
  /-- `hCand`, the hook filter's candidate level (R41). -/
  hCand : Option Bool
  /-- `hSince`, when the candidate was first seen (R41). -/
  hSince : Word
  /-- `hCount`, consecutive samples of the candidate (R41). -/
  hCount : BitVec 16
  /-- `gCand`, the raw level now persisting (R42). -/
  gCand : Option Bool
  /-- `gSince`, when that level was first seen (R42). -/
  gSince : Word
  /-- `gLevel`, the last accepted level (R42). -/
  gLevel : Option Bool
  /-- `pPhase`, the pulse detector's phase (R43). -/
  pPhase : PulsePhase
  /-- `pCount`, the pulses counted (R43). -/
  pCount : BitVec 4
  /-- `pEdge`, the time of the last accepted edge (R43). -/
  pEdge : Word
  /-- `rPhase`, the ring cadence's phase (R44). -/
  rPhase : RingPhase
  /-- `rIter`, the completed Toggling phases (R44). -/
  rIter : BitVec 8
  /-- `rT0`, when the phase began (R44). -/
  rT0 : Word
  /-- `rTT`, when FR last toggled (R44). -/
  rTT : Word
  /-- `FR`, the output RING_FR[l] (R44). -/
  fr : Bool
  /-- `RM`, the output RING_RM[l] (R44). -/
  rm : Bool
deriving DecidableEq, Repr

/-- An event record (R46). -/
structure Event where
  addr : BitVec 7
  pin : BitVec 4
  lvl : Bool
  line : Option Line
deriving DecidableEq, Repr

/-- The tone decoder's state (R47): the field `x` is `tdX`. -/
structure ToneState where
  /-- `tdActive`, the output DTMF_PWR. -/
  active : Bool
  /-- `tdPending`, a rise was seen and its read has not happened. -/
  pending : Bool
  /-- `tdHigh`, the strobe is high as far as the consumed events show. -/
  high : Bool
  /-- `tdRise`, NOW of the CYCLE that consumed the last rise. -/
  rise : Word
  /-- `tdLastNib`, the last accepted nibble. -/
  lastNib : Option (BitVec 4)
  /-- `tdLastNibT`, NOW of its acceptance. -/
  lastNibT : Word
  /-- `tdLine`, the line last appended to. -/
  line : Option Line
deriving DecidableEq, Repr

/-- A pin-map register (R51); its reserved bits hold nothing. -/
structure PinMap where
  addr : BitVec 7
  hookPin : BitVec 4
  frPin : BitVec 4
  rmPin : BitVec 4
deriving DecidableEq, Repr

/-- The configuration registers (R50 to R52); bits that a register does not have hold nothing. -/
structure Cfg where
  activeMask : BitVec 8
  hookStableMs : Word
  hookStableConsec : BitVec 16
  pulseGlitchMs : Word
  pulseDebounceMs : Word
  pulseLowMaxMs : Word
  digitGapMinMs : Word
  pulseTimeoutMs : Word
  dtmfStableMs : Word
  dtmfMinToneMs : Word
  dtmfDebounceMs : Word
  dtmfDoneMs : Word
  ringLengthMs : Word
  ringPauseMs : Word
  ringIterations : BitVec 8
  /-- DTMF_STROBE.ADDR (R52). -/
  strobeAddr : BitVec 7
  /-- DTMF_STROBE.PIN (R52). -/
  strobePin : BitVec 4
  /-- CTRL.NOTIFY_EN (R52). -/
  notifyEn : Bool
  /-- PINMAP_0 to PINMAP_7 (R51). -/
  pinMap : Vector PinMap 8
deriving DecidableEq, Repr

/-- The complete state `S` of the block (R31). -/
structure Block where
  lines : Vector LineRec 8
  /-- `S.lastReady` (R40). -/
  lastReady : Option Line
  /-- `S.xb`, row by row (R45). -/
  xb : Vector (Vector ConnState 8) 8
  /-- `S.evq`, oldest first (R46). -/
  evq : List Event
  /-- `S.evqDrops` (R46). -/
  evqDrops : Word
  tone : ToneState
  cfg : Cfg
deriving DecidableEq, Repr

/-- The kinds of a LOG record (spec/60_exceptions.md R315), in the order of their codes. -/
inductive LogKind where
  | cmdError | evqOverflow | pulseAbort | pulseTimeout | dtmfAbort | dtmfSpurious | dtmfDuplicate
  | dtmfReject | digitOverflow
deriving DecidableEq, Repr

/-- A trace record (R12, R315: `a` and `b` are at most 16 bits). -/
inductive Out where
  | notify (line : Line) (status : LineStatus)
  | log (kind : LogKind) (a b : BitVec 16)
deriving DecidableEq, Repr

/-- The three input words of a transaction (R100). -/
structure Transaction where
  cmd : Word
  data : Word
  now : Word
deriving DecidableEq, Repr

/-- What a transaction returns (R6, R100, R12). -/
structure Response where
  code : BitVec 4
  val : Word
  trace : List Out
deriving DecidableEq, Repr

/-- The machine: the block, its parameters (R8) and its transaction port (R6). -/
structure State where
  /-- The OPEN parameters, written by no step (R8; DESIGN CHOICE, entry 2 of the log). -/
  params : Params
  /-- The state of the block (R31). -/
  blk : Block
  /-- The host's transactions not yet performed, first to be performed first (R5, R6; DESIGN CHOICE, entry 1). -/
  inputs : List Transaction
  /-- The DATA word of the transaction being performed (R100; DESIGN CHOICE, entry 3). -/
  data : Word
  /-- The NOW word of the transaction being performed (R100; DESIGN CHOICE, entry 3). -/
  now : Word
  /-- What the last transaction returned (R100; DESIGN CHOICE, entry 3). -/
  resp : Response
deriving DecidableEq, Repr

/-- Why the machine stops with a fault: never. The block has no trap, no halt and no stop state (R7, R310), so no constructor is
needed and nobody raises one (DEDUCED, safe: entry 4). -/
inductive Fault
deriving DecidableEq, Repr

/-- Why the model gives no meaning. -/
inductive Refusal where
  /-- Raised by an arm of `exec` for an instruction that has no meaning yet; safe, because the run stops. No arm does: every
  instruction has its meaning. -/
  | notModelled (mnemonic : String)
deriving DecidableEq, Repr

/-- A line record after reset (R340). -/
def LineRec.reset : LineRec where
  status := .idle
  prevStatus := .idle
  hook := .disconnected
  prevHook := .disconnected
  digits := []
  incomingFrom := none
  outgoingTo := none
  tArmed := false
  tStart := 0
  tDur := 0
  change := false
  expired := false
  hCand := none
  hSince := 0
  hCount := 0
  gCand := none
  gSince := 0
  gLevel := none
  pPhase := .idle
  pCount := 0
  pEdge := 0
  rPhase := .idle
  rIter := 0
  rT0 := 0
  rTT := 0
  fr := false
  rm := false

/-- The tone decoder after reset (R340). -/
def ToneState.reset : ToneState where
  active := false
  pending := false
  high := false
  rise := 0
  lastNib := none
  lastNibT := 0
  line := none

/-- The configuration registers after reset: every one 0 (R340, R50). -/
def Cfg.reset : Cfg where
  activeMask := 0
  hookStableMs := 0
  hookStableConsec := 0
  pulseGlitchMs := 0
  pulseDebounceMs := 0
  pulseLowMaxMs := 0
  digitGapMinMs := 0
  pulseTimeoutMs := 0
  dtmfStableMs := 0
  dtmfMinToneMs := 0
  dtmfDebounceMs := 0
  dtmfDoneMs := 0
  ringLengthMs := 0
  ringPauseMs := 0
  ringIterations := 0
  strobeAddr := 0
  strobePin := 0
  notifyEn := false
  pinMap := Vector.replicate 8 { addr := 0, hookPin := 0, frPin := 0, rmPin := 0 }

/-- The block after reset (R340). -/
def Block.reset : Block where
  lines := Vector.replicate 8 LineRec.reset
  lastReady := none
  xb := Vector.replicate 8 (Vector.replicate 8 .none)
  evq := []
  evqDrops := 0
  tone := ToneState.reset
  cfg := Cfg.reset

/-- `init(params)` of R340, with no transaction pending and the port at the model's own values (DESIGN CHOICE, unsafe, entries 1 and 3). -/
def State.init (p : Params) : State where
  params := p
  blk := Block.reset
  inputs := []
  data := 0
  now := 0
  resp := { code := 0, val := 0, trace := [] }

/-- The machine right after reset, with the default parameters of R8. -/
def State.reset : State := State.init Params.default

end Sys2Proof.Machine
end

