-- ==== Sys2Proof/Machine/Operands.lean ====
section
/-! DEFINITION. The command errors (spec/60_exceptions.md R312), the operand checks in the order of R313, and the numeric codes
of the enumerations (spec/10_state.md R33, R35, R43 to R45). -/

namespace Sys2Proof.Machine

/-- The command errors of R312. -/
inductive Err where
  | illegal | reserved | line | same | value | reg | state | range
deriving DecidableEq, Repr

/-- The CODE of an error (R312). -/
def Err.code : Err → BitVec 4
  | .illegal => 1
  | .reserved => 2
  | .line => 3
  | .same => 4
  | .value => 5
  | .reg => 6
  | .state => 7
  | .range => 8

/-- The code of a LineStatus (R33). -/
def LineStatus.code : LineStatus → BitVec 4
  | .idle => 0
  | .ready => 1
  | .pulseDialing => 2
  | .toneDialing => 3
  | .busy => 4
  | .fail => 5
  | .ringing => 6
  | .connected => 7
  | .disconnected => 8
  | .timeout => 9
  | .abandoned => 10
  | .incoming => 11
  | .operator => 12
  | .systemConfig => 13

/-- The code of a HookState (R35). -/
def HookState.code : HookState → BitVec 2
  | .on => 0
  | .off => 1
  | .disconnected => 2

/-- The code of a pulse phase (R43). -/
def PulsePhase.code : PulsePhase → BitVec 2
  | .idle => 0
  | .inPulse => 1
  | .betweenPulses => 2

/-- The code of a ring phase (R44). -/
def RingPhase.code : RingPhase → BitVec 2
  | .idle => 0
  | .toggling => 1
  | .pause => 2

/-- The code of a ConnState (R45); the order of the codes is the order of "at least". -/
def ConnState.code : ConnState → BitVec 2
  | .none => 0
  | .attempting => 1
  | .ringing => 2
  | .established => 3

/-- The code of a LOG kind (R315). -/
def LogKind.code : LogKind → BitVec 4
  | .cmdError => 0
  | .evqOverflow => 1
  | .pulseAbort => 2
  | .pulseTimeout => 3
  | .dtmfAbort => 4
  | .dtmfSpurious => 5
  | .dtmfDuplicate => 6
  | .dtmfReject => 7
  | .digitOverflow => 8

/-- A line index as a 4-bit field. -/
def lineCode (l : Line) : BitVec 4 := BitVec.ofNat 4 l.val

/-- An optional line index as a 4-bit field: 0xF is none (R9). -/
def optLineCode : Option Line → BitVec 4
  | none => 0xF
  | some l => lineCode l

/-- The state is at least the threshold, in the order of R45. -/
def ConnState.atLeast (c threshold : ConnState) : Bool := threshold.code.toNat ≤ c.code.toNat

/-- A field that must name a line (R313 items 3 and 4). -/
def lineOperand (f : BitVec 4) : Except Err Line :=
  if h : f.toNat < 8 then .ok ⟨f.toNat, h⟩ else .error .line

/-- checkPair (spec/45_crossbar.md R270): two lines, distinct. -/
def pairOperand (la lb : BitVec 4) : Except Err (Line × Line) := do
  let a ← lineOperand la
  let b ← lineOperand lb
  if a = b then .error .same else .ok (a, b)

/-- The peer field of LR_SET_PEER: 0xF is none, else a line (R169, R101). -/
def peerOperand (f : BitVec 4) : Except Err (Option Line) :=
  if f = 0xF then .ok none else (lineOperand f).map some

/-- Which peer pointer LR_SET_PEER writes (R169). -/
inductive PeerSide where
  | incoming | outgoing
deriving DecidableEq, Repr

/-- The selector of LR_SET_PEER (R169): 0 incomingFrom, 1 outgoingTo. -/
def sideOperand (f : BitVec 4) : Except Err PeerSide :=
  match f.toNat with
  | 0 => .ok .incoming
  | 1 => .ok .outgoing
  | _ => .error .value

/-- A field that must be a LineStatus code (R33, R162). -/
def statusOperand (f : BitVec 4) : Except Err LineStatus :=
  match f.toNat with
  | 0 => .ok .idle
  | 1 => .ok .ready
  | 2 => .ok .pulseDialing
  | 3 => .ok .toneDialing
  | 4 => .ok .busy
  | 5 => .ok .fail
  | 6 => .ok .ringing
  | 7 => .ok .connected
  | 8 => .ok .disconnected
  | 9 => .ok .timeout
  | 10 => .ok .abandoned
  | 11 => .ok .incoming
  | 12 => .ok .operator
  | 13 => .ok .systemConfig
  | _ => .error .value

/-- A field that must be a ConnState code (R45, R270). -/
def connOperand (f : BitVec 4) : Except Err ConnState :=
  match f.toNat with
  | 0 => .ok .none
  | 1 => .ok .attempting
  | 2 => .ok .ringing
  | 3 => .ok .established
  | _ => .error .value

/-- The operands of LR_SET_STATUS in check order (R162): the line, the status. -/
def setStatusOperands (la sv : BitVec 4) : Except Err (Line × LineStatus) := do
  let l ← lineOperand la
  let st ← statusOperand sv
  .ok (l, st)

/-- The operands of LR_SET_PEER in check order (R169): the line, the peer, distinct, the selector. -/
def setPeerOperands (la lb sv : BitVec 4) : Except Err (Line × Option Line × PeerSide) := do
  let l ← lineOperand la
  let peer ← peerOperand lb
  if peer = some l then .error .same
  let side ← sideOperand sv
  .ok (l, peer, side)

/-- The operands of XB_SET in check order (R271): the pair, the state. -/
def xbSetOperands (la lb sv : BitVec 4) : Except Err (Line × Line × ConnState) := do
  let (a, b) ← pairOperand la lb
  let c ← connOperand sv
  .ok (a, b, c)

/-- The operands of XB_GET_CONNECTED and XB_GET_ALL in check order (R274, R275): the line, the minimum state. -/
def thresholdOperands (la sv : BitVec 4) : Except Err (Line × ConnState) := do
  let l ← lineOperand la
  let c ← connOperand sv
  .ok (l, c)

end Sys2Proof.Machine
end

