-- ==== Sys2Proof/Machine/Ops.lean ====
section
/-! DEFINITION. The named operations that the commands share: time (spec/00_scope.md R10), the trace (R11, R12), line records,
the response and the command error (spec/60_exceptions.md R311), the event queue (spec/40_event_queue.md R140, R141), and the
procedures of the line registry (spec/41_line_registry.md R160, R161, R163, R165, R170). The block takes no exception and returns
from none (R310, R321): what stands in an exception's place is the command error, `raiseErr`. -/

namespace Sys2Proof.Machine

/-- What a step answers. -/
abbrev Result := Host.Outcome State Fault Refusal

/-- elapsed(t) = (NOW - t) mod 2^32 (R10). -/
def elapsed (now t : Word) : Word := now - t

/-- min(x + 1, cap), the saturating counters of R41, R44 and R46. -/
def satInc {n : Nat} (cap x : BitVec n) : BitVec n := if cap ≤ x then cap else x + 1

/-- A duration as a LOG argument: min(d, 0xFFFF) (R315). -/
def logDuration (d : Word) : BitVec 16 := if d.toNat ≤ 0xFFFF then d.setWidth 16 else 0xFFFF

/-- The lines 0 to 7 in ascending order (R11). -/
def allLines : List Line := [0, 1, 2, 3, 4, 5, 6, 7]

/-- "for l in 0..7" (R11). -/
def forLines {α : Type} (f : Line → α → α) (a : α) : α := allLines.foldl (fun a l => f l a) a

/-- line[l] (R11, R32). -/
def Block.line (b : Block) (l : Line) : LineRec := b.lines[l]

/-- line[l] <- r. -/
def Block.setLine (b : Block) (l : Line) (r : LineRec) : Block := { b with lines := b.lines.set l r }

/-- Update the record of one line. -/
def Block.modifyLine (b : Block) (l : Line) (f : LineRec → LineRec) : Block := b.setLine l (f (b.line l))

/-- S.lastReady <- o (R40). -/
def Block.setLastReady (b : Block) (o : Option Line) : Block := { b with lastReady := o }

/-- S.evq <- q (R46). -/
def Block.setEvq (b : Block) (q : List Event) : Block := { b with evq := q }

/-- S.evqDrops <- n (R46). -/
def Block.setEvqDrops (b : Block) (n : Word) : Block := { b with evqDrops := n }

/-- The tone decoder's state is written (R47). -/
def Block.setTone (b : Block) (t : ToneState) : Block := { b with tone := t }

/-- The configuration registers are written (R50 to R52). -/
def Block.setCfg (b : Block) (c : Cfg) : Block := { b with cfg := c }

/-- S.xb[a][b] (R45). -/
def Block.conn (b : Block) (x y : Line) : ConnState := b.xb[x][y]

/-- S.xb[a][b] <- c. -/
def Block.setConn (b : Block) (x y : Line) (c : ConnState) : Block := { b with xb := b.xb.set x (b.xb[x].set y c) }

/-- PINMAP_l (R51). -/
def Block.pinMap (b : Block) (l : Line) : PinMap := b.cfg.pinMap[l]

/-- active(l) = ACTIVE_MASK[l] (R32). -/
def Block.active (b : Block) (l : Line) : Bool := b.cfg.activeMask.getLsbD l.val

/-- A transaction in progress: the block as written so far, and the records emitted so far (R11). -/
structure Work where
  blk : Block
  out : List Out
deriving DecidableEq, Repr

/-- emit r (R11). -/
def Work.emit (w : Work) (r : Out) : Work := { w with out := w.out ++ [r] }

/-- Update the block and emit nothing. -/
def Work.onBlk (w : Work) (f : Block → Block) : Work := { w with blk := f w.blk }

/-- Update one line record and emit nothing. -/
def Work.modifyLine (w : Work) (l : Line) (f : LineRec → LineRec) : Work := w.onBlk (·.modifyLine l f)

/-- A transaction before its first line: the block as it is, nothing emitted. -/
def State.work (s : State) : Work := { blk := s.blk, out := [] }

/-- respond v (R11): the transaction ends with CODE 0, VAL v and the records emitted. -/
def respond (s : State) (w : Work) (v : Word) : Result :=
  .next { s with blk := w.blk, resp := { code := 0, val := v, trace := w.out } }

/-- What a rejected transaction leaves (R311): the block unchanged, CODE the error's, VAL 0, one LOG(CMD_ERROR, code, OP). -/
def State.rejected (s : State) (e : Err) (op : BitVec 6) : State :=
  { s with resp := { code := e.code, val := 0, trace := [.log .cmdError (e.code.setWidth 16) (op.setWidth 16)] } }

/-- raise Err(e) in the rule of a command (R311). OP is the command's opcode, which is CMD[31:26] of its word. -/
def raiseErr (e : Err) (i : Instr) (s : State) : Result := .next (s.rejected e i.opcode)

/-- Check the operands of a command, then perform it: the first failing check's error is raised (R313). -/
def checked {α : Type} (i : Instr) (s : State) (operands : Except Err α) (perform : α → Result) : Result :=
  match operands with
  | .error e => raiseErr e i s
  | .ok a => perform a

/-! The event queue (R140, R141). -/

/-- Q.removeFirst(pred) (R140): the first event that satisfies pred, and the queue without it. -/
def removeFirst (pred : Event → Bool) (q : List Event) : Option Event × List Event := (q.find? pred, q.eraseP pred)

/-- "while Q.removeFirst(pred) = some _" (R198): every event that satisfies pred leaves, the others keep their order. -/
def drain (pred : Event → Bool) (q : List Event) : List Event := q.filter (fun e => !pred e)

/-- The event is of this address and pin. -/
def Event.isAt (addr : BitVec 7) (pin : BitVec 4) (e : Event) : Bool := e.addr == addr && e.pin == pin

/-- The event is of this address. -/
def Event.isOf (addr : BitVec 7) (e : Event) : Bool := e.addr == addr

/-- deriveLine(addr, pin) (R141): the least line whose pin map names this hook pin. -/
def deriveLine (b : Block) (addr : BitVec 7) (pin : BitVec 4) : Option Line :=
  allLines.find? (fun l => (b.pinMap l).addr == addr && (b.pinMap l).hookPin == pin)

/-! The procedures of the line registry. -/

/-- forceStop(l) (spec/44_ring_cadence.md R251). -/
def forceStop (r : LineRec) : LineRec := { r with rPhase := .idle, fr := false, rm := false }

/-- cancelTimer(l) (R165). -/
def cancelTimer (r : LineRec) : LineRec := { r with tArmed := false, expired := false }

/-- setLineTimer(l, d) (R163). -/
def setLineTimer (now d : Word) (r : LineRec) : LineRec :=
  { r with tArmed := true, tStart := now, tDur := d, expired := false }

/-- The entry side effects of Idle on the record (R160). -/
def enterIdle (r : LineRec) : LineRec :=
  cancelTimer { r with digits := [], incomingFrom := none, outgoingTo := none }

/-- What setStatus writes in the line's record (R160). -/
def applyStatus (st : LineStatus) (r : LineRec) : LineRec :=
  let r1 := { r with prevStatus := r.status, status := st }
  let r2 := if st = .idle then enterIdle r1 else r1
  let r3 := if st ≠ .idle ∧ r2.rPhase ≠ .idle then forceStop r2 else r2
  { r3 with change := true }

/-- What setStatus does to the last-ready pointer (R160). -/
def nextLastReady (l : Line) (st : LineStatus) (p : Option Line) : Option Line :=
  if st = .ready then some l else if p = some l then none else p

/-- notify(l, st) (R161). -/
def notify (l : Line) (st : LineStatus) (w : Work) : Work :=
  if w.blk.cfg.notifyEn then w.emit (.notify l st) else w

/-- setStatus(l, st) (R160). -/
def setStatus (l : Line) (st : LineStatus) (w : Work) : Work :=
  notify l st (w.onBlk fun b => (b.modifyLine l (applyStatus st)).setLastReady (nextLastReady l st b.lastReady))

/-- appendDigit(l, ch) (R170). -/
def appendDigit (p : Params) (l : Line) (ch : Byte) (w : Work) : Work :=
  if (w.blk.line l).digits.length < p.digitsMax then
    w.modifyLine l (fun r => { r with digits := r.digits ++ [ch] })
  else w.emit (.log .digitOverflow (BitVec.ofNat 16 l.val) (ch.setWidth 16))

end Sys2Proof.Machine
end

