-- ==== Sys2Proof/Machine/Flags.lean ====
section
/-! DEFINITION. The per-line flags (spec/10_state.md R39) and how they are read as a mask of eight lines. The block has no
condition flags. -/

namespace Sys2Proof.Machine

/-- The 8-bit word whose bit l is f l: the sum over l of (f l << l). -/
def lineMask (f : Line → Bool) : BitVec 8 :=
  BitVec.ofBool (f 7) ++ BitVec.ofBool (f 6) ++ BitVec.ofBool (f 5) ++ BitVec.ofBool (f 4) ++
  BitVec.ofBool (f 3) ++ BitVec.ofBool (f 2) ++ BitVec.ofBool (f 1) ++ BitVec.ofBool (f 0)

/-- notIdle(l) (R39): computed, never stored. -/
def Block.notIdle (b : Block) (l : Line) : Bool := (b.line l).status != .idle

/-- The change bits of all lines (R39). -/
def Block.changeMask (b : Block) : BitVec 8 := lineMask fun l => (b.line l).change

/-- The expired bits of all lines (R39). -/
def Block.expiredMask (b : Block) : BitVec 8 := lineMask fun l => (b.line l).expired

/-- Clear every change bit (R167). -/
def Block.clearChanges (b : Block) : Block := forLines (fun l b => b.modifyLine l fun r => { r with change := false }) b

/-- Clear every expired bit (R168). -/
def Block.clearExpired (b : Block) : Block := forLines (fun l b => b.modifyLine l fun r => { r with expired := false }) b

end Sys2Proof.Machine
end

