-- ==== Sys2Proof/Machine/Crossbar.lean ====
section
/-! DEFINITION. The symmetric crossbar connection matrix (spec/45_crossbar.md R270 to R277). -/

namespace Sys2Proof.Machine

/-- Both entries of a pair are written (R271). -/
def setPair (x y : Line) (c : ConnState) (b : Block) : Block := (b.setConn x y c).setConn y x c

/-- XB_SET (R271). -/
def execXbSet (la lb sv : BitVec 4) (s : State) : Result :=
  checked (.xbSet la lb sv) s (xbSetOperands la lb sv) fun (x, y, c) => respond s (s.work.onBlk (setPair x y c)) 0

/-- XB_GET (R272). -/
def execXbGet (la lb : BitVec 4) (s : State) : Result :=
  checked (.xbGet la lb) s (pairOperand la lb) fun (x, y) => respond s s.work ((s.blk.conn x y).code.setWidth 32)

/-- XB_ARE_CONNECTED (R273). -/
def execXbAreConnected (la lb : BitVec 4) (s : State) : Result :=
  checked (.xbAreConnected la lb) s (pairOperand la lb) fun (x, y) =>
    respond s s.work (if s.blk.conn x y = .established then 1 else 0)

/-- Line y is another line than x, connected to it at or above the threshold (R274, R275). -/
def reaches (b : Block) (x : Line) (threshold : ConnState) (y : Line) : Bool :=
  y != x && (b.conn x y).atLeast threshold

/-- XB_GET_CONNECTED (R274). -/
def execXbGetConnected (la sv : BitVec 4) (s : State) : Result :=
  checked (.xbGetConnected la sv) s (thresholdOperands la sv) fun (x, c) =>
    respond s s.work ((optLineCode (allLines.find? (reaches s.blk x c))).setWidth 32)

/-- XB_GET_ALL (R275); for the threshold None every other line, at reset too (DEDUCED, entry 12). -/
def execXbGetAll (la sv : BitVec 4) (s : State) : Result :=
  checked (.xbGetAll la sv) s (thresholdOperands la sv) fun (x, c) =>
    respond s s.work ((lineMask (reaches s.blk x c)).setWidth 32)

/-- Row and column of a line become None (R276). -/
def disconnectLine (x : Line) (b : Block) : Block :=
  forLines (fun y b => (b.setConn x y .none).setConn y x .none) b

/-- XB_DISCONNECT (R276). -/
def execXbDisconnect (la : BitVec 4) (s : State) : Result :=
  checked (.xbDisconnect la) s (lineOperand la) fun x => respond s (s.work.onBlk (disconnectLine x)) 0

end Sys2Proof.Machine
end

