-- ==== Sys2Proof/Machine/EventQueue.lean ====
section
/-! DEFINITION. The interrupt event queue's commands (spec/40_event_queue.md R142 to R146). -/

namespace Sys2Proof.Machine

/-- The event value of a poll (spec/30_encoding.md R110). -/
def eventValue (e : Event) : Word :=
  place 31 1#1 ||| place 14 (optLineCode e.line) ||| place 7 e.addr ||| place 3 e.pin ||| place 2 (BitVec.ofBool e.lvl)

/-- What a poll answers: the event value, 0 for none (R143). -/
def pollValue : Option Event → Word
  | none => 0
  | some e => eventValue e

/-- A poll: remove and return the first event that satisfies the filter (R143 to R145). -/
def poll (pred : Event → Bool) (s : State) : Result :=
  let r := removeFirst pred s.blk.evq
  respond s (s.work.onBlk fun b => b.setEvq r.2) (pollValue r.1)

/-- EQ_PUSH (R142). -/
def execEqPush (addr : BitVec 7) (pin : BitVec 4) (lvl : Bool) (s : State) : Result :=
  let e : Event := { addr := addr, pin := pin, lvl := lvl, line := deriveLine s.blk addr pin }
  if s.blk.evq.length < s.params.evqCap then
    respond s (s.work.onBlk fun b => b.setEvq (b.evq ++ [e])) 1
  else
    respond s
      ((s.work.onBlk fun b => b.setEvqDrops (satInc 0xFFFFFFFF b.evqDrops)).emit
        (.log .evqOverflow (addr.setWidth 16) (pin.setWidth 16))) 0

/-- EQ_POLL_MATCH (R143). -/
def execEqPollMatch (addr : BitVec 7) (pin : BitVec 4) (s : State) : Result := poll (Event.isAt addr pin) s

/-- EQ_POLL_ADDR (R144). -/
def execEqPollAddr (addr : BitVec 7) (s : State) : Result := poll (Event.isOf addr) s

/-- EQ_POLL_ANY (R145). -/
def execEqPollAny (s : State) : Result := poll (fun _ => true) s

/-- EQ_CLEAR (R146). -/
def execEqClear (s : State) : Result :=
  respond s (s.work.onBlk fun b => b.setEvq []) (BitVec.ofNat 32 s.blk.evq.length)

end Sys2Proof.Machine
end

