-- ==== Sys2Proof/Machine/HookPulse.lean ====
section
/-! DEFINITION. The debounce filter bank and the rotary pulse train decoder (spec/42_hook_pulse.md): CYCLE steps 1 and 2. -/

namespace Sys2Proof.Machine

/-- The sample becomes the hook candidate, or is counted for it (R191, first half). -/
def hookSample (now : Word) (r : Bool) (L : LineRec) : LineRec :=
  if L.hCand ≠ some r then { L with hCand := some r, hSince := now, hCount := 1 }
  else { L with hCount := satInc consecMax L.hCount }

/-- The hook state of a raw level: 1 is off-hook (R190, R191). -/
def hookOfLevel (r : Bool) : HookState := if r then .off else .on

/-- The candidate is accepted when both thresholds are met; going On resets the pulse detector (R191, second half). -/
def hookAccept (c : Cfg) (now : Word) (r : Bool) (L : LineRec) : LineRec :=
  if hookOfLevel r ≠ L.hook ∧ c.hookStableMs ≤ elapsed now L.hSince ∧ c.hookStableConsec ≤ L.hCount then
    let L1 := { L with prevHook := L.hook, hook := hookOfLevel r }
    if hookOfLevel r = .on then { L1 with pPhase := .idle, pCount := 0 } else L1
  else L

/-- hookFilter(l, r) (R191). -/
def hookFilter (c : Cfg) (now : Word) (r : Bool) (L : LineRec) : LineRec := hookAccept c now r (hookSample now r L)

/-- A glitch-filtered edge with its timestamp (R192). -/
inductive Edge where
  | falling (t : Word)
  | rising (t : Word)
deriving DecidableEq, Repr

/-- The raw level becomes the persisting level, or already is (R192, first half). -/
def glitchSample (now : Word) (r : Bool) (L : LineRec) : LineRec :=
  if L.gCand ≠ some r then { L with gCand := some r, gSince := now } else L

/-- The edge between the accepted level and a new one: none at the first accepted level (R192). -/
def edgeOf (old : Option Bool) (r : Bool) (t : Word) : Option Edge :=
  if old = some true ∧ r = false then some (.falling t)
  else if old = some false ∧ r = true then some (.rising t)
  else none

/-- A level that has persisted for the glitch window is accepted (R192, second half). -/
def glitchAccept (c : Cfg) (now : Word) (r : Bool) (L : LineRec) : LineRec × Option Edge :=
  if L.gLevel ≠ L.gCand ∧ c.pulseGlitchMs ≤ elapsed now L.gSince then
    ({ L with gLevel := L.gCand }, edgeOf L.gLevel r L.gSince)
  else (L, none)

/-- glitchFilter(l, r) (R192). -/
def glitchFilter (c : Cfg) (now : Word) (r : Bool) (L : LineRec) : LineRec × Option Edge :=
  glitchAccept c now r (glitchSample now r L)

/-- The pulse detector at Idle with no count (R191, R193 to R196). -/
def pulseIdle (L : LineRec) : LineRec := { L with pPhase := .idle, pCount := 0 }

/-- The gate of the pulse detector: off hook, and Ready or PulseDialing (R193). -/
def pulseGate (L : LineRec) : Bool := L.hook == .off && (L.status == .ready || L.status == .pulseDialing)

/-- The count after one more pulse, folded into 1 to 10 (R194). -/
def nextCount (n : BitVec 4) : BitVec 4 := n % 10 + 1

/-- A falling edge begins a low period in Idle and in BetweenPulses (R194). -/
def beginPulse (t : Word) (L : LineRec) : LineRec := { L with pPhase := .inPulse, pEdge := t }

/-- A rising edge in InPulse ends a low period: it counts within the bounds, else the digit is aborted (R194). -/
def endPulse (l : Line) (t : Word) (w : Work) : Work :=
  let L := w.blk.line l
  let d := t - L.pEdge
  if w.blk.cfg.pulseDebounceMs ≤ d ∧ d ≤ w.blk.cfg.pulseLowMaxMs then
    w.modifyLine l fun L => { L with pCount := nextCount L.pCount, pPhase := .betweenPulses, pEdge := t }
  else (w.emit (.log .pulseAbort (BitVec.ofNat 16 l.val) (logDuration d))).modifyLine l pulseIdle

/-- edgeStep(l, e) (R194); an edge that the phase does not expect is ignored. -/
def edgeStep (l : Line) (e : Option Edge) (w : Work) : Work :=
  match (w.blk.line l).pPhase, e with
  | .idle, some (.falling t) => w.modifyLine l (beginPulse t)
  | .betweenPulses, some (.falling t) => w.modifyLine l (beginPulse t)
  | .inPulse, some (.rising t) => endPulse l t w
  | _, _ => w

/-- pulseDigit(count) (R197): 1 to 9 are '1' to '9', 10 is '0'. -/
def pulseDigit (n : BitVec 4) : Byte := 0x30 + (n % 10).setWidth 8

/-- A digit is complete: it is appended, and a Ready line goes to PulseDialing (R195). -/
def emitDigit (p : Params) (l : Line) (w : Work) : Work :=
  let ch := pulseDigit (w.blk.line l).pCount
  let w1 := appendDigit p l ch (w.modifyLine l pulseIdle)
  if (w1.blk.line l).status = .ready then setStatus l .pulseDialing w1 else w1

/-- pulseTimeout(l) (R196). -/
def pulseTimeout (l : Line) (w : Work) : Work :=
  (w.emit (.log .pulseTimeout (BitVec.ofNat 16 l.val) ((w.blk.line l).pPhase.code.setWidth 16))).modifyLine l pulseIdle

/-- gapAndTimeout(l) (R195, R196): the gap first, then the timeout, which is strict. -/
def gapAndTimeout (p : Params) (now : Word) (l : Line) (w : Work) : Work :=
  let L := w.blk.line l
  if L.pPhase = .betweenPulses ∧ w.blk.cfg.digitGapMinMs ≤ elapsed now L.pEdge then emitDigit p l w
  else if L.pPhase ≠ .idle ∧ w.blk.cfg.pulseTimeoutMs < elapsed now L.pEdge then pulseTimeout l w
  else w

/-- pulseDetector(l, e) (R193). -/
def pulseDetector (p : Params) (now : Word) (l : Line) (e : Option Edge) (w : Work) : Work :=
  if pulseGate (w.blk.line l) then gapAndTimeout p now l (edgeStep l e w)
  else w.modifyLine l pulseIdle

/-- Both filters of one line on its raw level: the record after them and the edge accepted (R190). -/
def filterLine (c : Cfg) (now : Word) (r : Bool) (L : LineRec) : LineRec × Option Edge :=
  glitchFilter c now r (hookFilter c now r L)

/-- Step 2 for one line (R190): an inactive line is skipped entirely. -/
def hookPulseLine (p : Params) (now : Word) (shk : BitVec 8) (l : Line) (w : Work) : Work :=
  if w.blk.active l then
    let f := filterLine w.blk.cfg now (shk.getLsbD l.val) (w.blk.line l)
    pulseDetector p now l f.2 (w.modifyLine l fun _ => f.1)
  else w

/-- CYCLE step 2 (R190). -/
def hookPulseStep (p : Params) (now : Word) (shk : BitVec 8) (w : Work) : Work := forLines (hookPulseLine p now shk) w

/-- The queue without the events of line l's hook pin (R198). -/
def drainHookPin (b : Block) (l : Line) (q : List Event) : List Event :=
  drain (Event.isAt (b.pinMap l).addr (b.pinMap l).hookPin) q

/-- CYCLE step 1 (R198): every line's hook pin is drained, active or not. -/
def drainStep (w : Work) : Work := w.onBlk fun b => b.setEvq (forLines (drainHookPin b) b.evq)

end Sys2Proof.Machine
end

