-- ==== Sys2Proof/Machine/Registers.lean ====
section
/-! DEFINITION. The register space (spec/10_state.md R49 to R58, spec/20_memory.md R81), the line word (R55) and the outputs
(spec/60_exceptions.md R324). -/

namespace Sys2Proof.Machine

/-- The RW registers (R50 to R52). -/
inductive CfgReg where
  | activeMask | hookStableMs | hookStableConsec | pulseGlitchMs | pulseDebounceMs | pulseLowMaxMs
  | digitGapMinMs | pulseTimeoutMs | dtmfStableMs | dtmfMinToneMs | dtmfDebounceMs | dtmfDoneMs
  | ringLengthMs | ringPauseMs | ringIterations | dtmfStrobe | ctrl
  | pinMap (l : Line)
deriving DecidableEq, Repr

/-- The RO registers (R53, R54). -/
inductive StatReg where
  | ringHalf | lastReady | notIdle | change | expired | timerArmed | hookState | ringOut | evqCount
  | evqDrops | tdStatus | params
  | timerEnd (l : Line) | ring (l : Line) | ringT0 (l : Line) | ringTT (l : Line)
deriving DecidableEq, Repr

/-- An assigned register (R49). -/
inductive Reg where
  | rw (r : CfgReg)
  | ro (r : StatReg)
deriving DecidableEq, Repr

/-- The line of a per-line register: n is in the eight numbers from base. -/
def lineOfReg (base n : Nat) : Option Line :=
  if h : base ≤ n ∧ n < base + 8 then some ⟨n - base, by omega⟩ else none

/-- The register of a number; none for the unassigned numbers of R58. -/
def regOfNumber (n : BitVec 8) : Option Reg :=
  match n.toNat with
  | 0x00 => some (.rw .activeMask)
  | 0x01 => some (.rw .hookStableMs)
  | 0x02 => some (.rw .hookStableConsec)
  | 0x03 => some (.rw .pulseGlitchMs)
  | 0x04 => some (.rw .pulseDebounceMs)
  | 0x05 => some (.rw .pulseLowMaxMs)
  | 0x06 => some (.rw .digitGapMinMs)
  | 0x07 => some (.rw .pulseTimeoutMs)
  | 0x08 => some (.rw .dtmfStableMs)
  | 0x09 => some (.rw .dtmfMinToneMs)
  | 0x0A => some (.rw .dtmfDebounceMs)
  | 0x0B => some (.rw .dtmfDoneMs)
  | 0x0C => some (.rw .ringLengthMs)
  | 0x0D => some (.rw .ringPauseMs)
  | 0x0E => some (.rw .ringIterations)
  | 0x0F => some (.rw .dtmfStrobe)
  | 0x10 => some (.rw .ctrl)
  | 0x20 => some (.ro .ringHalf)
  | 0x21 => some (.ro .lastReady)
  | 0x22 => some (.ro .notIdle)
  | 0x23 => some (.ro .change)
  | 0x24 => some (.ro .expired)
  | 0x25 => some (.ro .timerArmed)
  | 0x26 => some (.ro .hookState)
  | 0x27 => some (.ro .ringOut)
  | 0x28 => some (.ro .evqCount)
  | 0x29 => some (.ro .evqDrops)
  | 0x2A => some (.ro .tdStatus)
  | 0x2B => some (.ro .params)
  | m =>
    ((lineOfReg 0x18 m).map fun l => .rw (.pinMap l)) <|>
    ((lineOfReg 0x30 m).map fun l => .ro (.timerEnd l)) <|>
    ((lineOfReg 0x38 m).map fun l => .ro (.ring l)) <|>
    ((lineOfReg 0x40 m).map fun l => .ro (.ringT0 l)) <|>
    ((lineOfReg 0x48 m).map fun l => .ro (.ringTT l))

/-- The number of an RW register (R50 to R52). -/
def CfgReg.number : CfgReg → BitVec 8
  | .activeMask => 0x00
  | .hookStableMs => 0x01
  | .hookStableConsec => 0x02
  | .pulseGlitchMs => 0x03
  | .pulseDebounceMs => 0x04
  | .pulseLowMaxMs => 0x05
  | .digitGapMinMs => 0x06
  | .pulseTimeoutMs => 0x07
  | .dtmfStableMs => 0x08
  | .dtmfMinToneMs => 0x09
  | .dtmfDebounceMs => 0x0A
  | .dtmfDoneMs => 0x0B
  | .ringLengthMs => 0x0C
  | .ringPauseMs => 0x0D
  | .ringIterations => 0x0E
  | .dtmfStrobe => 0x0F
  | .ctrl => 0x10
  | .pinMap l => BitVec.ofNat 8 (0x18 + l.val)

/-- The number of an RO register (R53, R54). -/
def StatReg.number : StatReg → BitVec 8
  | .ringHalf => 0x20
  | .lastReady => 0x21
  | .notIdle => 0x22
  | .change => 0x23
  | .expired => 0x24
  | .timerArmed => 0x25
  | .hookState => 0x26
  | .ringOut => 0x27
  | .evqCount => 0x28
  | .evqDrops => 0x29
  | .tdStatus => 0x2A
  | .params => 0x2B
  | .timerEnd l => BitVec.ofNat 8 (0x30 + l.val)
  | .ring l => BitVec.ofNat 8 (0x38 + l.val)
  | .ringT0 l => BitVec.ofNat 8 (0x40 + l.val)
  | .ringTT l => BitVec.ofNat 8 (0x48 + l.val)

/-- The REG operand of REG_READ: an assigned number (R291, R313 item 7). -/
def readableOperand (n : BitVec 8) : Except Err Reg :=
  match regOfNumber n with
  | some r => .ok r
  | none => .error .reg

/-- The REG operand of REG_WRITE: an RW register (R292, R313 item 7). -/
def writableOperand (n : BitVec 8) : Except Err CfgReg :=
  match regOfNumber n with
  | some (.rw r) => .ok r
  | some (.ro _) => .error .reg
  | none => .error .reg

/-- The value of PINMAP_l (R51): RM_PIN [19:16], FR_PIN [15:12], HOOK_PIN [11:8], ADDR [6:0]. -/
def PinMap.word (m : PinMap) : Word := place 16 m.rmPin ||| place 12 m.frPin ||| place 8 m.hookPin ||| place 0 m.addr

/-- The fields of a word written to PINMAP_l (R51). -/
def PinMap.ofWord (v : Word) : PinMap where
  addr := v.extractLsb' 0 7
  hookPin := v.extractLsb' 8 4
  frPin := v.extractLsb' 12 4
  rmPin := v.extractLsb' 16 4

/-- The value of DTMF_STROBE (R52): PIN [11:8], ADDR [6:0]. -/
def strobeWord (addr : BitVec 7) (pin : BitVec 4) : Word := place 8 pin ||| place 0 addr

/-- RegRead of an RW register (R50 to R52, R81). -/
def readCfg (c : Cfg) : CfgReg → Word
  | .activeMask => c.activeMask.setWidth 32
  | .hookStableMs => c.hookStableMs
  | .hookStableConsec => c.hookStableConsec.setWidth 32
  | .pulseGlitchMs => c.pulseGlitchMs
  | .pulseDebounceMs => c.pulseDebounceMs
  | .pulseLowMaxMs => c.pulseLowMaxMs
  | .digitGapMinMs => c.digitGapMinMs
  | .pulseTimeoutMs => c.pulseTimeoutMs
  | .dtmfStableMs => c.dtmfStableMs
  | .dtmfMinToneMs => c.dtmfMinToneMs
  | .dtmfDebounceMs => c.dtmfDebounceMs
  | .dtmfDoneMs => c.dtmfDoneMs
  | .ringLengthMs => c.ringLengthMs
  | .ringPauseMs => c.ringPauseMs
  | .ringIterations => c.ringIterations.setWidth 32
  | .dtmfStrobe => strobeWord c.strobeAddr c.strobePin
  | .ctrl => (BitVec.ofBool c.notifyEn).setWidth 32
  | .pinMap l => c.pinMap[l].word

/-- RegWrite of an RW register (R57, R81): the register's fields of the word are stored, the other bits discarded. -/
def writeCfg (c : Cfg) (r : CfgReg) (v : Word) : Cfg :=
  match r with
  | .activeMask => { c with activeMask := v.setWidth 8 }
  | .hookStableMs => { c with hookStableMs := v }
  | .hookStableConsec => { c with hookStableConsec := v.setWidth 16 }
  | .pulseGlitchMs => { c with pulseGlitchMs := v }
  | .pulseDebounceMs => { c with pulseDebounceMs := v }
  | .pulseLowMaxMs => { c with pulseLowMaxMs := v }
  | .digitGapMinMs => { c with digitGapMinMs := v }
  | .pulseTimeoutMs => { c with pulseTimeoutMs := v }
  | .dtmfStableMs => { c with dtmfStableMs := v }
  | .dtmfMinToneMs => { c with dtmfMinToneMs := v }
  | .dtmfDebounceMs => { c with dtmfDebounceMs := v }
  | .dtmfDoneMs => { c with dtmfDoneMs := v }
  | .ringLengthMs => { c with ringLengthMs := v }
  | .ringPauseMs => { c with ringPauseMs := v }
  | .ringIterations => { c with ringIterations := v.setWidth 8 }
  | .dtmfStrobe => { c with strobeAddr := v.extractLsb' 0 7, strobePin := v.extractLsb' 8 4 }
  | .ctrl => { c with notifyEn := v.getLsbD 0 }
  | .pinMap l => { c with pinMap := c.pinMap.set l (PinMap.ofWord v) }

/-- The output RING_FR: bit l is line[l].FR (R324). -/
def ringFR (b : Block) : BitVec 8 := lineMask fun l => (b.line l).fr

/-- The output RING_RM: bit l is line[l].RM (R324). -/
def ringRM (b : Block) : BitVec 8 := lineMask fun l => (b.line l).rm

/-- The output DTMF_PWR (R324). -/
def dtmfPwr (b : Block) : Bool := b.tone.active

/-- HOOK_STATE (R53): line l's code in [2l+1:2l], so 0xAAA9 where the example of R191 prints 0x0001 (DEDUCED, entry 18). -/
def hookStateWord (b : Block) : Word :=
  allLines.foldl (fun w l => w ||| place (2 * l.val) (b.line l).hook.code) 0

/-- TD_STATUS (R53). -/
def toneStatusWord (t : ToneState) : Word :=
  place 8 (optLineCode t.line) ||| place 4 (t.lastNib.getD 0) ||| place 3 (BitVec.ofBool t.lastNib.isSome) |||
  place 2 (BitVec.ofBool t.high) ||| place 1 (BitVec.ofBool t.pending) ||| place 0 (BitVec.ofBool t.active)

/-- PARAMS (R53, R56). -/
def paramsWord (p : Params) : Word :=
  place 16 (BitVec.ofNat 16 p.evqCap) ||| place 8 (BitVec.ofNat 8 p.digitsMax) ||| place 0 (BitVec.ofNat 8 nLines)

/-- TIMER_END_l (R54): the deadline of an armed timer, else 0. -/
def timerEndWord (r : LineRec) : Word := if r.tArmed then r.tStart + r.tDur else 0

/-- RING_l (R54). -/
def ringWord (r : LineRec) : Word :=
  place 8 r.rIter ||| place 3 (BitVec.ofBool r.rm) ||| place 2 (BitVec.ofBool r.fr) ||| place 0 r.rPhase.code

/-- RegRead of an RO register (R53, R54, R81). -/
def readStat (p : Params) (b : Block) : StatReg → Word
  | .ringHalf => p.ringHalfMs
  | .lastReady => (optLineCode b.lastReady).setWidth 32
  | .notIdle => (lineMask b.notIdle).setWidth 32
  | .change => b.changeMask.setWidth 32
  | .expired => b.expiredMask.setWidth 32
  | .timerArmed => (lineMask fun l => (b.line l).tArmed).setWidth 32
  | .hookState => hookStateWord b
  | .ringOut => place 8 (ringRM b) ||| place 0 (ringFR b)
  | .evqCount => (BitVec.ofNat 16 b.evq.length).setWidth 32
  | .evqDrops => b.evqDrops
  | .tdStatus => toneStatusWord b.tone
  | .params => paramsWord p
  | .timerEnd l => timerEndWord (b.line l)
  | .ring l => ringWord (b.line l)
  | .ringT0 l => (b.line l).rT0
  | .ringTT l => (b.line l).rTT

/-- RegRead(n) of an assigned register (R81); it has no side effect. -/
def regRead (p : Params) (b : Block) : Reg → Word
  | .rw r => readCfg b.cfg r
  | .ro r => readStat p b r

/-- RegWrite(n, v) of an RW register (R81); nothing but the register changes (R293). -/
def regWrite (b : Block) (r : CfgReg) (v : Word) : Block := b.setCfg (writeCfg b.cfg r v)

/-- The line word (R55). -/
def lineWord (b : Block) (l : Line) : Word :=
  let r := b.line l
  place 28 (optLineCode r.outgoingTo) ||| place 24 (optLineCode r.incomingFrom) ||| place 22 r.rPhase.code |||
  place 16 (BitVec.ofNat 6 r.digits.length) ||| place 15 (BitVec.ofBool r.expired) ||| place 14 (BitVec.ofBool r.change) |||
  place 13 (BitVec.ofBool r.tArmed) ||| place 12 (BitVec.ofBool (b.active l)) ||| place 10 r.prevHook.code |||
  place 8 r.hook.code ||| place 4 r.prevStatus.code ||| place 0 r.status.code

end Sys2Proof.Machine
end

