-- ==== Sys2Proof/Machine/LineRegistry.lean ====
section
/-! DEFINITION. The line registry's commands (spec/41_line_registry.md R162 to R172) and the timer expiry of a CYCLE (R166). -/

namespace Sys2Proof.Machine

/-- LR_SET_STATUS (R162). -/
def execLrSetStatus (la sv : BitVec 4) (s : State) : Result :=
  checked (.lrSetStatus la sv) s (setStatusOperands la sv) fun (l, st) => respond s (setStatus l st s.work) 0

/-- LR_SET_TIMER (R164). -/
def execLrSetTimer (la : BitVec 4) (s : State) : Result :=
  checked (.lrSetTimer la) s (lineOperand la) fun l =>
    respond s (s.work.modifyLine l (setLineTimer s.now s.data)) 0

/-- LR_RESET_TIMER (R165). -/
def execLrResetTimer (la : BitVec 4) (s : State) : Result :=
  checked (.lrResetTimer la) s (lineOperand la) fun l => respond s (s.work.modifyLine l cancelTimer) 0

/-- LR_TAKE_CHANGES (R167). -/
def execLrTakeChanges (s : State) : Result :=
  respond s (s.work.onBlk Block.clearChanges) (s.blk.changeMask.setWidth 32)

/-- LR_TAKE_EXPIRED (R168). -/
def execLrTakeExpired (s : State) : Result :=
  respond s (s.work.onBlk Block.clearExpired) (s.blk.expiredMask.setWidth 32)

/-- One peer pointer of a record is written (R169). -/
def setPeer (side : PeerSide) (peer : Option Line) (r : LineRec) : LineRec :=
  match side with
  | .incoming => { r with incomingFrom := peer }
  | .outgoing => { r with outgoingTo := peer }

/-- LR_SET_PEER (R169). -/
def execLrSetPeer (la lb sv : BitVec 4) (s : State) : Result :=
  checked (.lrSetPeer la lb sv) s (setPeerOperands la lb sv) fun (l, peer, side) =>
    respond s (s.work.modifyLine l (setPeer side peer)) 0

/-- LR_READ_DIGIT (R171): DATA is the index; past the end ERR_RANGE (DEDUCED, entry 11: R108 speaks otherwise). -/
def execLrReadDigit (la : BitVec 4) (s : State) : Result :=
  checked (.lrReadDigit la) s (lineOperand la) fun l =>
    match (s.blk.line l).digits[s.data.toNat]? with
    | none => raiseErr .range (.lrReadDigit la) s
    | some ch => respond s s.work (ch.setWidth 32)

/-- LR_READ_LINE (R172). -/
def execLrReadLine (la : BitVec 4) (s : State) : Result :=
  checked (.lrReadLine la) s (lineOperand la) fun l => respond s s.work (lineWord s.blk l)

/-- timerExpiry(l), CYCLE step 5 (R166). -/
def timerExpiry (now : Word) (r : LineRec) : LineRec :=
  if r.tArmed ∧ r.tDur ≤ elapsed now r.tStart then { r with tArmed := false, expired := true } else r

/-- CYCLE step 5: every line's timer, active or not (R166). -/
def timerStep (now : Word) (w : Work) : Work := forLines (fun l w => w.modifyLine l (timerExpiry now)) w

end Sys2Proof.Machine
end

