-- ==== Sys2Proof/Machine/Ring.lean ====
section
/-! DEFINITION. The ring cadence timer and toggle FSM (spec/44_ring_cadence.md): RG_START, RG_STOP, RG_STOP_ALL and CYCLE step 4. -/

namespace Sys2Proof.Machine

/-- A Toggling phase begins (R252, R257). -/
def beginToggling (now : Word) (L : LineRec) : LineRec :=
  { L with rPhase := .toggling, rT0 := now, rTT := now, rm := true, fr := true }

/-- The state condition of RG_START (R252). -/
def ringStartable (c : Cfg) (L : LineRec) : Bool :=
  L.status == .idle && L.rPhase == .idle && c.ringIterations != 0

/-- RG_START (R252). -/
def execRgStart (la : BitVec 4) (s : State) : Result :=
  checked (.rgStart la) s (lineOperand la) fun l =>
    if ringStartable s.blk.cfg (s.blk.line l) then
      respond s (s.work.modifyLine l fun L => beginToggling s.now { L with rIter := 0 }) 0
    else raiseErr .state (.rgStart la) s

/-- Stop the cadence if it runs (R253, R254). -/
def stopRing (L : LineRec) : LineRec := if L.rPhase ≠ .idle then forceStop L else L

/-- RG_STOP (R253). -/
def execRgStop (la : BitVec 4) (s : State) : Result :=
  checked (.rgStop la) s (lineOperand la) fun l => respond s (s.work.modifyLine l stopRing) 0

/-- RG_STOP_ALL (R254). -/
def execRgStopAll (s : State) : Result := respond s (forLines (fun l w => w.modifyLine l stopRing) s.work) 0

/-- The end of a Toggling phase: Idle after the last one, else Pause (R256). -/
def endToggling (c : Cfg) (now : Word) (L : LineRec) : LineRec :=
  let L1 := { L with rIter := satInc 255 L.rIter, fr := false, rm := false }
  if c.ringIterations ≤ L1.rIter then { L1 with rPhase := .idle } else { L1 with rPhase := .pause, rT0 := now }

/-- toggling(l) (R256): the phase end is checked before the toggle. -/
def togglingPhase (p : Params) (c : Cfg) (now : Word) (L : LineRec) : LineRec :=
  if c.ringLengthMs ≤ elapsed now L.rT0 then endToggling c now L
  else if p.ringHalfMs ≤ elapsed now L.rTT then { L with fr := !L.fr, rTT := now }
  else L

/-- pause(l) (R257). -/
def pausePhase (c : Cfg) (now : Word) (L : LineRec) : LineRec :=
  if c.ringPauseMs ≤ elapsed now L.rT0 then beginToggling now L else L

/-- ringUpdate(l) (R255). -/
def ringUpdate (p : Params) (c : Cfg) (now : Word) (L : LineRec) : LineRec :=
  match L.rPhase with
  | .idle => L
  | .toggling => if L.status ≠ .idle then forceStop L else togglingPhase p c now L
  | .pause => if L.status ≠ .idle then forceStop L else pausePhase c now L

/-- CYCLE step 4 (R255): every line's cadence, active or not. -/
def ringStep (p : Params) (now : Word) (w : Work) : Work :=
  forLines (fun l w => w.modifyLine l (ringUpdate p w.blk.cfg now)) w

end Sys2Proof.Machine
end

