-- ==== Sys2Proof/Machine/Tone.lean ====
section
/-! DEFINITION. The DTMF tone detector with strobe gating (spec/43_tone_decoder.md): TD_ACTIVATE, TD_DEACTIVATE and CYCLE step 3. -/

namespace Sys2Proof.Machine

/-- Update the tone decoder and nothing else. -/
def Work.onTone (w : Work) (f : ToneState → ToneState) : Work := w.onBlk fun b => b.setTone (f b.tone)

/-- The decoder switched on or off; the strobe machine starts again (R223, R224). -/
def switchTone (on : Bool) (t : ToneState) : ToneState := { t with active := on, pending := false, high := false }

/-- TD_ACTIVATE (R223). -/
def execTdActivate (s : State) : Result := respond s (s.work.onTone (switchTone true)) 0

/-- TD_DEACTIVATE (R224). -/
def execTdDeactivate (s : State) : Result := respond s (s.work.onTone (switchTone false)) 0

/-- activeLine() (R222). -/
def activeLine (b : Block) : Option Line :=
  match b.lastReady with
  | some l => some l
  | none =>
    match b.tone.line with
    | some l => if (b.line l).status = .toneDialing then some l else none
    | none => none

/-- DTMF_MAP[n] (R221). -/
def dtmfChar (p : Params) (n : BitVec 4) : Byte := p.dtmfMap[n.toNat]

/-- risingEdge() (R226). -/
def risingEdge (now : Word) (w : Work) : Work := w.onTone fun t => { t with pending := true, high := true, rise := now }

/-- What a fall does while the strobe is high (R227): the read is aborted, or the dial-completion timer armed. -/
def endTone (now : Word) (w : Work) : Work :=
  let d := elapsed now w.blk.tone.rise
  if w.blk.tone.pending ∧ d < w.blk.cfg.dtmfMinToneMs then w.emit (.log .dtmfAbort (logDuration d) 0)
  else
    match activeLine w.blk with
    | some l => w.modifyLine l (setLineTimer now w.blk.cfg.dtmfDoneMs)
    | none => w

/-- fallingEdge() (R227). -/
def fallingEdge (now : Word) (w : Work) : Work :=
  (if w.blk.tone.high then endTone now w else w).onTone fun t => { t with pending := false, high := false }

/-- appendTone(n) (R230). -/
def appendTone (p : Params) (n : BitVec 4) (w : Work) : Work :=
  match activeLine w.blk with
  | none => w.emit (.log .dtmfReject (n.setWidth 16) ((optLineCode none).setWidth 16))
  | some l =>
    if (w.blk.line l).status = .ready ∨ (w.blk.line l).status = .toneDialing then
      let w1 := (appendDigit p l (dtmfChar p n) w).onTone fun t => { t with line := some l }
      if (w1.blk.line l).status = .ready then setStatus l .toneDialing w1 else w1
    else w.emit (.log .dtmfReject (n.setWidth 16) ((optLineCode (some l)).setWidth 16))

/-- acceptNibble(n) (R229). -/
def acceptNibble (p : Params) (now : Word) (n : BitVec 4) (w : Work) : Work :=
  if n = 0 then w.emit (.log .dtmfSpurious 0 0)
  else if w.blk.tone.lastNib = some n ∧ elapsed now w.blk.tone.lastNibT < w.blk.cfg.dtmfDebounceMs then
    w.emit (.log .dtmfDuplicate (n.setWidth 16) 0)
  else appendTone p n (w.onTone fun t => { t with lastNib := some n, lastNibT := now })

/-- stabilityCheck(q) (R228). -/
def stabilityCheck (p : Params) (now : Word) (q : BitVec 4) (w : Work) : Work :=
  if w.blk.tone.pending ∧ w.blk.cfg.dtmfStableMs ≤ elapsed now w.blk.tone.rise then
    acceptNibble p now q (w.onTone fun t => { t with pending := false })
  else w

/-- The strobe event of this CYCLE moves the strobe machine (R225). -/
def strobeEdge (now : Word) (ev : Option Event) (w : Work) : Work :=
  match ev with
  | none => w
  | some e => if e.lvl then risingEdge now w else fallingEdge now w

/-- toneStep(q), CYCLE step 3 (R225): one strobe event leaves the queue, whether or not the decoder is active. -/
def toneStep (p : Params) (now : Word) (q : BitVec 4) (w : Work) : Work :=
  let r := removeFirst (Event.isAt w.blk.cfg.strobeAddr w.blk.cfg.strobePin) w.blk.evq
  let w1 := w.onBlk fun b => b.setEvq r.2
  if w1.blk.tone.active then stabilityCheck p now q (strobeEdge now r.1 w1) else w1

end Sys2Proof.Machine
end

