-- ==== Sys2Proof/Machine/System.lean ====
section
/-! DEFINITION. The system commands and the per-cycle update (spec/46_system.md R290 to R296). -/

namespace Sys2Proof.Machine

/-- NOP (R290). -/
def execNop (s : State) : Result := respond s s.work 0

/-- REG_READ (R291). -/
def execRegRead (reg : BitVec 8) (s : State) : Result :=
  checked (.regRead reg) s (readableOperand reg) fun r => respond s s.work (regRead s.params s.blk r)

/-- REG_WRITE (R292): DATA is the value; the answer is the value now stored. -/
def execRegWrite (reg : BitVec 8) (s : State) : Result :=
  checked (.regWrite reg) s (writableOperand reg) fun r =>
    let b := regWrite s.blk r s.data
    respond s (s.work.onBlk fun _ => b) (regRead s.params b (.rw r))

/-- SHK = DATA[7:0] (R295). -/
def shkOf (data : Word) : BitVec 8 := data.extractLsb' 0 8

/-- Q = DATA[11:8] (R295). -/
def qOf (data : Word) : BitVec 4 := data.extractLsb' 8 4

/-- The five steps of a CYCLE, all with the same NOW (R296). -/
def cycleSteps (p : Params) (now : Word) (shk : BitVec 8) (q : BitVec 4) (w : Work) : Work :=
  timerStep now (ringStep p now (toneStep p now q (hookPulseStep p now shk (drainStep w))))

/-- CYCLE (R296). -/
def execCycle (s : State) : Result :=
  respond s (cycleSteps s.params s.now (shkOf s.data) (qOf s.data) s.work) 0

end Sys2Proof.Machine
end

