-- ==== Sys2Proof/Machine/Dispatch.lean ====
section
/-! DEFINITION. The meaning of every command: one arm per constructor of `Instr`. -/

namespace Sys2Proof.Machine

def exec (i : Instr) (s : State) : Host.Outcome State Fault Refusal :=
  match i with
  | .nop => Sys2Proof.Machine.execNop s
  | .eqPush addr pin lvl => Sys2Proof.Machine.execEqPush addr pin lvl s
  | .eqPollMatch addr pin => Sys2Proof.Machine.execEqPollMatch addr pin s
  | .eqPollAddr addr => Sys2Proof.Machine.execEqPollAddr addr s
  | .eqPollAny => Sys2Proof.Machine.execEqPollAny s
  | .eqClear => Sys2Proof.Machine.execEqClear s
  | .lrSetStatus la sv => Sys2Proof.Machine.execLrSetStatus la sv s
  | .lrSetTimer la => Sys2Proof.Machine.execLrSetTimer la s
  | .lrResetTimer la => Sys2Proof.Machine.execLrResetTimer la s
  | .lrTakeChanges => Sys2Proof.Machine.execLrTakeChanges s
  | .lrTakeExpired => Sys2Proof.Machine.execLrTakeExpired s
  | .lrSetPeer la lb sv => Sys2Proof.Machine.execLrSetPeer la lb sv s
  | .lrReadDigit la => Sys2Proof.Machine.execLrReadDigit la s
  | .lrReadLine la => Sys2Proof.Machine.execLrReadLine la s
  | .tdActivate => Sys2Proof.Machine.execTdActivate s
  | .tdDeactivate => Sys2Proof.Machine.execTdDeactivate s
  | .rgStart la => Sys2Proof.Machine.execRgStart la s
  | .rgStop la => Sys2Proof.Machine.execRgStop la s
  | .rgStopAll => Sys2Proof.Machine.execRgStopAll s
  | .xbSet la lb sv => Sys2Proof.Machine.execXbSet la lb sv s
  | .xbGet la lb => Sys2Proof.Machine.execXbGet la lb s
  | .xbAreConnected la lb => Sys2Proof.Machine.execXbAreConnected la lb s
  | .xbGetConnected la sv => Sys2Proof.Machine.execXbGetConnected la sv s
  | .xbGetAll la sv => Sys2Proof.Machine.execXbGetAll la sv s
  | .xbDisconnect la => Sys2Proof.Machine.execXbDisconnect la s
  | .regRead reg => Sys2Proof.Machine.execRegRead reg s
  | .regWrite reg => Sys2Proof.Machine.execRegWrite reg s
  | .cycle => Sys2Proof.Machine.execCycle s

end Sys2Proof.Machine
end

