-- ==== Sys2Proof/Machine/Port.lean ====
section
/-! DEFINITION. The transaction port (spec/00_scope.md R6, spec/30_encoding.md R100, R105): how the block takes the host's next
transaction and performs its command word. -/

namespace Sys2Proof.Machine

/-- The transaction is taken: its DATA and NOW are the port's words until the next one (R100). -/
def State.take (s : State) (t : Transaction) (rest : List Transaction) : State :=
  { s with inputs := rest, data := t.data, now := t.now }

/-- The command error of a word that is no command (R105, R312). -/
def errOfDecode : DecodeError → Err
  | .illegal => .illegal
  | .reserved => .reserved

/-- Perform a command word: the decoder's command, or the decoder's error (R105). -/
def perform (cmd : Word) (s : State) : Result :=
  match decode cmd with
  | .ok i => exec i s
  | .error e => .next (s.rejected (errOfDecode e) (fieldOP cmd))

/-- Perform the host's next transaction; while the host has issued none, the block waits and nothing changes (R6, R343; DESIGN CHOICE, entry 1). -/
def nextTransaction (s : State) : Result :=
  match s.inputs with
  | [] => .next s
  | t :: rest => perform t.cmd (s.take t rest)

/-- The transaction in the bits of w below nbits: CMD in bits 31:0, then DATA, then NOW (R100; DESIGN CHOICE, entry 6). -/
def transactionOfBits (nbits w : Nat) : Transaction :=
  let v := w % 2 ^ nbits
  { cmd := BitVec.ofNat 32 v, data := BitVec.ofNat 32 (v / 2 ^ 32), now := BitVec.ofNat 32 (v / 2 ^ 64) }

end Sys2Proof.Machine
end

