-- ==== Sys2Proof/Machine/Step.lean ====
section
/-! DEFINITION. One step of the machine: one transaction (spec/00_scope.md R6). -/

namespace Sys2Proof.Machine

/-- One step: the host's next transaction is performed. -/
def step (s : State) : Host.Outcome State Fault Refusal := nextTransaction s

/-- The state whose next step performs the command in the bits of w below nbits: it is put before the host's other
transactions (DESIGN CHOICE: entry 6 of the log says what this stands for). -/
def State.withFetchWord (s : State) (nbits w : Nat) : State :=
  { s with inputs := transactionOfBits nbits w :: s.inputs }

end Sys2Proof.Machine
end

