-- ==== Sys2Proof/Safety.lean ====
section
/-! DEFINITION. What a safe state is: the invariants of spec/10_state.md R48, with the bounds of R36 and R43 and the outputs of
spec/44_ring_cadence.md R250. -/

namespace Sys2Proof.Machine

/-- The invariants of one line record (R48 items 1, 2, 8, 9; R36, R43, R250). -/
structure LineInv (p : Params) (L : LineRec) : Prop where
  /-- Ringing only runs on an Idle line (R48 item 1). -/
  ring_idle : L.rPhase ≠ .idle → L.status = .idle
  /-- An idle cadence drives both pins low (R48 item 2). -/
  idle_low : L.rPhase = .idle → L.fr = false ∧ L.rm = false
  /-- A pause drives both pins low (R250). -/
  pause_low : L.rPhase = .pause → L.fr = false ∧ L.rm = false
  /-- A Toggling phase drives RM high (R250). -/
  toggling_rm : L.rPhase = .toggling → L.rm = true
  /-- An idle pulse detector has no count (R48 item 8). -/
  idle_count : L.pPhase = .idle → L.pCount = 0
  /-- Between pulses at least one is counted (R48 item 8). -/
  between_count : L.pPhase = .betweenPulses → 1 ≤ L.pCount.toNat
  /-- The count is folded into 0 to 10 (R43). -/
  count_le : L.pCount.toNat ≤ 10
  /-- An Idle line has no digits (R48 item 9). -/
  idle_digits : L.status = .idle → L.digits = []
  /-- The digit buffer holds at most DIGITS_MAX (R36). -/
  digits_le : L.digits.length ≤ p.digitsMax

/-- The invariants of the tone decoder (R48 items 6, 7). -/
structure ToneInv (t : ToneState) : Prop where
  /-- An inactive decoder has no strobe state (R48 item 6). -/
  inactive : t.active = false → t.pending = false ∧ t.high = false
  /-- A pending read has a high strobe (R48 item 7). -/
  pending_high : t.pending = true → t.high = true

/-- The invariants of the block (R48). -/
structure BlockInv (p : Params) (b : Block) : Prop where
  lines : ∀ l, LineInv p (b.line l)
  /-- The last-ready line is Ready (R48 item 3). -/
  last_ready : ∀ l, b.lastReady = some l → (b.line l).status = .ready
  /-- The matrix is symmetric (R48 item 4, R277). -/
  xb_symm : ∀ x y, b.conn x y = b.conn y x
  /-- The diagonal is None (R48 item 4, R277). -/
  xb_diag : ∀ x, b.conn x x = .none
  /-- The queue holds at most EVQ_CAP events (R48 item 5). -/
  evq_le : b.evq.length ≤ p.evqCap
  tone : ToneInv b.tone

/-- The invariant of the machine. -/
def Inv (s : State) : Prop := BlockInv s.params s.blk

/-! The terms that statements about commands use. -/

/-- An operand field of a CMD word (R101). -/
inductive CmdField where
  | LA | LB | SV | ADDR | PIN | LVL | REG
deriving DecidableEq, Repr

/-- The bits of a field (R103). -/
def CmdField.mask : CmdField → Word
  | .LA => 0x03C00000
  | .LB => 0x003C0000
  | .SV => 0x0003C000
  | .ADDR => 0x00003F80
  | .PIN => 0x00000078
  | .LVL => 0x00000004
  | .REG => 0x03FC0000

/-- A row of the opcode table as R104 prints it. -/
structure SpecRow where
  op : BitVec 6
  fields : List CmdField
  mtch : Word
  mask : Word
deriving DecidableEq, Repr

/-- The 28 rows of R104: OP, used fields, match, mask. -/
def specRows : List SpecRow :=
  [⟨0x00, [], 0x00000000, 0xFFFFFFFF⟩, ⟨0x01, [.ADDR, .PIN, .LVL], 0x04000000, 0xFFFFC003⟩,
   ⟨0x02, [.ADDR, .PIN], 0x08000000, 0xFFFFC007⟩, ⟨0x03, [.ADDR], 0x0C000000, 0xFFFFC07F⟩,
   ⟨0x04, [], 0x10000000, 0xFFFFFFFF⟩, ⟨0x05, [], 0x14000000, 0xFFFFFFFF⟩] ++
  [⟨0x08, [.LA, .SV], 0x20000000, 0xFC3C3FFF⟩, ⟨0x09, [.LA], 0x24000000, 0xFC3FFFFF⟩,
   ⟨0x0A, [.LA], 0x28000000, 0xFC3FFFFF⟩, ⟨0x0B, [], 0x2C000000, 0xFFFFFFFF⟩,
   ⟨0x0C, [], 0x30000000, 0xFFFFFFFF⟩, ⟨0x0D, [.LA, .LB, .SV], 0x34000000, 0xFC003FFF⟩,
   ⟨0x0E, [.LA], 0x38000000, 0xFC3FFFFF⟩, ⟨0x0F, [.LA], 0x3C000000, 0xFC3FFFFF⟩] ++
  [⟨0x10, [], 0x40000000, 0xFFFFFFFF⟩, ⟨0x11, [], 0x44000000, 0xFFFFFFFF⟩, ⟨0x14, [.LA], 0x50000000, 0xFC3FFFFF⟩,
   ⟨0x15, [.LA], 0x54000000, 0xFC3FFFFF⟩, ⟨0x16, [], 0x58000000, 0xFFFFFFFF⟩] ++
  [⟨0x18, [.LA, .LB, .SV], 0x60000000, 0xFC003FFF⟩, ⟨0x19, [.LA, .LB], 0x64000000, 0xFC03FFFF⟩,
   ⟨0x1A, [.LA, .LB], 0x68000000, 0xFC03FFFF⟩, ⟨0x1B, [.LA, .SV], 0x6C000000, 0xFC3C3FFF⟩,
   ⟨0x1C, [.LA, .SV], 0x70000000, 0xFC3C3FFF⟩, ⟨0x1D, [.LA], 0x74000000, 0xFC3FFFFF⟩] ++
  [⟨0x20, [.REG], 0x80000000, 0xFC03FFFF⟩, ⟨0x21, [.REG], 0x84000000, 0xFC03FFFF⟩, ⟨0x3F, [], 0xFC000000, 0xFFFFFFFF⟩]

/-- The encoding of a command as its rule prints it: its word decodes to it and has this match under this mask, and a word of the
same opcode with any other bit of the mask set is rejected as reserved (R103, R106). -/
def Encoded (i : Instr) (mtch mask : Word) : Prop :=
  decode (encode i) = .ok i ∧ encode i &&& mask = mtch ∧
  ∀ w : Word, w &&& 0xFC000000 = mtch → w &&& mask ≠ mtch → decode w = .error .reserved

/-- The command is performed: the answer is the next state with this block, CODE 0, this VAL and this TRACE, and nothing else of
the state changed (R109). -/
abbrev Performs (i : Instr) (s : State) (b : Block) (v : Word) (tr : List Out) : Prop :=
  exec i s = .next { s with blk := b, resp := { code := 0, val := v, trace := tr } }

/-- The command is rejected with this code: the answer is the next state with CODE the code, VAL 0 and one
LOG(CMD_ERROR, code, OP), and nothing else of the state changed (R311). -/
abbrev Rejects (i : Instr) (s : State) (code : BitVec 4) : Prop :=
  exec i s = .next
    { s with resp := { code := code, val := 0, trace := [.log .cmdError (code.setWidth 16) ((encode i >>> 26).setWidth 16)] } }

/-- All of the block but the line records is the same. -/
structure SharedSame (b c : Block) : Prop where
  lastReady : c.lastReady = b.lastReady
  xb : c.xb = b.xb
  evq : c.evq = b.evq
  evqDrops : c.evqDrops = b.evqDrops
  tone : c.tone = b.tone
  cfg : c.cfg = b.cfg

/-- From b to c, the record of line l becomes L and nothing else changes. -/
structure OnlyLine (b c : Block) (l : Line) (L : LineRec) : Prop where
  line : c.line l = L
  others : ∀ m, m ≠ l → c.line m = b.line m
  shared : SharedSame b c

/-- All of the block but the matrix is the same. -/
structure OnlyMatrix (b c : Block) : Prop where
  lines : ∀ l, c.line l = b.line l
  lastReady : c.lastReady = b.lastReady
  evq : c.evq = b.evq
  evqDrops : c.evqDrops = b.evqDrops
  tone : c.tone = b.tone
  cfg : c.cfg = b.cfg

/-- The value of an optional line index: 15 is none (R9). -/
def optLineNat : Option Line → Nat
  | none => 15
  | some l => l.val

/-- v is the event value of e (R110). -/
structure IsEventValue (e : Event) (v : Word) : Prop where
  valid : v.extractLsb' 31 1 = 1
  zeros : v.extractLsb' 18 13 = 0
  line : (v.extractLsb' 14 4).toNat = optLineNat e.line
  addr : v.extractLsb' 7 7 = e.addr
  pin : v.extractLsb' 3 4 = e.pin
  lvl : v.getLsbD 2 = e.lvl
  low : v.extractLsb' 0 2 = 0

/-- The polls' contract (R140, R143 to R145): the first event that satisfies the filter leaves the queue and is returned; with none
the queue is unchanged and VAL is 0. -/
def Polls (i : Instr) (hit : Event → Prop) (s : State) : Prop :=
  (∀ pre e post, s.blk.evq = pre ++ e :: post → (∀ x ∈ pre, ¬ hit x) → hit e →
    ∃ v, IsEventValue e v ∧ Performs i s (s.blk.setEvq (pre ++ post)) v []) ∧
  ((∀ x ∈ s.blk.evq, ¬ hit x) → Performs i s s.blk 0 [])

/-- `line` is the derived line of an address and pin (R141). -/
def IsDerivedLine (b : Block) (addr : BitVec 7) (pin : BitVec 4) (line : Option Line) : Prop :=
  match line with
  | some l => (b.cfg.pinMap[l].addr = addr ∧ b.cfg.pinMap[l].hookPin = pin) ∧
      ∀ m : Line, m < l → ¬ (b.cfg.pinMap[m].addr = addr ∧ b.cfg.pinMap[m].hookPin = pin)
  | none => ∀ m : Line, ¬ (b.cfg.pinMap[m].addr = addr ∧ b.cfg.pinMap[m].hookPin = pin)

/-- The opcodes that are unassigned (R107). -/
abbrev unassignedOpcode (op : Nat) : Prop :=
  op ∈ [0x06, 0x07, 0x12, 0x13, 0x17, 0x1E, 0x1F] ∨ (0x22 ≤ op ∧ op ≤ 0x3E)

/-- The first failing check of R313, items 3 to 9, as its code of R312; 0 when every check passes. -/
def expectedCode (i : Instr) (s : State) : Nat :=
  let line (f : BitVec 4) (rest : Nat) : Nat := if 8 ≤ f.toNat then 3 else rest
  let pair (a b : BitVec 4) (rest : Nat) : Nat := line a (line b (if a = b then 4 else rest))
  let below (n : Nat) (f : BitVec 4) : Nat := if n ≤ f.toNat then 5 else 0
  match i with
  | .lrSetStatus la sv => line la (below 14 sv)
  | .lrSetTimer la => line la 0
  | .lrResetTimer la => line la 0
  | .lrSetPeer la lb sv =>
    line la (if 8 ≤ lb.toNat ∧ lb.toNat ≤ 14 then 3 else if la = lb then 4 else below 2 sv)
  | .lrReadDigit la =>
    if h : la.toNat < 8 then (if (s.blk.line ⟨la.toNat, h⟩).digits.length ≤ s.data.toNat then 8 else 0) else 3
  | .lrReadLine la => line la 0
  | .rgStart la =>
    if h : la.toNat < 8 then
      (if (s.blk.line ⟨la.toNat, h⟩).status ≠ .idle ∨ (s.blk.line ⟨la.toNat, h⟩).rPhase ≠ .idle ∨
          s.blk.cfg.ringIterations = 0 then 7 else 0)
    else 3
  | .rgStop la => line la 0
  | .xbSet la lb sv => pair la lb (below 4 sv)
  | .xbGet la lb => pair la lb 0
  | .xbAreConnected la lb => pair la lb 0
  | .xbGetConnected la sv => line la (below 4 sv)
  | .xbGetAll la sv => line la (below 4 sv)
  | .xbDisconnect la => line la 0
  | .regRead reg =>
    if (0x11 ≤ reg.toNat ∧ reg.toNat ≤ 0x17) ∨ (0x2C ≤ reg.toNat ∧ reg.toNat ≤ 0x2F) ∨ 0x50 ≤ reg.toNat then 6 else 0
  | .regWrite reg => if (0x11 ≤ reg.toNat ∧ reg.toNat ≤ 0x17) ∨ 0x20 ≤ reg.toNat then 6 else 0
  | .nop | .eqPush _ _ _ | .eqPollMatch _ _ | .eqPollAddr _ | .eqPollAny | .eqClear | .lrTakeChanges | .lrTakeExpired
  | .tdActivate | .tdDeactivate | .rgStopAll | .cycle => 0

/-- The records that a successful command may emit (R316). -/
def mayEmit (i : Instr) (r : Out) : Prop :=
  (∃ a p l x y, i = .eqPush a p l ∧ r = .log .evqOverflow x y) ∨
  (∃ la sv l st, i = .lrSetStatus la sv ∧ r = .notify l st) ∨
  (i = .cycle ∧ ((∃ l st, r = .notify l st) ∨ ∃ k x y, r = .log k x y ∧ k ≠ .cmdError ∧ k ≠ .evqOverflow))

/-- The commands that read DATA (R108). -/
def readsData : Instr → Prop
  | .lrSetTimer _ | .lrReadDigit _ | .regWrite _ | .cycle => True
  | _ => False

/-- REG_READ of this number is performed, changes nothing and returns a value with this property. -/
def Reads (s : State) (n : BitVec 8) (good : Word → Prop) : Prop :=
  ∃ v, good v ∧ Performs (.regRead n) s s.blk v []

/-- Bit l of v is f l for the eight lines, and the other bits are 0 (R53). -/
abbrev IsLineBits (v : Word) (f : Line → Bool) : Prop := (∀ l : Line, v.getLsbD l.val = f l) ∧ v.extractLsb' 8 24 = 0

/-- What a decoder's move to a dialing status leaves of a record (R160, R195, R230). -/
def movedTo (st : LineStatus) (L : LineRec) : LineRec :=
  { L with status := st, prevStatus := L.status, change := true, rPhase := .idle,
           fr := if L.rPhase = .idle then L.fr else false, rm := if L.rPhase = .idle then L.rm else false }

/-- The last-ready pointer after line l leaves Ready (R160). -/
def withoutReady (l : Line) (o : Option Line) : Option Line := if o = some l then none else o

/-- The ring sub-state of a record, in the order of R44: rPhase, rIter, rT0, rTT, FR, RM. -/
def LineRec.ring (L : LineRec) : RingPhase × BitVec 8 × Word × Word × Bool × Bool := (L.rPhase, L.rIter, L.rT0, L.rTT, L.fr, L.rm)

/-- Elapsed modulo 2^32 since t has reached d (R10). -/
abbrev Reached (now t d : Word) : Prop := d.toNat ≤ (now - t).toNat

/-- One CYCLE's update of a ringing Idle line's sub-state (R256, R257). -/
structure RingAdvance (p : Params) (c : Cfg) (now : Word) (L L' : LineRec) : Prop where
  /-- The last Toggling phase is over: Idle, no trailing pause (R256). -/
  last : L.rPhase = .toggling → Reached now L.rT0 c.ringLengthMs → c.ringIterations.toNat ≤ min (L.rIter.toNat + 1) 255 →
    L'.ring = (.idle, BitVec.ofNat 8 (min (L.rIter.toNat + 1) 255), L.rT0, L.rTT, false, false)
  /-- A Toggling phase that is not the last is over: Pause (R256). -/
  pause : L.rPhase = .toggling → Reached now L.rT0 c.ringLengthMs → ¬ c.ringIterations.toNat ≤ min (L.rIter.toNat + 1) 255 →
    L'.ring = (.pause, BitVec.ofNat 8 (min (L.rIter.toNat + 1) 255), now, L.rTT, false, false)
  /-- A half-period is over inside the phase: FR toggles (R256). -/
  toggle : L.rPhase = .toggling → ¬ Reached now L.rT0 c.ringLengthMs → Reached now L.rTT p.ringHalfMs →
    L'.ring = (.toggling, L.rIter, L.rT0, now, !L.fr, L.rm)
  /-- Neither is over (R256). -/
  hold : L.rPhase = .toggling → ¬ Reached now L.rT0 c.ringLengthMs → ¬ Reached now L.rTT p.ringHalfMs → L'.ring = L.ring
  /-- The Pause is over: the next Toggling phase begins with FR high (R257). -/
  resume : L.rPhase = .pause → Reached now L.rT0 c.ringPauseMs → L'.ring = (.toggling, L.rIter, now, now, true, true)
  /-- The Pause goes on (R257). -/
  wait : L.rPhase = .pause → ¬ Reached now L.rT0 c.ringPauseMs → L'.ring = L.ring

/-- The mask of an RW register number (R50 to R52). -/
def regMask (n : BitVec 8) : Word :=
  if n = 0x00 ∨ n = 0x0E then 0xFF
  else if n = 0x02 then 0xFFFF
  else if n = 0x0F then 0xF7F
  else if n = 0x10 then 0x1
  else if 0x18 ≤ n.toNat ∧ n.toNat ≤ 0x1F then 0xFFF7F
  else 0xFFFFFFFF

/-- n is the number of an RW register (R50 to R52). -/
abbrev isRW (n : BitVec 8) : Prop := n.toNat ≤ 0x10 ∨ (0x18 ≤ n.toNat ∧ n.toNat ≤ 0x1F)

/-- n is the number of an RO register (R58). -/
abbrev isRO (n : BitVec 8) : Prop := (0x20 ≤ n.toNat ∧ n.toNat ≤ 0x2B) ∨ (0x30 ≤ n.toNat ∧ n.toNat ≤ 0x4F)

/-- n is an unassigned number (R58). -/
abbrev isUnassigned (n : BitVec 8) : Prop :=
  (0x11 ≤ n.toNat ∧ n.toNat ≤ 0x17) ∨ (0x2C ≤ n.toNat ∧ n.toNat ≤ 0x2F) ∨ 0x50 ≤ n.toNat

/-- The event is of some line's hook-sense pin (R198). -/
def ofHookPin (c : Cfg) (e : Event) : Bool := allLines.any fun l => c.pinMap[l].addr == e.addr && c.pinMap[l].hookPin == e.pin

/-- The event is of the strobe pin (R225). -/
def ofStrobe (c : Cfg) (e : Event) : Bool := c.strobeAddr == e.addr && c.strobePin == e.pin

/-- Step 2 of a CYCLE for one line, from block b and an empty trace (R190, R193): an inactive line is skipped; an active one's
filters take the raw level, and then, with the gate open, the edge step and the gap and timeout check run; with it closed the
detector is held at Idle. -/
def detectorAlone (p : Params) (now : Word) (shk : BitVec 8) (b : Block) (l : Line) : Work :=
  if b.cfg.activeMask.getLsbD l.val = true then
    let f := filterLine b.cfg now (shk.getLsbD l.val) (b.line l)
    let w : Work := { blk := b.setLine l f.1, out := [] }
    if f.1.hook = .off ∧ (f.1.status = .ready ∨ f.1.status = .pulseDialing) then gapAndTimeout p now l (edgeStep l f.2 w)
    else w.modifyLine l fun L => { L with pPhase := .idle, pCount := 0 }
  else { blk := b, out := [] }

/-! Moving the origin of time (R10): every timestamp of a state, and NOW, later by k. -/

/-- A line record with its timestamps k later. -/
def LineRec.shift (k : Word) (L : LineRec) : LineRec :=
  { L with tStart := L.tStart + k, hSince := L.hSince + k, gSince := L.gSince + k, pEdge := L.pEdge + k,
           rT0 := L.rT0 + k, rTT := L.rTT + k }

/-- A tone decoder with its timestamps k later. -/
def ToneState.shift (k : Word) (t : ToneState) : ToneState := { t with rise := t.rise + k, lastNibT := t.lastNibT + k }

/-- A block with its timestamps k later. -/
def Block.shift (k : Word) (b : Block) : Block :=
  { b with lines := b.lines.map (LineRec.shift k), tone := b.tone.shift k }

/-- A state with its timestamps and NOW k later. -/
def State.shift (k : Word) (s : State) : State := { s with blk := s.blk.shift k, now := s.now + k }

end Sys2Proof.Machine
end

