-- ==== Sys2Proof/Certificates/Slice0/Obligations.lean ====
section
/-! DEFINITION. The statements for the provers, taken from the numbered rules of spec/. Each docstring names the rules. -/

section Statements

open Sys2Proof Sys2Proof.Machine

/-! Encoding. -/

/-- Decode and encode agree: every command's word decodes to it, with every operand at every value (R101 to R105). -/
def Obligations.DecodeOfEncode : Prop := ∀ i : Instr, decode (encode i) = .ok i

/-- Encode and decode agree: a word that decodes to a command is that command's word, so no bit of it is dropped (R105, R106). -/
def Obligations.EncodeOfDecoded : Prop := ∀ (w : Word) (i : Instr), decode w = .ok i → encode i = w

/-- R103: match and mask of each row of R104, and a word is that opcode's command exactly when its masked bits are the match. -/
def Obligations.MatchAndMaskDecide : Prop :=
  specRows.length = 28 ∧ ∀ r ∈ specRows,
    r.mtch = r.op.setWidth 32 <<< 26 ∧
    r.mask = 0xFFFFFFFF &&& ~~~ (r.fields.foldl (fun m f => m ||| f.mask) 0) ∧
    ∀ w : Word, (∃ i, decode w = .ok i ∧ i.opcode = r.op) ↔ w &&& r.mask = r.mtch

/-- Words that spec/ prints decode to the commands it prints beside them, one per family and format. -/
def Obligations.SpecWordsDecode : Prop :=
  decode 0x00000000 = .ok .nop ∧ decode 0x0400101C = .ok (.eqPush 0x20 3 true) ∧
  decode 0x08001018 = .ok (.eqPollMatch 0x20 3) ∧ decode 0x20C04000 = .ok (.lrSetStatus 3 1) ∧
  decode 0x34D44000 = .ok (.lrSetPeer 3 5 1) ∧ decode 0x40000000 = .ok .tdActivate ∧
  decode 0x50800000 = .ok (.rgStart 2) ∧ decode 0x6050C000 = .ok (.xbSet 1 4 3) ∧
  decode 0x71804000 = .ok (.xbGetAll 6 1) ∧ decode 0x80AC0000 = .ok (.regRead 0x2B) ∧
  decode 0x84600000 = .ok (.regWrite 0x18) ∧ decode 0xFC000000 = .ok .cycle

/-- The numbers of the statuses, states, phases and log kinds (R33, R35, R43, R44, R45, R315). -/
def Obligations.CodesOfTheEnumerations : Prop :=
  [LineStatus.idle, .ready, .pulseDialing, .toneDialing, .busy, .fail, .ringing, .connected, .disconnected, .timeout,
    .abandoned, .incoming, .operator, .systemConfig].map (·.code.toNat) = [0, 1, 2, 3, 4, 5, 6, 7, 8, 9, 10, 11, 12, 13] ∧
  [HookState.on, .off, .disconnected].map (·.code.toNat) = [0, 1, 2] ∧
  [PulsePhase.idle, .inPulse, .betweenPulses].map (·.code.toNat) = [0, 1, 2] ∧
  [RingPhase.idle, .toggling, .pause].map (·.code.toNat) = [0, 1, 2] ∧
  [ConnState.none, .attempting, .ringing, .established].map (·.code.toNat) = [0, 1, 2, 3] ∧
  [LogKind.cmdError, .evqOverflow, .pulseAbort, .pulseTimeout, .dtmfAbort, .dtmfSpurious, .dtmfDuplicate, .dtmfReject,
    .digitOverflow].map (·.code.toNat) = [0, 1, 2, 3, 4, 5, 6, 7, 8]

/-! The transaction. -/

/-- A step runs the decoded command: when the next transaction's CMD decodes to i, the step is exec of i at the state in which that
transaction is taken from the list and its DATA and NOW are the port's words (R6, R100, R105). -/
def Obligations.StepRunsDecodedCommand : Prop :=
  ∀ (s : State) (t : Transaction) (rest : List Transaction) (i : Instr),
    s.inputs = t :: rest → decode t.cmd = .ok i →
    step s = exec i { s with inputs := rest, data := t.data, now := t.now }

/-- R106 and R107: a word with an unassigned opcode is rejected with ERR_ILLEGAL, and a word with an assigned opcode that has a 1 in
a bit its opcode does not use is rejected with ERR_RESERVED; neither has an effect on the block. -/
def Obligations.NonCommandWordsRejected : Prop :=
  ∀ (s : State) (t : Transaction) (rest : List Transaction), s.inputs = t :: rest →
    (unassignedOpcode (t.cmd.toNat / 2 ^ 26) →
      step s = .next { s with inputs := rest, data := t.data, now := t.now,
                              resp := { code := 1, val := 0, trace := [.log .cmdError 1 ((t.cmd >>> 26).setWidth 16)] } }) ∧
    (∀ r ∈ specRows, r.op.toNat = t.cmd.toNat / 2 ^ 26 →
      t.cmd &&& ~~~ (0xFC000000 ||| r.fields.foldl (fun m f => m ||| f.mask) 0) ≠ 0 →
      step s = .next { s with inputs := rest, data := t.data, now := t.now,
                              resp := { code := 2, val := 0, trace := [.log .cmdError 2 ((t.cmd >>> 26).setWidth 16)] } })

/-- The model's own choice (entry 1 of the log): while the host has issued no transaction, a step changes nothing (R343: after reset
the block waits for the first transaction). -/
def Obligations.IdleStepWaits : Prop := ∀ s : State, s.inputs = [] → step s = .next s

/-- R7: every CMD, with any DATA and any NOW, has exactly one outcome, an answer; a rejected command changes no state. A CODE of 9
to 15 is never returned (R312). -/
def Obligations.EveryTransactionCompletes : Prop :=
  ∀ (s : State) (t : Transaction) (rest : List Transaction), s.inputs = t :: rest →
    ∃ (b : Block) (r : Response),
      step s = .next { s with blk := b, inputs := rest, data := t.data, now := t.now, resp := r } ∧
      (r.code ≠ 0 → b = s.blk) ∧ r.code.toNat ≤ 8

/-- R311: what a command error leaves: the state as before, VAL 0, and the trace exactly one LOG(CMD_ERROR, code, OP), where OP is
CMD[31:26]. -/
def Obligations.CommandErrorHasNoEffect : Prop :=
  ∀ (s s' : State) (t : Transaction) (rest : List Transaction),
    s.inputs = t :: rest → step s = .next s' → s'.resp.code ≠ 0 →
    s' = { s with inputs := rest, data := t.data, now := t.now,
                  resp := { code := s'.resp.code, val := 0,
                            trace := [.log .cmdError (s'.resp.code.setWidth 16) ((t.cmd >>> 26).setWidth 16)] } }

/-- R312 and R313: the CODE is that of the first failing check in the order of R313, and 0 when no check fails. -/
def Obligations.CodeIsFirstFailingCheck : Prop :=
  ∀ (s : State) (t : Transaction) (rest : List Transaction), s.inputs = t :: rest →
    ∃ s', step s = .next s' ∧
      (unassignedOpcode (t.cmd.toNat / 2 ^ 26) → s'.resp.code = 1) ∧
      (¬ unassignedOpcode (t.cmd.toNat / 2 ^ 26) → (∀ i, encode i ≠ t.cmd) → s'.resp.code = 2) ∧
      (∀ i, encode i = t.cmd →
        s'.resp.code.toNat = expectedCode i { s with inputs := rest, data := t.data, now := t.now })

/-- R6 and R12: what a command does depends on the block, the parameters and the transaction's words alone: no earlier response and
no later transaction is read. -/
def Obligations.CommandReadsNoResponseAndNoLaterInput : Prop :=
  ∀ (i : Instr) (s s' : State) (r : Response) (ins : List Transaction),
    exec i s = .next s' → exec i { s with resp := r, inputs := ins } = .next { s' with inputs := ins }

/-- R108, R102 and R323: only four commands read DATA, CYCLE reads only its low 12 bits, and only three read NOW. -/
def Obligations.UnreadDataAndTimeIgnored : Prop :=
  ∀ (i : Instr) (s s' : State) (d n : Word), exec i s = .next s' →
    (¬ readsData i → exec i { s with data := d } = .next { s' with data := d }) ∧
    (i = .cycle → d.setWidth 12 = s.data.setWidth 12 → exec i { s with data := d } = .next { s' with data := d }) ∧
    ((∀ la, i ≠ .lrSetTimer la ∧ i ≠ .rgStart la) → i ≠ .cycle →
      exec i { s with now := n } = .next { s' with now := n })

/-- Which records a transaction may emit: R316, which the spec marks as its own inference from R311 and R314. -/
def Obligations.OnlyAllowedRecords : Prop :=
  ∀ (i : Instr) (s s' : State), exec i s = .next s' →
    (s'.resp.code ≠ 0 → ∃ x y, s'.resp.trace = [.log .cmdError x y]) ∧
    (s'.resp.code = 0 → ∀ r ∈ s'.resp.trace, mayEmit i r)

/-- R10: no rule depends on the origin of time: a command run with every timestamp and NOW later by k does the same, with every
timestamp it leaves later by k. Every REG_READ is left out, also of the registers that show no timestamp. -/
def Obligations.TimeOriginIsUnseen : Prop :=
  ∀ (i : Instr) (s s' : State) (k : Word), (∀ n, i ≠ .regRead n) →
    exec i s = .next s' → exec i (s.shift k) = .next (s'.shift k)

/-! The invariants and reset. -/

/-- The reset state, of any parameters, satisfies every invariant (R340; R48 is marked by the spec as its own inference). -/
def Obligations.InvAtReset : Prop := Inv State.reset ∧ ∀ p : Params, Inv (State.init p)

/-- Every step preserves the state invariants, from every state that meets them: R48, which the spec marks as its own inference from
R160, R251, R252, R271 and R276, with the bounds of R36 and R43 and the outputs of R250. -/
def Obligations.StepKeepsInv : Prop := ∀ s s' : State, Inv s → step s = .next s' → Inv s'

/-- What reads show in the reset state (R341), for any parameters; the PARAMS word for the default ones. XB_GET_ALL answers 0 for every
threshold above None, and for None every other line, as R275 says (entry 12). R341 is marked by the spec as its own inference from
R340. -/
def Obligations.ReadsAtReset : Prop :=
  (∀ p : Params, ∀ n : BitVec 8,
    (n = 0x20 → Reads (State.init p) n (· = p.ringHalfMs)) ∧ (n = 0x21 → Reads (State.init p) n (· = 0xF)) ∧
    (n.toNat ∈ [0x22, 0x23, 0x24, 0x25, 0x27, 0x28, 0x29] → Reads (State.init p) n (· = 0)) ∧
    (n = 0x26 → Reads (State.init p) n (· = 0xAAAA)) ∧ (n = 0x2A → Reads (State.init p) n (· = 0xF00)) ∧
    (0x30 ≤ n.toNat → n.toNat ≤ 0x4F → Reads (State.init p) n (· = 0)) ∧ (isRW n → Reads (State.init p) n (· = 0))) ∧
  Reads State.reset 0x20 (· = 0x19) ∧ Reads State.reset 0x2B (· = 0x00642008) ∧
  (∀ (p : Params) (l m : Line),
    Performs (.lrReadLine (lineCode l)) (State.init p) Block.reset 0xFF000A00 [] ∧
    (l ≠ m → Performs (.xbGet (lineCode l) (lineCode m)) (State.init p) Block.reset 0 [] ∧
      Performs (.xbAreConnected (lineCode l) (lineCode m)) (State.init p) Block.reset 0 []) ∧
    (∀ c : ConnState, c ≠ .none →
      Performs (.xbGetAll (lineCode l) (c.code.setWidth 4)) (State.init p) Block.reset 0 []) ∧
    ∃ v, IsLineBits v (fun b => decide (b ≠ l)) ∧ Performs (.xbGetAll (lineCode l) 0) (State.init p) Block.reset v []) ∧
  ringFR Block.reset = 0 ∧ ringRM Block.reset = 0 ∧ dtmfPwr Block.reset = false

/-! The event queue. -/

/-- R142 with R141: EQ_PUSH appends the event with its derived line, or drops it, counts the drop and logs it. -/
def Obligations.PushAppendsOrCountsTheDrop : Prop :=
  ∀ (s : State) (addr : BitVec 7) (pin : BitVec 4) (lvl : Bool),
    Encoded (.eqPush addr pin lvl) 0x04000000 0xFFFFC003 ∧
    (s.blk.evq.length < s.params.evqCap →
      ∃ line, IsDerivedLine s.blk addr pin line ∧
        Performs (.eqPush addr pin lvl) s
          (s.blk.setEvq (s.blk.evq ++ [{ addr := addr, pin := pin, lvl := lvl, line := line }])) 1 []) ∧
    (s.params.evqCap ≤ s.blk.evq.length →
      Performs (.eqPush addr pin lvl) s
        (s.blk.setEvqDrops (BitVec.ofNat 32 (min (s.blk.evqDrops.toNat + 1) 0xFFFFFFFF))) 0
        [.log .evqOverflow (addr.setWidth 16) (pin.setWidth 16)])

/-- R143, R144, R145 with R140: a poll removes and returns the first event that its filter takes, every other event keeping its
place; with none it answers 0 and changes nothing. -/
def Obligations.PollsTakeTheFirstMatch : Prop :=
  ∀ (s : State) (addr : BitVec 7) (pin : BitVec 4),
    Encoded (.eqPollMatch addr pin) 0x08000000 0xFFFFC007 ∧
    Polls (.eqPollMatch addr pin) (fun e => e.addr = addr ∧ e.pin = pin) s ∧
    Encoded (.eqPollAddr addr) 0x0C000000 0xFFFFC07F ∧ Polls (.eqPollAddr addr) (fun e => e.addr = addr) s ∧
    Encoded .eqPollAny 0x10000000 0xFFFFFFFF ∧ Polls .eqPollAny (fun _ => True) s

/-- R110: the event value's fields, and that with bits [31] and [17:14] cleared and OP placed in [31:26] it is the EQ_PUSH word that
queues the same event. -/
def Obligations.EventValueIsItsPushWord : Prop :=
  ∀ e : Event, IsEventValue e (eventValue e) ∧
    (eventValue e &&& 0x7FFC3FFF) ||| 0x04000000 = encode (.eqPush e.addr e.pin e.lvl)

/-- R146: EQ_CLEAR removes every event and answers how many there were; the drop counter is not changed. -/
def Obligations.ClearRemovesEveryEvent : Prop :=
  ∀ s : State, Encoded .eqClear 0x14000000 0xFFFFFFFF ∧
    ∃ v b, Performs .eqClear s b v [] ∧ b.evq = [] ∧ b.evqDrops = s.blk.evqDrops ∧ b.lines = s.blk.lines ∧
      b.lastReady = s.blk.lastReady ∧ b.xb = s.blk.xb ∧ b.tone = s.blk.tone ∧ b.cfg = s.blk.cfg ∧
      (s.params.wf → Inv s → v.toNat = s.blk.evq.length)

/-- R147, which the spec marks as its own inference: an event leaves the queue only by a poll, by EQ_CLEAR or in a CYCLE; the events that stay keep their relative order; a
poll removes at most one. -/
def Obligations.EventsLeaveOnlyByTheirConsumers : Prop :=
  ∀ (i : Instr) (s s' : State), exec i s = .next s' →
    ((∃ e, (∃ a p l, i = .eqPush a p l) ∧ s'.blk.evq = s.blk.evq ++ [e]) ∨ s'.blk.evq.Sublist s.blk.evq) ∧
    (i ≠ .eqClear → i ≠ .cycle → s.blk.evq.length ≤ s'.blk.evq.length + 1) ∧
    ((∀ a p, i ≠ .eqPollMatch a p) → (∀ a, i ≠ .eqPollAddr a) → i ≠ .eqPollAny → i ≠ .eqClear → i ≠ .cycle →
      s.blk.evq <+: s'.blk.evq)

/-- R148 with R198 and R225: a CYCLE removes every event of a line's hook pin, then the first event of the strobe pin, whether or
not the lines and the decoder are active, and no other event; its first step removes those of the hook pins and does nothing else. -/
def Obligations.CycleDrainsHookPinsAndOneStrobe : Prop :=
  (∀ s : State, ∃ s', exec .cycle s = .next s' ∧
    s'.blk.evq = (s.blk.evq.filter fun e => !ofHookPin s.blk.cfg e).eraseP (ofStrobe s.blk.cfg)) ∧
  ∀ w : Work, drainStep w = { w with blk := w.blk.setEvq (w.blk.evq.filter fun e => !ofHookPin w.blk.cfg e) }

/-! The line registry. -/

/-- R160, R161 and R162: LR_SET_STATUS. -/
def Obligations.SetStatusAppliesAndNotifies : Prop :=
  ∀ s : State,
    (∀ (l : Line) (st : LineStatus), ∃ b,
      Performs (.lrSetStatus (lineCode l) st.code) s b 0 (if s.blk.cfg.notifyEn then [.notify l st] else []) ∧
      OnlyLine
        (s.blk.setLastReady (if st = .ready then some l else if s.blk.lastReady = some l then none else s.blk.lastReady)) b l
        { s.blk.line l with
          status := st
          prevStatus := (s.blk.line l).status
          digits := if st = .idle then [] else (s.blk.line l).digits
          incomingFrom := if st = .idle then none else (s.blk.line l).incomingFrom
          outgoingTo := if st = .idle then none else (s.blk.line l).outgoingTo
          tArmed := if st = .idle then false else (s.blk.line l).tArmed
          expired := if st = .idle then false else (s.blk.line l).expired
          rPhase := if st = .idle then (s.blk.line l).rPhase else .idle
          fr := if st ≠ .idle ∧ (s.blk.line l).rPhase ≠ .idle then false else (s.blk.line l).fr
          rm := if st ≠ .idle ∧ (s.blk.line l).rPhase ≠ .idle then false else (s.blk.line l).rm
          change := true }) ∧
    (∀ la sv : BitVec 4, Encoded (.lrSetStatus la sv) 0x20000000 0xFC3C3FFF ∧
      (8 ≤ la.toNat → Rejects (.lrSetStatus la sv) s 3) ∧
      (la.toNat < 8 → 14 ≤ sv.toNat → Rejects (.lrSetStatus la sv) s 5))

/-- R163, R164 and R165: LR_SET_TIMER arms, LR_RESET_TIMER cancels. -/
def Obligations.TimersAreArmedAndCancelled : Prop :=
  ∀ s : State,
    (∀ l : Line, ∃ b, Performs (.lrSetTimer (lineCode l)) s b 0 [] ∧
      OnlyLine s.blk b l { s.blk.line l with tArmed := true, tStart := s.now, tDur := s.data, expired := false }) ∧
    (∀ l : Line, ∃ b, Performs (.lrResetTimer (lineCode l)) s b 0 [] ∧
      OnlyLine s.blk b l { s.blk.line l with tArmed := false, expired := false }) ∧
    (∀ la : BitVec 4, Encoded (.lrSetTimer la) 0x24000000 0xFC3FFFFF ∧ Encoded (.lrResetTimer la) 0x28000000 0xFC3FFFFF ∧
      (8 ≤ la.toNat → Rejects (.lrSetTimer la) s 3 ∧ Rejects (.lrResetTimer la) s 3))

/-- R167 and R168: the takes answer the bits and clear exactly them. -/
def Obligations.TakesReadAndClear : Prop :=
  ∀ s : State, Encoded .lrTakeChanges 0x2C000000 0xFFFFFFFF ∧ Encoded .lrTakeExpired 0x30000000 0xFFFFFFFF ∧
    (∃ v b, Performs .lrTakeChanges s b v [] ∧ IsLineBits v (fun l => (s.blk.line l).change) ∧ SharedSame s.blk b ∧
      ∀ l, b.line l = { s.blk.line l with change := false }) ∧
    (∃ v b, Performs .lrTakeExpired s b v [] ∧ IsLineBits v (fun l => (s.blk.line l).expired) ∧ SharedSame s.blk b ∧
      ∀ l, b.line l = { s.blk.line l with expired := false })

/-- R169: LR_SET_PEER writes one peer field. -/
def Obligations.SetPeerWritesOnePointer : Prop :=
  ∀ s : State,
    (∀ (l : Line) (peer : Option Line), peer ≠ some l →
      (∃ b, Performs (.lrSetPeer (lineCode l) (optLineCode peer) 0) s b 0 [] ∧
        OnlyLine s.blk b l { s.blk.line l with incomingFrom := peer }) ∧
      (∃ b, Performs (.lrSetPeer (lineCode l) (optLineCode peer) 1) s b 0 [] ∧
        OnlyLine s.blk b l { s.blk.line l with outgoingTo := peer })) ∧
    (∀ la lb sv : BitVec 4, Encoded (.lrSetPeer la lb sv) 0x34000000 0xFC003FFF ∧
      (8 ≤ la.toNat → Rejects (.lrSetPeer la lb sv) s 3) ∧
      (la.toNat < 8 → 8 ≤ lb.toNat → lb.toNat ≤ 14 → Rejects (.lrSetPeer la lb sv) s 3) ∧
      (la.toNat < 8 → lb = la → Rejects (.lrSetPeer la lb sv) s 4) ∧
      (la.toNat < 8 → (lb.toNat < 8 ∨ lb = 0xF) → lb ≠ la → 2 ≤ sv.toNat → Rejects (.lrSetPeer la lb sv) s 5))

/-- R171: LR_READ_DIGIT answers the character at index DATA, or ERR_RANGE, and changes nothing. -/
def Obligations.ReadDigitAnswersTheCharacter : Prop :=
  ∀ s : State,
    (∀ (l : Line) (h : s.data.toNat < (s.blk.line l).digits.length),
      Performs (.lrReadDigit (lineCode l)) s s.blk (((s.blk.line l).digits[s.data.toNat]'h).setWidth 32) []) ∧
    (∀ l : Line, (s.blk.line l).digits.length ≤ s.data.toNat → Rejects (.lrReadDigit (lineCode l)) s 8) ∧
    (∀ la : BitVec 4, Encoded (.lrReadDigit la) 0x38000000 0xFC3FFFFF ∧ (8 ≤ la.toNat → Rejects (.lrReadDigit la) s 3))

/-- R172 and R55: LR_READ_LINE answers the line word and changes nothing. The digit count is the length for a buffer within
DIGITS_MAX under the constraints of R8. -/
def Obligations.ReadLineAnswersTheLineWord : Prop :=
  ∀ s : State,
    (∀ l : Line, ∃ v, Performs (.lrReadLine (lineCode l)) s s.blk v [] ∧
      v.extractLsb' 0 4 = (s.blk.line l).status.code ∧ v.extractLsb' 4 4 = (s.blk.line l).prevStatus.code ∧
      v.extractLsb' 8 2 = (s.blk.line l).hook.code ∧ v.extractLsb' 10 2 = (s.blk.line l).prevHook.code ∧
      v.getLsbD 12 = s.blk.cfg.activeMask.getLsbD l.val ∧ v.getLsbD 13 = (s.blk.line l).tArmed ∧
      v.getLsbD 14 = (s.blk.line l).change ∧ v.getLsbD 15 = (s.blk.line l).expired ∧
      (s.params.wf → (s.blk.line l).digits.length ≤ s.params.digitsMax →
        (v.extractLsb' 16 6).toNat = (s.blk.line l).digits.length) ∧
      v.extractLsb' 22 2 = (s.blk.line l).rPhase.code ∧
      (v.extractLsb' 24 4).toNat = optLineNat (s.blk.line l).incomingFrom ∧
      (v.extractLsb' 28 4).toNat = optLineNat (s.blk.line l).outgoingTo) ∧
    (∀ la : BitVec 4, Encoded (.lrReadLine la) 0x3C000000 0xFC3FFFFF ∧ (8 ≤ la.toNat → Rejects (.lrReadLine la) s 3))

/-! The tone decoder. -/

/-- R223 and R224: TD_ACTIVATE and TD_DEACTIVATE. -/
def Obligations.SwitchingTheToneDecoder : Prop :=
  ∀ s : State, Encoded .tdActivate 0x40000000 0xFFFFFFFF ∧ Encoded .tdDeactivate 0x44000000 0xFFFFFFFF ∧
    Performs .tdActivate s (s.blk.setTone { s.blk.tone with active := true, pending := false, high := false }) 0 [] ∧
    Performs .tdDeactivate s (s.blk.setTone { s.blk.tone with active := false, pending := false, high := false }) 0 []

/-- R225 to R228: step 3 of a CYCLE takes one strobe event, moves the strobe machine by it, and reads the nibble once the strobe has
been high for DTMF_STABLE_MS. The read is handed to acceptNibble, of which NibbleIsCheckedMappedAndAppended says what it does. -/
def Obligations.ToneStepTakesOneStrobeEvent : Prop :=
  ∀ (p : Params) (now : Word) (q : BitVec 4) (w : Work),
    let w1 := w.onBlk fun b => b.setEvq (b.evq.eraseP (ofStrobe b.cfg))
    let t := w.blk.tone
    let ev := w.blk.evq.find? (ofStrobe w.blk.cfg)
    (t.active = false → toneStep p now q w = w1) ∧
    (t.active = true → ev = none →
      (t.pending = true → Reached now t.rise w.blk.cfg.dtmfStableMs →
        toneStep p now q w = acceptNibble p now q (w1.onBlk fun b => b.setTone { t with pending := false })) ∧
      (¬ (t.pending = true ∧ Reached now t.rise w.blk.cfg.dtmfStableMs) → toneStep p now q w = w1)) ∧
    (t.active = true → ∀ e, ev = some e → e.lvl = true →
      (w.blk.cfg.dtmfStableMs ≠ 0 →
        toneStep p now q w = w1.onBlk fun b => b.setTone { t with pending := true, high := true, rise := now }) ∧
      (w.blk.cfg.dtmfStableMs = 0 →
        toneStep p now q w =
          acceptNibble p now q (w1.onBlk fun b => b.setTone { t with pending := false, high := true, rise := now }))) ∧
    (t.active = true → ∀ e, ev = some e → e.lvl = false →
      let w2 := w1.onBlk fun b => b.setTone { t with pending := false, high := false }
      (t.high = false → toneStep p now q w = w2) ∧
      (t.high = true → t.pending = true → (now - t.rise).toNat < w.blk.cfg.dtmfMinToneMs.toNat →
        toneStep p now q w = w2.emit (.log .dtmfAbort (BitVec.ofNat 16 (min (now - t.rise).toNat 0xFFFF)) 0)) ∧
      (t.high = true → ¬ (t.pending = true ∧ (now - t.rise).toNat < w.blk.cfg.dtmfMinToneMs.toNat) →
        (activeLine w.blk = none → toneStep p now q w = w2) ∧
        ∀ l, activeLine w.blk = some l →
          toneStep p now q w = w2.modifyLine l fun L =>
            { L with tArmed := true, tStart := now, tDur := w.blk.cfg.dtmfDoneMs, expired := false }))

/-- R222: the active line. -/
def Obligations.ActiveLineIsLastReadyOrStillToneDialing : Prop :=
  ∀ b : Block,
    (∀ l, b.lastReady = some l → activeLine b = some l) ∧
    (b.lastReady = none → ∀ l, b.tone.line = some l → (b.line l).status = .toneDialing → activeLine b = some l) ∧
    (b.lastReady = none → (∀ l, b.tone.line = some l → (b.line l).status ≠ .toneDialing) → activeLine b = none)

/-- R229, R230 with R170: the nibble that is read is checked for noise and repetition, mapped, and appended to the active line. -/
def Obligations.NibbleIsCheckedMappedAndAppended : Prop :=
  ∀ (p : Params) (now : Word) (n : BitVec 4) (w : Work),
    let t := w.blk.tone
    let repeated := t.lastNib = some n ∧ (now - t.lastNibT).toNat < w.blk.cfg.dtmfDebounceMs.toNat
    let w1 := w.onBlk fun b => b.setTone { t with lastNib := some n, lastNibT := now }
    (n = 0 → acceptNibble p now n w = w.emit (.log .dtmfSpurious 0 0)) ∧
    (n ≠ 0 → repeated → acceptNibble p now n w = w.emit (.log .dtmfDuplicate (n.setWidth 16) 0)) ∧
    (n ≠ 0 → ¬ repeated → activeLine w.blk = none →
      acceptNibble p now n w = w1.emit (.log .dtmfReject (n.setWidth 16) 0xF)) ∧
    (n ≠ 0 → ¬ repeated → ∀ l, activeLine w.blk = some l →
      let L := w.blk.line l
      let L1 := { L with digits := if L.digits.length < p.digitsMax then L.digits ++ [p.dtmfMap[n.toNat]] else L.digits }
      (L.status ≠ .ready → L.status ≠ .toneDialing →
        acceptNibble p now n w = w1.emit (.log .dtmfReject (n.setWidth 16) (BitVec.ofNat 16 l.val))) ∧
      (L.status = .ready ∨ L.status = .toneDialing →
        (acceptNibble p now n w).out = w.out ++
          (if L.digits.length < p.digitsMax then []
            else [.log .digitOverflow (BitVec.ofNat 16 l.val) ((p.dtmfMap[n.toNat]).setWidth 16)]) ++
          (if L.status = .ready ∧ w.blk.cfg.notifyEn = true then [.notify l .toneDialing] else []) ∧
        OnlyLine
          ((w.blk.setTone { t with lastNib := some n, lastNibT := now, line := some l }).setLastReady
            (if L.status = .ready then withoutReady l w.blk.lastReady else w.blk.lastReady))
          (acceptNibble p now n w).blk l (if L.status = .ready then movedTo .toneDialing L1 else L1)))

/-! The ring cadence. -/

/-- R252: RG_START begins a Toggling phase, or is refused with ERR_STATE. -/
def Obligations.RingStartBeginsToggling : Prop :=
  ∀ s : State,
    (∀ l : Line, (s.blk.line l).status = .idle → (s.blk.line l).rPhase = .idle → s.blk.cfg.ringIterations ≠ 0 →
      ∃ b, Performs (.rgStart (lineCode l)) s b 0 [] ∧
        OnlyLine s.blk b l
          { s.blk.line l with rPhase := .toggling, rIter := 0, rT0 := s.now, rTT := s.now, rm := true, fr := true }) ∧
    (∀ l : Line, (s.blk.line l).status ≠ .idle ∨ (s.blk.line l).rPhase ≠ .idle ∨ s.blk.cfg.ringIterations = 0 →
      Rejects (.rgStart (lineCode l)) s 7) ∧
    (∀ la : BitVec 4, Encoded (.rgStart la) 0x50000000 0xFC3FFFFF ∧ (8 ≤ la.toNat → Rejects (.rgStart la) s 3))

/-- R251, R253 and R254: RG_STOP and RG_STOP_ALL force the cadence to Idle with both pins low, and leave an idle one as it is. -/
def Obligations.RingStopsZeroThePins : Prop :=
  ∀ s : State,
    let stopped := fun L : LineRec => if L.rPhase = .idle then L else { L with rPhase := .idle, fr := false, rm := false }
    (∀ l : Line, ∃ b, Performs (.rgStop (lineCode l)) s b 0 [] ∧ OnlyLine s.blk b l (stopped (s.blk.line l))) ∧
    (∃ b, Performs .rgStopAll s b 0 [] ∧ SharedSame s.blk b ∧ ∀ l, b.line l = stopped (s.blk.line l)) ∧
    Encoded .rgStopAll 0x58000000 0xFFFFFFFF ∧
    (∀ la : BitVec 4, Encoded (.rgStop la) 0x54000000 0xFC3FFFFF ∧ (8 ≤ la.toNat → Rejects (.rgStop la) s 3))

/-- R255, R256 and R257: step 4 of a CYCLE, for every line on its own, whatever state the block is in. -/
def Obligations.RingStepAdvancesEachLineAlone : Prop :=
  ∀ (p : Params) (now : Word) (w : Work),
    (ringStep p now w).out = w.out ∧ SharedSame w.blk (ringStep p now w).blk ∧
    ∀ l : Line,
      let L := w.blk.line l
      let L' := (ringStep p now w).blk.line l
      L' = { L with rPhase := L'.rPhase, rIter := L'.rIter, rT0 := L'.rT0, rTT := L'.rTT, fr := L'.fr, rm := L'.rm } ∧
      (L.rPhase = .idle → L' = L) ∧
      (L.rPhase ≠ .idle → L.status ≠ .idle → L'.ring = (.idle, L.rIter, L.rT0, L.rTT, false, false)) ∧
      (L.rPhase ≠ .idle → L.status = .idle → RingAdvance p w.blk.cfg now L L')

/-- R250 and R258: in a state that meets the invariants, a CYCLE advances a ringing line's cadence by one update and leaves an idle
one alone, whatever the hook, pulse, tone and timer units do in it. -/
def Obligations.CycleAdvancesTheCadence : Prop :=
  ∀ s : State, Inv s → ∃ s', exec .cycle s = .next s' ∧ ∀ l : Line,
    ((s.blk.line l).rPhase = .idle → (s'.blk.line l).ring = (s.blk.line l).ring) ∧
    ((s.blk.line l).rPhase ≠ .idle → RingAdvance s.params s.blk.cfg s.now (s.blk.line l) (s'.blk.line l))

/-! The crossbar. -/

/-- R271 with R270: XB_SET writes both entries of the pair. -/
def Obligations.XbSetWritesBothEntries : Prop :=
  ∀ s : State,
    (∀ (x y : Line) (c : ConnState), x ≠ y → ∃ b,
      Performs (.xbSet (lineCode x) (lineCode y) (c.code.setWidth 4)) s b 0 [] ∧ OnlyMatrix s.blk b ∧
      b.conn x y = c ∧ b.conn y x = c ∧
      ∀ u v, ¬ (u = x ∧ v = y) → ¬ (u = y ∧ v = x) → b.conn u v = s.blk.conn u v) ∧
    (∀ la lb sv : BitVec 4, Encoded (.xbSet la lb sv) 0x60000000 0xFC003FFF ∧
      (8 ≤ la.toNat ∨ 8 ≤ lb.toNat → Rejects (.xbSet la lb sv) s 3) ∧
      (la.toNat < 8 → la = lb → Rejects (.xbSet la lb sv) s 4) ∧
      (la.toNat < 8 → lb.toNat < 8 → la ≠ lb → 4 ≤ sv.toNat → Rejects (.xbSet la lb sv) s 5))

/-- R272 and R273 with R270: XB_GET answers the pair's state, XB_ARE_CONNECTED whether it is Established. -/
def Obligations.XbPairQueries : Prop :=
  ∀ s : State,
    (∀ x y : Line, x ≠ y →
      Performs (.xbGet (lineCode x) (lineCode y)) s s.blk ((s.blk.conn x y).code.setWidth 32) [] ∧
      Performs (.xbAreConnected (lineCode x) (lineCode y)) s s.blk (if s.blk.conn x y = .established then 1 else 0) []) ∧
    (∀ la lb : BitVec 4, Encoded (.xbGet la lb) 0x64000000 0xFC03FFFF ∧ Encoded (.xbAreConnected la lb) 0x68000000 0xFC03FFFF ∧
      (8 ≤ la.toNat ∨ 8 ≤ lb.toNat → Rejects (.xbGet la lb) s 3 ∧ Rejects (.xbAreConnected la lb) s 3) ∧
      (la.toNat < 8 → la = lb → Rejects (.xbGet la lb) s 4 ∧ Rejects (.xbAreConnected la lb) s 4))

/-- R274 and R275: XB_GET_CONNECTED answers the least line, XB_GET_ALL every line, other than LA and connected to it at or above the
state SV. -/
def Obligations.XbConnectedQueries : Prop :=
  ∀ s : State,
    (∀ (x : Line) (c : ConnState),
      let hit := fun y : Line => y ≠ x ∧ c.code.toNat ≤ (s.blk.conn x y).code.toNat
      (∀ y, hit y → (∀ z, z < y → ¬ hit z) →
        Performs (.xbGetConnected (lineCode x) (c.code.setWidth 4)) s s.blk (BitVec.ofNat 32 y.val) []) ∧
      ((∀ y, ¬ hit y) → Performs (.xbGetConnected (lineCode x) (c.code.setWidth 4)) s s.blk 0xF []) ∧
      (∃ v, Performs (.xbGetAll (lineCode x) (c.code.setWidth 4)) s s.blk v [] ∧
        (∀ y : Line, v.getLsbD y.val = true ↔ hit y) ∧ v.extractLsb' 8 24 = 0)) ∧
    (∀ la sv : BitVec 4, Encoded (.xbGetConnected la sv) 0x6C000000 0xFC3C3FFF ∧ Encoded (.xbGetAll la sv) 0x70000000 0xFC3C3FFF ∧
      (8 ≤ la.toNat → Rejects (.xbGetConnected la sv) s 3 ∧ Rejects (.xbGetAll la sv) s 3) ∧
      (la.toNat < 8 → 4 ≤ sv.toNat → Rejects (.xbGetConnected la sv) s 5 ∧ Rejects (.xbGetAll la sv) s 5))

/-- R276: XB_DISCONNECT clears the line's row and column and nothing else. -/
def Obligations.XbDisconnectClearsRowAndColumn : Prop :=
  ∀ s : State,
    (∀ x : Line, ∃ b, Performs (.xbDisconnect (lineCode x)) s b 0 [] ∧ OnlyMatrix s.blk b ∧
      (∀ y, b.conn x y = .none ∧ b.conn y x = .none) ∧
      ∀ u v, u ≠ x → v ≠ x → b.conn u v = s.blk.conn u v) ∧
    (∀ la : BitVec 4, Encoded (.xbDisconnect la) 0x74000000 0xFC3FFFFF ∧ (8 ≤ la.toNat → Rejects (.xbDisconnect la) s 3))

/-! The system commands. -/

/-- R290 and R85: NOP does nothing; the seven reading commands change no state of the block, and repeating one gives the same
answer. -/
def Obligations.NopAndReadsChangeNothing : Prop :=
  ∀ s : State, Encoded .nop 0x00000000 0xFFFFFFFF ∧ Performs .nop s s.blk 0 [] ∧
    ∀ (i : Instr), i = .nop ∨ (∃ n, i = .regRead n) ∨ (∃ a b, i = .xbGet a b) ∨ (∃ a b, i = .xbAreConnected a b) ∨
        (∃ a c, i = .xbGetConnected a c) ∨ (∃ a c, i = .xbGetAll a c) ∨ (∃ a, i = .lrReadLine a) ∨ (∃ a, i = .lrReadDigit a) →
      ∃ r, exec i s = .next { s with resp := r } ∧ exec i { s with resp := r } = .next { s with resp := r }

/-- R292 and R57: REG_WRITE of an RW register stores DATA masked to its fields and answers the value stored; every other register
reads as before, and nothing but the configuration changes (R293). -/
def Obligations.RegWriteStoresTheMaskedValue : Prop :=
  ∀ (s : State) (n : BitVec 8), Encoded (.regWrite n) 0x84000000 0xFC03FFFF ∧
    (isRW n → ∃ c : Cfg,
      Performs (.regWrite n) s (s.blk.setCfg c) (s.data &&& regMask n) [] ∧
      Reads { s with blk := s.blk.setCfg c } n (· = s.data &&& regMask n) ∧
      ∀ (m : BitVec 8) (v : Word), m ≠ n → Reads s m (· = v) → Reads { s with blk := s.blk.setCfg c } m (· = v))

/-- R50, R51 and R52: which field of the configuration each RW register number reads. -/
def Obligations.ConfigurationRegistersRead : Prop :=
  ∀ s : State, let c := s.blk.cfg
    Reads s 0x00 (· = c.activeMask.setWidth 32) ∧ Reads s 0x01 (· = c.hookStableMs) ∧
    Reads s 0x02 (· = c.hookStableConsec.setWidth 32) ∧ Reads s 0x03 (· = c.pulseGlitchMs) ∧
    Reads s 0x04 (· = c.pulseDebounceMs) ∧ Reads s 0x05 (· = c.pulseLowMaxMs) ∧ Reads s 0x06 (· = c.digitGapMinMs) ∧
    Reads s 0x07 (· = c.pulseTimeoutMs) ∧ Reads s 0x08 (· = c.dtmfStableMs) ∧ Reads s 0x09 (· = c.dtmfMinToneMs) ∧
    Reads s 0x0A (· = c.dtmfDebounceMs) ∧ Reads s 0x0B (· = c.dtmfDoneMs) ∧ Reads s 0x0C (· = c.ringLengthMs) ∧
    Reads s 0x0D (· = c.ringPauseMs) ∧ Reads s 0x0E (· = c.ringIterations.setWidth 32) ∧
    Reads s 0x0F (fun v => v.extractLsb' 0 7 = c.strobeAddr ∧ v.extractLsb' 8 4 = c.strobePin ∧ v &&& 0xF7F = v) ∧
    Reads s 0x10 (fun v => v.getLsbD 0 = c.notifyEn ∧ v &&& 0x1 = v) ∧
    ∀ l : Line, Reads s (BitVec.ofNat 8 (0x18 + l.val)) fun v =>
      v.extractLsb' 0 7 = c.pinMap[l].addr ∧ v.extractLsb' 8 4 = c.pinMap[l].hookPin ∧
      v.extractLsb' 12 4 = c.pinMap[l].frPin ∧ v.extractLsb' 16 4 = c.pinMap[l].rmPin ∧ v &&& 0xFFF7F = v

/-- R53, R54 and R324: what each RO register shows, and that a read changes nothing. -/
def Obligations.StatusRegistersRead : Prop :=
  ∀ s : State, (∀ n : BitVec 8, Encoded (.regRead n) 0x80000000 0xFC03FFFF) ∧
    Reads s 0x20 (· = s.params.ringHalfMs) ∧ Reads s 0x21 (fun v => v.toNat = optLineNat s.blk.lastReady) ∧
    Reads s 0x22 (IsLineBits · fun l => decide ((s.blk.line l).status ≠ .idle)) ∧
    Reads s 0x23 (IsLineBits · fun l => (s.blk.line l).change) ∧
    Reads s 0x24 (IsLineBits · fun l => (s.blk.line l).expired) ∧
    Reads s 0x25 (IsLineBits · fun l => (s.blk.line l).tArmed) ∧
    Reads s 0x26 (fun v => (∀ l : Line, v.extractLsb' (2 * l.val) 2 = (s.blk.line l).hook.code) ∧ v.extractLsb' 16 16 = 0) ∧
    Reads s 0x27 (fun v => (∀ l : Line, v.getLsbD l.val = (s.blk.line l).fr ∧ v.getLsbD (8 + l.val) = (s.blk.line l).rm) ∧
      v.extractLsb' 16 16 = 0 ∧ v.extractLsb' 0 8 = ringFR s.blk ∧ v.extractLsb' 8 8 = ringRM s.blk) ∧
    Reads s 0x28 (fun v => s.params.wf → s.blk.evq.length ≤ s.params.evqCap → v.toNat = s.blk.evq.length) ∧
    Reads s 0x29 (· = s.blk.evqDrops) ∧
    Reads s 0x2A (fun v => v.getLsbD 0 = s.blk.tone.active ∧ v.getLsbD 0 = dtmfPwr s.blk ∧
      v.getLsbD 1 = s.blk.tone.pending ∧ v.getLsbD 2 = s.blk.tone.high ∧ v.getLsbD 3 = s.blk.tone.lastNib.isSome ∧
      v.extractLsb' 4 4 = s.blk.tone.lastNib.getD 0 ∧ (v.extractLsb' 8 4).toNat = optLineNat s.blk.tone.line ∧
      v.extractLsb' 12 20 = 0) ∧
    Reads s 0x2B (fun v => (v.extractLsb' 0 8).toNat = 8 ∧
      (s.params.wf → (v.extractLsb' 8 8).toNat = s.params.digitsMax ∧ (v.extractLsb' 16 16).toNat = s.params.evqCap)) ∧
    ∀ l : Line,
      Reads s (BitVec.ofNat 8 (0x30 + l.val))
        (· = if (s.blk.line l).tArmed then (s.blk.line l).tStart + (s.blk.line l).tDur else 0) ∧
      Reads s (BitVec.ofNat 8 (0x38 + l.val)) (fun v =>
        v.extractLsb' 0 2 = (s.blk.line l).rPhase.code ∧ v.getLsbD 2 = (s.blk.line l).fr ∧
        v.getLsbD 3 = (s.blk.line l).rm ∧ v.extractLsb' 4 4 = 0 ∧ v.extractLsb' 8 8 = (s.blk.line l).rIter ∧
        v.extractLsb' 16 16 = 0) ∧
      Reads s (BitVec.ofNat 8 (0x40 + l.val)) (· = (s.blk.line l).rT0) ∧
      Reads s (BitVec.ofNat 8 (0x48 + l.val)) (· = (s.blk.line l).rTT)

/-- R58: unassigned registers are neither read nor written, and read-only registers are not written; every other number reads. -/
def Obligations.UnassignedAndReadOnlyRegisters : Prop :=
  ∀ (s : State) (n : BitVec 8),
    (isUnassigned n → Rejects (.regRead n) s 6 ∧ Rejects (.regWrite n) s 6) ∧
    (isRO n → Rejects (.regWrite n) s 6) ∧
    (¬ isUnassigned n → Reads s n fun _ => True)

/-! CYCLE. -/

/-- R296: a CYCLE performs the five steps in their order, all with the same NOW, SHK = DATA[7:0] and Q = DATA[11:8] (R295), answers
0 and emits the steps' records in that order. -/
def Obligations.CyclePerformsTheFiveSteps : Prop :=
  ∀ s : State, Encoded .cycle 0xFC000000 0xFFFFFFFF ∧
    let step2 := hookPulseStep s.params s.now (s.data.extractLsb' 0 8) (drainStep { blk := s.blk, out := [] })
    let step3 := toneStep s.params s.now (s.data.extractLsb' 8 4) step2
    let step5 := timerStep s.now (ringStep s.params s.now step3)
    Performs .cycle s step5.blk 0 step5.out

/-- R296: a CYCLE changes neither the configuration, nor the matrix, nor the drop counter, nor the peers; the last-ready pointer is
kept or cleared. -/
def Obligations.CycleLeavesTheRestAlone : Prop :=
  ∀ s : State, ∃ s', exec .cycle s = .next s' ∧ s'.resp.code = 0 ∧ s'.resp.val = 0 ∧
    s' = { s with blk := s'.blk, resp := s'.resp } ∧
    s'.blk.cfg = s.blk.cfg ∧ s'.blk.xb = s.blk.xb ∧ s'.blk.evqDrops = s.blk.evqDrops ∧
    (s'.blk.lastReady = s.blk.lastReady ∨ s'.blk.lastReady = none) ∧
    ∀ l : Line, (s'.blk.line l).incomingFrom = (s.blk.line l).incomingFrom ∧
      (s'.blk.line l).outgoingTo = (s.blk.line l).outgoingTo

/-- R191: what a CYCLE does to the hook filter of an active line; SHK bit l is the raw level. -/
def Obligations.CycleRunsTheHookFilter : Prop :=
  ∀ (s : State) (l : Line), s.blk.cfg.activeMask.getLsbD l.val = true → ∃ s', exec .cycle s = .next s' ∧
    let L := s.blk.line l
    let L' := s'.blk.line l
    let r := s.data.getLsbD l.val
    let nh := if r then HookState.off else HookState.on
    let accepted := nh ≠ L.hook ∧ Reached s.now L'.hSince s.blk.cfg.hookStableMs ∧
      s.blk.cfg.hookStableConsec.toNat ≤ L'.hCount.toNat
    L'.hCand = some r ∧
    (L.hCand = some r → L'.hSince = L.hSince ∧ L'.hCount.toNat = min (L.hCount.toNat + 1) 65535) ∧
    (L.hCand ≠ some r → L'.hSince = s.now ∧ L'.hCount = 1) ∧
    (accepted → L'.hook = nh ∧ L'.prevHook = L.hook ∧ (nh = .on → L'.pPhase = .idle ∧ L'.pCount = 0)) ∧
    (¬ accepted → L'.hook = L.hook ∧ L'.prevHook = L.prevHook)

/-- R192: what a CYCLE does to the glitch filter of an active line, and the edge it yields. -/
def Obligations.CycleRunsTheGlitchFilter : Prop :=
  ∀ (s : State) (l : Line), s.blk.cfg.activeMask.getLsbD l.val = true → ∃ s', exec .cycle s = .next s' ∧
    let L := s.blk.line l
    let L' := s'.blk.line l
    let r := s.data.getLsbD l.val
    let edge := (filterLine s.blk.cfg s.now r L).2
    let accepted := L.gLevel ≠ some r ∧ Reached s.now L'.gSince s.blk.cfg.pulseGlitchMs
    L'.gCand = some r ∧ (L.gCand = some r → L'.gSince = L.gSince) ∧ (L.gCand ≠ some r → L'.gSince = s.now) ∧
    (accepted → L'.gLevel = some r) ∧ (¬ accepted → L'.gLevel = L.gLevel) ∧
    (accepted → L.gLevel = some true → edge = some (.falling L'.gSince)) ∧
    (accepted → L.gLevel = some false → edge = some (.rising L'.gSince)) ∧
    (¬ accepted ∨ L.gLevel = none → edge = none)

/-- R190: a CYCLE ignores the SHK bit of an inactive line and leaves its filters, its detector and its hook state as they are; its
digits too while the tone decoder is off. -/
def Obligations.InactiveLineIsFrozen : Prop :=
  ∀ (s : State) (l : Line), s.blk.cfg.activeMask.getLsbD l.val = false → ∃ s', exec .cycle s = .next s' ∧
    (let L := s.blk.line l
     let L' := s'.blk.line l
     L'.hook = L.hook ∧ L'.prevHook = L.prevHook ∧ L'.hCand = L.hCand ∧ L'.hSince = L.hSince ∧ L'.hCount = L.hCount ∧
     L'.gCand = L.gCand ∧ L'.gSince = L.gSince ∧ L'.gLevel = L.gLevel ∧
     L'.pPhase = L.pPhase ∧ L'.pCount = L.pCount ∧ L'.pEdge = L.pEdge ∧
     (s.blk.tone.active = false → L'.digits = L.digits)) ∧
    ∀ d : Word, (∀ i, i < 32 → i ≠ l.val → d.getLsbD i = s.data.getLsbD i) →
      exec .cycle { s with data := d } = .next { s' with data := d }

/-- R193: the gate of the pulse detector, read after the hook filter: closed, the detector is held at Idle; open, the CYCLE leaves
the detector as the edge step and then the gap and timeout check leave it. R190: step 2, for every state of the block, does to each
line what those do to that line alone (detectorAlone): its whole record, its records in the trace in the order of the lines, and the
last-ready pointer where it names that line; nothing else changes. R191, R192: the filters write their own fields, the hook states,
and on going on-hook the detector's. -/
def Obligations.CycleRunsThePulseDetector : Prop :=
  (∀ (s : State) (l : Line), s.blk.cfg.activeMask.getLsbD l.val = true → ∃ s', exec .cycle s = .next s' ∧
    let f := filterLine s.blk.cfg s.now (s.data.getLsbD l.val) (s.blk.line l)
    let opened := (s'.blk.line l).hook = .off ∧ ((s.blk.line l).status = .ready ∨ (s.blk.line l).status = .pulseDialing)
    let d := ((gapAndTimeout s.params s.now l (edgeStep l f.2 { blk := s.blk.setLine l f.1, out := [] })).blk.line l)
    (¬ opened → (s'.blk.line l).pPhase = .idle ∧ (s'.blk.line l).pCount = 0) ∧
    (opened → (s'.blk.line l).pPhase = d.pPhase ∧ (s'.blk.line l).pCount = d.pCount ∧ (s'.blk.line l).pEdge = d.pEdge)) ∧
  (∀ (p : Params) (now : Word) (shk : BitVec 8) (w : Work),
    let w' := hookPulseStep p now shk w
    let alone := detectorAlone p now shk w.blk
    w'.out = w.out ++ (allLines.map fun l => (alone l).out).flatten ∧
    (∀ l, w'.blk.line l = (alone l).blk.line l) ∧
    w'.blk.lastReady = (match w.blk.lastReady with | none => none | some l => (alone l).blk.lastReady) ∧
    w'.blk.xb = w.blk.xb ∧ w'.blk.evq = w.blk.evq ∧ w'.blk.evqDrops = w.blk.evqDrops ∧ w'.blk.tone = w.blk.tone ∧
    w'.blk.cfg = w.blk.cfg) ∧
  ∀ (c : Cfg) (now : Word) (r : Bool) (L : LineRec),
    let F := (filterLine c now r L).1
    let hungUp := F.hook = .on ∧ L.hook ≠ .on
    F = { L with
      hook := F.hook, prevHook := F.prevHook, hCand := F.hCand, hSince := F.hSince, hCount := F.hCount
      gCand := F.gCand, gSince := F.gSince, gLevel := F.gLevel
      pPhase := if hungUp then .idle else L.pPhase
      pCount := if hungUp then 0 else L.pCount }

/-- R194: the edge step. -/
def Obligations.EdgeStepFollowsItsTable : Prop :=
  ∀ (l : Line) (w : Work), let L := w.blk.line l
    edgeStep l none w = w ∧
    (∀ t, L.pPhase ≠ .inPulse →
      edgeStep l (some (.falling t)) w = w.modifyLine l (fun L => { L with pPhase := .inPulse, pEdge := t }) ∧
      edgeStep l (some (.rising t)) w = w) ∧
    (∀ t, L.pPhase = .inPulse → edgeStep l (some (.falling t)) w = w ∧
      let d := (t - L.pEdge).toNat
      let good := w.blk.cfg.pulseDebounceMs.toNat ≤ d ∧ d ≤ w.blk.cfg.pulseLowMaxMs.toNat
      (good → edgeStep l (some (.rising t)) w = w.modifyLine l fun L =>
        { L with pCount := BitVec.ofNat 4 (L.pCount.toNat % 10 + 1), pPhase := .betweenPulses, pEdge := t }) ∧
      (¬ good → edgeStep l (some (.rising t)) w =
        (w.modifyLine l fun L => { L with pPhase := .idle, pCount := 0 }).emit
          (.log .pulseAbort (BitVec.ofNat 16 l.val) (BitVec.ofNat 16 (min d 0xFFFF)))))

/-- R195, R196 and R197 with R170: the gap emits the digit and moves a Ready line to PulseDialing; otherwise the timeout, which is
strict, resets the detector. The character codes are those the spec takes from general knowledge (R197; entry 14). -/
def Obligations.GapEmitsTheDigitAndTimeoutResets : Prop :=
  ∀ (p : Params) (now : Word) (l : Line) (w : Work),
    let L := w.blk.line l
    let gap := L.pPhase = .betweenPulses ∧ Reached now L.pEdge w.blk.cfg.digitGapMinMs
    let late := L.pPhase ≠ .idle ∧ w.blk.cfg.pulseTimeoutMs.toNat < (now - L.pEdge).toNat
    let w' := gapAndTimeout p now l w
    (gap → 1 ≤ L.pCount.toNat → L.pCount.toNat ≤ 10 → ∃ ch : Byte, ch.toNat = 0x30 + L.pCount.toNat % 10 ∧
      let L1 := { L with pPhase := .idle, pCount := 0,
                         digits := if L.digits.length < p.digitsMax then L.digits ++ [ch] else L.digits }
      w'.out = w.out ++
        (if L.digits.length < p.digitsMax then [] else [.log .digitOverflow (BitVec.ofNat 16 l.val) (ch.setWidth 16)]) ++
        (if L.status = .ready ∧ w.blk.cfg.notifyEn = true then [.notify l .pulseDialing] else []) ∧
      OnlyLine (w.blk.setLastReady (if L.status = .ready then withoutReady l w.blk.lastReady else w.blk.lastReady)) w'.blk l
        (if L.status = .ready then movedTo .pulseDialing L1 else L1)) ∧
    (¬ gap → late →
      w' = (w.modifyLine l fun L => { L with pPhase := .idle, pCount := 0 }).emit
        (.log .pulseTimeout (BitVec.ofNat 16 l.val) (L.pPhase.code.setWidth 16))) ∧
    (¬ gap → ¬ late → w' = w)

/-- R195: N low pulses within the bounds, from an idle detector, are counted as ((N - 1) mod 10) + 1 in BetweenPulses, and nothing
else changes and nothing is logged (R194, R197). -/
def Obligations.PulseTrainIsCounted : Prop :=
  ∀ (l : Line) (w : Work) (pulses : List (Word × Word)) (fall rise : Word),
    (w.blk.line l).pPhase = .idle → (w.blk.line l).pCount = 0 →
    (∀ q ∈ pulses ++ [(fall, rise)], w.blk.cfg.pulseDebounceMs.toNat ≤ (q.2 - q.1).toNat ∧
      (q.2 - q.1).toNat ≤ w.blk.cfg.pulseLowMaxMs.toNat) →
    (pulses ++ [(fall, rise)]).foldl
        (fun w q => edgeStep l (some (.rising q.2)) (edgeStep l (some (.falling q.1)) w)) w =
      w.modifyLine l fun L =>
        { L with pPhase := .betweenPulses, pCount := BitVec.ofNat 4 (pulses.length % 10 + 1), pEdge := rise }

/-- R174: in one CYCLE a line gains at most one digit, at the end, only from Ready, PulseDialing or ToneDialing, and it is then in
PulseDialing or ToneDialing; a line that was in one of these two stays there. -/
def Obligations.DigitsHaveOneWriterAtATime : Prop :=
  ∀ s : State, ∃ s', exec .cycle s = .next s' ∧ ∀ l : Line,
    let L := s.blk.line l
    let L' := s'.blk.line l
    L'.digits = L.digits ∨
    ∃ ch, L'.digits = L.digits ++ [ch] ∧
      ((L.status = .ready ∧ (L'.status = .pulseDialing ∨ L'.status = .toneDialing)) ∨
       (L.status = .pulseDialing ∧ L'.status = .pulseDialing) ∨ (L.status = .toneDialing ∧ L'.status = .toneDialing))

/-- R160, R161, R195 and R230: the status changes that a CYCLE makes: only from Ready to a dialing status, with the previous status,
the change bit, the last-ready pointer and the notification as set-status leaves them. -/
def Obligations.CycleStatusChangesAreMarked : Prop :=
  ∀ s : State, ∃ s', exec .cycle s = .next s' ∧ ∀ l : Line,
    let L := s.blk.line l
    let L' := s'.blk.line l
    (L'.status = L.status ∧ L'.prevStatus = L.prevStatus ∧ L'.change = L.change) ∨
    (L.status = .ready ∧ (L'.status = .pulseDialing ∨ L'.status = .toneDialing) ∧ L'.prevStatus = .ready ∧ L'.change = true ∧
      s'.blk.lastReady ≠ some l ∧ (s.blk.cfg.notifyEn = true → .notify l L'.status ∈ s'.resp.trace))

/-- R166: after a CYCLE no armed timer is due, whatever was armed in it; with the tone decoder off, exactly the due timers expire and
every other is as before. Step 5, for every state of the block, so also for a timer that step 3 armed: a due timer is disarmed and
its expired bit set, and every other record, the shared state and the trace are as before. -/
def Obligations.DueTimersExpireInTheCycle : Prop :=
  (∀ (now : Word) (w : Work), let w' := timerStep now w
    w'.out = w.out ∧ SharedSame w.blk w'.blk ∧ ∀ l : Line, let L := w.blk.line l
      (L.tArmed = true ∧ Reached now L.tStart L.tDur → w'.blk.line l = { L with tArmed := false, expired := true }) ∧
      (¬ (L.tArmed = true ∧ Reached now L.tStart L.tDur) → w'.blk.line l = L)) ∧
  ∀ s : State, ∃ s', exec .cycle s = .next s' ∧ ∀ l : Line,
    let L := s.blk.line l
    let L' := s'.blk.line l
    ¬ (L'.tArmed = true ∧ Reached s.now L'.tStart L'.tDur) ∧
    (s.blk.tone.active = false →
      L'.tStart = L.tStart ∧ L'.tDur = L.tDur ∧
      (L.tArmed = true ∧ Reached s.now L.tStart L.tDur → L'.tArmed = false ∧ L'.expired = true) ∧
      (¬ (L.tArmed = true ∧ Reached s.now L.tStart L.tDur) → L'.tArmed = L.tArmed ∧ L'.expired = L.expired))

/-! The whole machine. -/

/-- R34 to R47: which commands may change each piece of state. -/
def Obligations.StateIsWrittenOnlyByItsCommands : Prop :=
  ∀ (i : Instr) (s s' : State), exec i s = .next s' →
    s'.params = s.params ∧
    (s'.blk.cfg ≠ s.blk.cfg → ∃ n, i = .regWrite n) ∧
    (s'.blk.xb ≠ s.blk.xb → (∃ a b c, i = .xbSet a b c) ∨ ∃ a, i = .xbDisconnect a) ∧
    (s'.blk.evqDrops ≠ s.blk.evqDrops → ∃ a p l, i = .eqPush a p l) ∧
    (s'.blk.tone ≠ s.blk.tone → i = .tdActivate ∨ i = .tdDeactivate ∨ i = .cycle) ∧
    (s'.blk.lastReady ≠ s.blk.lastReady → (∃ a b, i = .lrSetStatus a b) ∨ i = .cycle) ∧
    ∀ l : Line, let L := s.blk.line l
      let L' := s'.blk.line l
      (L'.status ≠ L.status ∨ L'.prevStatus ≠ L.prevStatus ∨ L'.digits ≠ L.digits → (∃ a b, i = .lrSetStatus a b) ∨ i = .cycle) ∧
      (L'.hook ≠ L.hook ∨ L'.prevHook ≠ L.prevHook ∨ L'.hCand ≠ L.hCand ∨ L'.hSince ≠ L.hSince ∨ L'.hCount ≠ L.hCount ∨
        L'.gCand ≠ L.gCand ∨ L'.gSince ≠ L.gSince ∨ L'.gLevel ≠ L.gLevel ∨ L'.pPhase ≠ L.pPhase ∨ L'.pCount ≠ L.pCount ∨
        L'.pEdge ≠ L.pEdge → i = .cycle) ∧
      (L'.incomingFrom ≠ L.incomingFrom ∨ L'.outgoingTo ≠ L.outgoingTo →
        (∃ a b, i = .lrSetStatus a b) ∨ ∃ a b c, i = .lrSetPeer a b c) ∧
      (L'.tStart ≠ L.tStart ∨ L'.tDur ≠ L.tDur → (∃ a, i = .lrSetTimer a) ∨ i = .cycle) ∧
      (L'.tArmed ≠ L.tArmed → (∃ a, i = .lrSetTimer a) ∨ (∃ a, i = .lrResetTimer a) ∨ (∃ a b, i = .lrSetStatus a b) ∨ i = .cycle) ∧
      (L'.change ≠ L.change → (∃ a b, i = .lrSetStatus a b) ∨ i = .lrTakeChanges ∨ i = .cycle) ∧
      (L'.expired ≠ L.expired → i = .lrTakeExpired ∨ (∃ a, i = .lrSetTimer a) ∨ (∃ a, i = .lrResetTimer a) ∨
        (∃ a b, i = .lrSetStatus a b) ∨ i = .cycle) ∧
      (L'.ring ≠ L.ring → (∃ a, i = .rgStart a) ∨ (∃ a, i = .rgStop a) ∨ i = .rgStopAll ∨ (∃ a b, i = .lrSetStatus a b) ∨
        i = .cycle)

end Statements
end

