-- ==== Sys2Proof/Laws/Encoding.lean ====
section
/-! SUPPORT. The fields of the formats: what an encoding shows in each field, and the bits outside its fields. -/

namespace Sys2Proof

/-- Bit i of a placed field is bit i - lo of the field. -/
theorem getLsbD_place {n : Nat} (lo : Nat) (x : BitVec n) (i : Nat) :
    (place lo x).getLsbD i = (decide (lo ≤ i) && (decide (i < 32) && x.getLsbD (i - lo))) := by
  simp only [place, BitVec.getLsbD_shiftLeft, BitVec.getLsbD_setWidth]
  by_cases h1 : i < 32 <;> by_cases h2 : lo ≤ i <;> simp [h1, h2, Nat.not_lt.mpr, Nat.not_le.mp]
  omega

/-- Two words are equal when their 32 bits are. -/
theorem word_ext {v w : Word} (h : ∀ i, i < 32 → v.getLsbD i = w.getLsbD i) : v = w :=
  BitVec.eq_of_getLsbD_eq fun i hi => h i hi

@[simp] theorem fieldOP_encodeN (op : BitVec 6) : fieldOP (encodeN op) = op := by
  refine BitVec.eq_of_getLsbD_eq fun i hi => ?_
  simp only [fieldOP, encodeN, BitVec.getLsbD_extractLsb', getLsbD_place]
  interval_cases i <;> simp

@[simp] theorem fieldOP_encodeL (op : BitVec 6) (la lb sv : BitVec 4) : fieldOP (encodeL op la lb sv) = op := by
  refine BitVec.eq_of_getLsbD_eq fun i hi => ?_
  simp only [fieldOP, encodeL, BitVec.getLsbD_extractLsb', BitVec.getLsbD_or, getLsbD_place]
  interval_cases i <;> simp

@[simp] theorem fieldLA_encodeL (op : BitVec 6) (la lb sv : BitVec 4) : fieldLA (encodeL op la lb sv) = la := by
  refine BitVec.eq_of_getLsbD_eq fun i hi => ?_
  simp only [fieldLA, encodeL, BitVec.getLsbD_extractLsb', BitVec.getLsbD_or, getLsbD_place]
  interval_cases i <;> simp

@[simp] theorem fieldLB_encodeL (op : BitVec 6) (la lb sv : BitVec 4) : fieldLB (encodeL op la lb sv) = lb := by
  refine BitVec.eq_of_getLsbD_eq fun i hi => ?_
  simp only [fieldLB, encodeL, BitVec.getLsbD_extractLsb', BitVec.getLsbD_or, getLsbD_place]
  interval_cases i <;> simp

@[simp] theorem fieldSV_encodeL (op : BitVec 6) (la lb sv : BitVec 4) : fieldSV (encodeL op la lb sv) = sv := by
  refine BitVec.eq_of_getLsbD_eq fun i hi => ?_
  simp only [fieldSV, encodeL, BitVec.getLsbD_extractLsb', BitVec.getLsbD_or, getLsbD_place]
  interval_cases i <;> simp

@[simp] theorem fieldOP_encodeE (op : BitVec 6) (addr : BitVec 7) (pin : BitVec 4) (lvl : Bool) :
    fieldOP (encodeE op addr pin lvl) = op := by
  refine BitVec.eq_of_getLsbD_eq fun i hi => ?_
  simp only [fieldOP, encodeE, BitVec.getLsbD_extractLsb', BitVec.getLsbD_or, getLsbD_place]
  interval_cases i <;> simp

@[simp] theorem fieldADDR_encodeE (op : BitVec 6) (addr : BitVec 7) (pin : BitVec 4) (lvl : Bool) :
    fieldADDR (encodeE op addr pin lvl) = addr := by
  refine BitVec.eq_of_getLsbD_eq fun i hi => ?_
  simp only [fieldADDR, encodeE, BitVec.getLsbD_extractLsb', BitVec.getLsbD_or, getLsbD_place]
  interval_cases i <;> simp

@[simp] theorem fieldPIN_encodeE (op : BitVec 6) (addr : BitVec 7) (pin : BitVec 4) (lvl : Bool) :
    fieldPIN (encodeE op addr pin lvl) = pin := by
  refine BitVec.eq_of_getLsbD_eq fun i hi => ?_
  simp only [fieldPIN, encodeE, BitVec.getLsbD_extractLsb', BitVec.getLsbD_or, getLsbD_place]
  interval_cases i <;> simp

@[simp] theorem fieldLVL_encodeE (op : BitVec 6) (addr : BitVec 7) (pin : BitVec 4) (lvl : Bool) :
    fieldLVL (encodeE op addr pin lvl) = lvl := by
  simp only [fieldLVL, encodeE, BitVec.getLsbD_or, getLsbD_place]
  simp

@[simp] theorem fieldOP_encodeR (op : BitVec 6) (reg : BitVec 8) : fieldOP (encodeR op reg) = op := by
  refine BitVec.eq_of_getLsbD_eq fun i hi => ?_
  simp only [fieldOP, encodeR, BitVec.getLsbD_extractLsb', BitVec.getLsbD_or, getLsbD_place]
  interval_cases i <;> simp

@[simp] theorem fieldREG_encodeR (op : BitVec 6) (reg : BitVec 8) : fieldREG (encodeR op reg) = reg := by
  refine BitVec.eq_of_getLsbD_eq fun i hi => ?_
  simp only [fieldREG, encodeR, BitVec.getLsbD_extractLsb', BitVec.getLsbD_or, getLsbD_place]
  interval_cases i <;> simp

/-- The opcode field of an encoding is the command's opcode. -/
theorem fieldOP_encode (i : Instr) : fieldOP (encode i) = i.opcode := by
  cases i <;> simp [encode]

end Sys2Proof
end

