-- ==== Sys2Proof/Laws/State.lean ====
section
/-! SUPPORT. What each update of the state leaves in each field, one lemma per field per update, and the loop over the lines. -/

namespace Sys2Proof.Machine

/-! Line records. -/

@[simp] theorem line_setLine_same (b : Block) (l : Line) (r : LineRec) : (b.setLine l r).line l = r := by
  simp [Block.setLine, Block.line]

theorem line_setLine (b : Block) (l m : Line) (r : LineRec) :
    (b.setLine l r).line m = if m = l then r else b.line m := by
  simp [Block.setLine, Block.line, Vector.getElem_set, Fin.ext_iff, eq_comm]

theorem line_setLine_ne (b : Block) {l m : Line} (r : LineRec) (h : m ≠ l) : (b.setLine l r).line m = b.line m := by
  simp [line_setLine, h]

@[simp] theorem setLine_lastReady (b : Block) (l : Line) (r : LineRec) : (b.setLine l r).lastReady = b.lastReady := rfl
@[simp] theorem setLine_xb (b : Block) (l : Line) (r : LineRec) : (b.setLine l r).xb = b.xb := rfl
@[simp] theorem setLine_evq (b : Block) (l : Line) (r : LineRec) : (b.setLine l r).evq = b.evq := rfl
@[simp] theorem setLine_evqDrops (b : Block) (l : Line) (r : LineRec) : (b.setLine l r).evqDrops = b.evqDrops := rfl
@[simp] theorem setLine_tone (b : Block) (l : Line) (r : LineRec) : (b.setLine l r).tone = b.tone := rfl
@[simp] theorem setLine_cfg (b : Block) (l : Line) (r : LineRec) : (b.setLine l r).cfg = b.cfg := rfl

@[simp] theorem line_modifyLine_same (b : Block) (l : Line) (f : LineRec → LineRec) :
    (b.modifyLine l f).line l = f (b.line l) := by simp [Block.modifyLine]

theorem line_modifyLine (b : Block) (l m : Line) (f : LineRec → LineRec) :
    (b.modifyLine l f).line m = if m = l then f (b.line l) else b.line m := by
  simp [Block.modifyLine, line_setLine]

theorem line_modifyLine_ne (b : Block) {l m : Line} (f : LineRec → LineRec) (h : m ≠ l) :
    (b.modifyLine l f).line m = b.line m := by simp [line_modifyLine, h]

@[simp] theorem modifyLine_lastReady (b : Block) (l : Line) (f : LineRec → LineRec) :
    (b.modifyLine l f).lastReady = b.lastReady := rfl
@[simp] theorem modifyLine_xb (b : Block) (l : Line) (f : LineRec → LineRec) : (b.modifyLine l f).xb = b.xb := rfl
@[simp] theorem modifyLine_evq (b : Block) (l : Line) (f : LineRec → LineRec) : (b.modifyLine l f).evq = b.evq := rfl
@[simp] theorem modifyLine_evqDrops (b : Block) (l : Line) (f : LineRec → LineRec) :
    (b.modifyLine l f).evqDrops = b.evqDrops := rfl
@[simp] theorem modifyLine_tone (b : Block) (l : Line) (f : LineRec → LineRec) : (b.modifyLine l f).tone = b.tone := rfl
@[simp] theorem modifyLine_cfg (b : Block) (l : Line) (f : LineRec → LineRec) : (b.modifyLine l f).cfg = b.cfg := rfl

@[simp] theorem setLine_conn (b : Block) (l : Line) (r : LineRec) (x y : Line) : (b.setLine l r).conn x y = b.conn x y := rfl
@[simp] theorem modifyLine_conn (b : Block) (l : Line) (f : LineRec → LineRec) (x y : Line) :
    (b.modifyLine l f).conn x y = b.conn x y := rfl

/-! The setters of the other fields. -/

@[simp] theorem setLastReady_lastReady (b : Block) (o : Option Line) : (b.setLastReady o).lastReady = o := rfl
@[simp] theorem setLastReady_xb (b : Block) (o : Option Line) : (b.setLastReady o).xb = b.xb := rfl
@[simp] theorem setLastReady_evq (b : Block) (o : Option Line) : (b.setLastReady o).evq = b.evq := rfl
@[simp] theorem setLastReady_evqDrops (b : Block) (o : Option Line) : (b.setLastReady o).evqDrops = b.evqDrops := rfl
@[simp] theorem setLastReady_tone (b : Block) (o : Option Line) : (b.setLastReady o).tone = b.tone := rfl
@[simp] theorem setLastReady_cfg (b : Block) (o : Option Line) : (b.setLastReady o).cfg = b.cfg := rfl
@[simp] theorem setLastReady_line (b : Block) (o : Option Line) (m : Line) : (b.setLastReady o).line m = b.line m := rfl
@[simp] theorem setLastReady_conn (b : Block) (o : Option Line) (x y : Line) : (b.setLastReady o).conn x y = b.conn x y := rfl

@[simp] theorem setEvq_lastReady (b : Block) (q : List Event) : (b.setEvq q).lastReady = b.lastReady := rfl
@[simp] theorem setEvq_xb (b : Block) (q : List Event) : (b.setEvq q).xb = b.xb := rfl
@[simp] theorem setEvq_evq (b : Block) (q : List Event) : (b.setEvq q).evq = q := rfl
@[simp] theorem setEvq_evqDrops (b : Block) (q : List Event) : (b.setEvq q).evqDrops = b.evqDrops := rfl
@[simp] theorem setEvq_tone (b : Block) (q : List Event) : (b.setEvq q).tone = b.tone := rfl
@[simp] theorem setEvq_cfg (b : Block) (q : List Event) : (b.setEvq q).cfg = b.cfg := rfl
@[simp] theorem setEvq_line (b : Block) (q : List Event) (m : Line) : (b.setEvq q).line m = b.line m := rfl
@[simp] theorem setEvq_conn (b : Block) (q : List Event) (x y : Line) : (b.setEvq q).conn x y = b.conn x y := rfl

@[simp] theorem setEvqDrops_lastReady (b : Block) (n : Word) : (b.setEvqDrops n).lastReady = b.lastReady := rfl
@[simp] theorem setEvqDrops_xb (b : Block) (n : Word) : (b.setEvqDrops n).xb = b.xb := rfl
@[simp] theorem setEvqDrops_evq (b : Block) (n : Word) : (b.setEvqDrops n).evq = b.evq := rfl
@[simp] theorem setEvqDrops_evqDrops (b : Block) (n : Word) : (b.setEvqDrops n).evqDrops = n := rfl
@[simp] theorem setEvqDrops_tone (b : Block) (n : Word) : (b.setEvqDrops n).tone = b.tone := rfl
@[simp] theorem setEvqDrops_cfg (b : Block) (n : Word) : (b.setEvqDrops n).cfg = b.cfg := rfl
@[simp] theorem setEvqDrops_line (b : Block) (n : Word) (m : Line) : (b.setEvqDrops n).line m = b.line m := rfl
@[simp] theorem setEvqDrops_conn (b : Block) (n : Word) (x y : Line) : (b.setEvqDrops n).conn x y = b.conn x y := rfl

@[simp] theorem setTone_lastReady (b : Block) (t : ToneState) : (b.setTone t).lastReady = b.lastReady := rfl
@[simp] theorem setTone_xb (b : Block) (t : ToneState) : (b.setTone t).xb = b.xb := rfl
@[simp] theorem setTone_evq (b : Block) (t : ToneState) : (b.setTone t).evq = b.evq := rfl
@[simp] theorem setTone_evqDrops (b : Block) (t : ToneState) : (b.setTone t).evqDrops = b.evqDrops := rfl
@[simp] theorem setTone_tone (b : Block) (t : ToneState) : (b.setTone t).tone = t := rfl
@[simp] theorem setTone_cfg (b : Block) (t : ToneState) : (b.setTone t).cfg = b.cfg := rfl
@[simp] theorem setTone_line (b : Block) (t : ToneState) (m : Line) : (b.setTone t).line m = b.line m := rfl
@[simp] theorem setTone_conn (b : Block) (t : ToneState) (x y : Line) : (b.setTone t).conn x y = b.conn x y := rfl

@[simp] theorem setCfg_lastReady (b : Block) (c : Cfg) : (b.setCfg c).lastReady = b.lastReady := rfl
@[simp] theorem setCfg_xb (b : Block) (c : Cfg) : (b.setCfg c).xb = b.xb := rfl
@[simp] theorem setCfg_evq (b : Block) (c : Cfg) : (b.setCfg c).evq = b.evq := rfl
@[simp] theorem setCfg_evqDrops (b : Block) (c : Cfg) : (b.setCfg c).evqDrops = b.evqDrops := rfl
@[simp] theorem setCfg_tone (b : Block) (c : Cfg) : (b.setCfg c).tone = b.tone := rfl
@[simp] theorem setCfg_cfg (b : Block) (c : Cfg) : (b.setCfg c).cfg = c := rfl
@[simp] theorem setCfg_line (b : Block) (c : Cfg) (m : Line) : (b.setCfg c).line m = b.line m := rfl
@[simp] theorem setCfg_conn (b : Block) (c : Cfg) (x y : Line) : (b.setCfg c).conn x y = b.conn x y := rfl

/-- Two blocks with the same fields and the same line records are the same block. -/
theorem Block.ext_lines {b c : Block} (hl : ∀ l, b.line l = c.line l) (h1 : b.lastReady = c.lastReady) (h2 : b.xb = c.xb)
    (h3 : b.evq = c.evq) (h4 : b.evqDrops = c.evqDrops) (h5 : b.tone = c.tone) (h6 : b.cfg = c.cfg) : b = c := by
  obtain ⟨bl, _, _, _, _, _, _⟩ := b
  obtain ⟨cl, _, _, _, _, _, _⟩ := c
  have : bl = cl := Vector.ext fun i hi => hl ⟨i, hi⟩
  simp_all

/-! The connection matrix. -/

theorem conn_setConn (b : Block) (x y u v : Line) (c : ConnState) :
    (b.setConn x y c).conn u v = if u = x ∧ v = y then c else b.conn u v := by
  have row : ∀ (u : Line), (b.setConn x y c).xb[u] = if u = x then b.xb[x].set y c else b.xb[u] := by
    intro u; simp [Block.setConn, Vector.getElem_set, Fin.ext_iff, eq_comm]
  unfold Block.conn
  rw [row u]
  by_cases hu : u = x
  · subst hu; simp [Vector.getElem_set, Fin.ext_iff, eq_comm]
  · simp [hu]

@[simp] theorem setConn_lines (b : Block) (x y : Line) (c : ConnState) : (b.setConn x y c).lines = b.lines := rfl
@[simp] theorem line_setConn (b : Block) (x y m : Line) (c : ConnState) : (b.setConn x y c).line m = b.line m := rfl
@[simp] theorem setConn_lastReady (b : Block) (x y : Line) (c : ConnState) : (b.setConn x y c).lastReady = b.lastReady := rfl
@[simp] theorem setConn_evq (b : Block) (x y : Line) (c : ConnState) : (b.setConn x y c).evq = b.evq := rfl
@[simp] theorem setConn_evqDrops (b : Block) (x y : Line) (c : ConnState) : (b.setConn x y c).evqDrops = b.evqDrops := rfl
@[simp] theorem setConn_tone (b : Block) (x y : Line) (c : ConnState) : (b.setConn x y c).tone = b.tone := rfl
@[simp] theorem setConn_cfg (b : Block) (x y : Line) (c : ConnState) : (b.setConn x y c).cfg = b.cfg := rfl

/-! A transaction in progress. -/

@[simp] theorem emit_blk (w : Work) (r : Out) : (w.emit r).blk = w.blk := rfl
@[simp] theorem emit_out (w : Work) (r : Out) : (w.emit r).out = w.out ++ [r] := rfl
@[simp] theorem onBlk_blk (w : Work) (f : Block → Block) : (w.onBlk f).blk = f w.blk := rfl
@[simp] theorem onBlk_out (w : Work) (f : Block → Block) : (w.onBlk f).out = w.out := rfl
@[simp] theorem workModifyLine_blk (w : Work) (l : Line) (f : LineRec → LineRec) :
    (w.modifyLine l f).blk = w.blk.modifyLine l f := rfl
@[simp] theorem workModifyLine_out (w : Work) (l : Line) (f : LineRec → LineRec) : (w.modifyLine l f).out = w.out := rfl
@[simp] theorem state_work_blk (s : State) : s.work.blk = s.blk := rfl
@[simp] theorem state_work_out (s : State) : s.work.out = [] := rfl

/-! A rejected transaction. -/

@[simp] theorem rejected_blk (s : State) (e : Err) (op : BitVec 6) : (s.rejected e op).blk = s.blk := rfl
@[simp] theorem rejected_params (s : State) (e : Err) (op : BitVec 6) : (s.rejected e op).params = s.params := rfl
@[simp] theorem rejected_inputs (s : State) (e : Err) (op : BitVec 6) : (s.rejected e op).inputs = s.inputs := rfl
@[simp] theorem rejected_data (s : State) (e : Err) (op : BitVec 6) : (s.rejected e op).data = s.data := rfl
@[simp] theorem rejected_now (s : State) (e : Err) (op : BitVec 6) : (s.rejected e op).now = s.now := rfl
@[simp] theorem rejected_code (s : State) (e : Err) (op : BitVec 6) : (s.rejected e op).resp.code = e.code := rfl
@[simp] theorem rejected_val (s : State) (e : Err) (op : BitVec 6) : (s.rejected e op).resp.val = 0 := rfl
@[simp] theorem rejected_trace (s : State) (e : Err) (op : BitVec 6) :
    (s.rejected e op).resp.trace = [.log .cmdError (e.code.setWidth 16) (op.setWidth 16)] := rfl

/-! The loop over the lines. -/

/-- A property that every pass of the loop keeps holds after the loop. -/
theorem forLines_induct {α : Type} (P : α → Prop) (f : Line → α → α) (a : α) (h0 : P a)
    (hf : ∀ l a, P a → P (f l a)) : P (forLines f a) := by
  have h : ∀ (ls : List Line) (a : α), P a → P (ls.foldl (fun a l => f l a) a) := by
    intro ls
    induction ls with
    | nil => intro a ha; exact ha
    | cons l ls ih => intro a ha; exact ih _ (hf l a ha)
  exact h _ _ h0

/-- A relation that every pass keeps holds after two loops in step. -/
theorem forLines_induct₂ {α β : Type} (R : α → β → Prop) (f : Line → α → α) (g : Line → β → β) (a : α) (b : β) (h0 : R a b)
    (hf : ∀ l a b, R a b → R (f l a) (g l b)) : R (forLines f a) (forLines g b) := by
  have h : ∀ (ls : List Line) (a : α) (b : β), R a b →
      R (ls.foldl (fun a l => f l a) a) (ls.foldl (fun a l => g l a) b) := by
    intro ls
    induction ls with
    | nil => intro a b h; exact h
    | cons l ls ih => intro a b h; exact ih _ _ (hf l a b h)
  exact h _ _ _ h0

theorem mem_allLines (l : Line) : l ∈ allLines := by revert l; decide

theorem allLines_nodup : allLines.Nodup := by decide

/-- A loop whose pass for line l touches only what `get` shows of line l: what `get m` shows after the loop is what the pass for m
makes of what it showed before, whatever the other passes did in between, as long as the passes agree on it. -/
theorem forLines_pointwise {α β : Type} (get : α → Line → β) (f : Line → α → α) (g : Line → β → β) (I : α → Prop)
    (hI : ∀ l a, I a → I (f l a)) (hsame : ∀ l a, I a → get (f l a) l = g l (get a l))
    (hother : ∀ l m a, I a → m ≠ l → get (f l a) m = get a m) (a : α) (h0 : I a) (m : Line) :
    get (forLines f a) m = g m (get a m) := by
  have h : ∀ (ls : List Line), ls.Nodup → ∀ a, I a →
      get (ls.foldl (fun a l => f l a) a) m = if m ∈ ls then g m (get a m) else get a m := by
    intro ls
    induction ls with
    | nil => intro _ a _; simp
    | cons l ls ih =>
      intro hn a ha
      have hnd := List.nodup_cons.mp hn
      rw [List.foldl_cons, ih hnd.2 _ (hI l a ha)]
      by_cases hm : m = l
      · subst hm; simp [hnd.1, hsame m a ha]
      · simp [hm, hother l m a ha hm]
  have := h allLines allLines_nodup a h0
  rwa [if_pos (mem_allLines m)] at this

/-- The loop that updates every record: line m's record is updated once. -/
theorem forLines_modifyLine_line (f : Line → LineRec → LineRec) (b : Block) (m : Line) :
    (forLines (fun l b => b.modifyLine l (f l)) b).line m = f m (b.line m) :=
  forLines_pointwise Block.line (fun l b => b.modifyLine l (f l)) f (fun _ => True) (fun _ _ h => h)
    (fun l a _ => line_modifyLine_same a l (f l)) (fun l _ a _ h => line_modifyLine_ne a (f l) h) b trivial m

/-- The loop that updates every record leaves the shared fields alone. -/
theorem forLines_modifyLine_shared (f : Line → LineRec → LineRec) (b : Block) :
    (forLines (fun l b => b.modifyLine l (f l)) b).lastReady = b.lastReady ∧
    (forLines (fun l b => b.modifyLine l (f l)) b).xb = b.xb ∧
    (forLines (fun l b => b.modifyLine l (f l)) b).evq = b.evq ∧
    (forLines (fun l b => b.modifyLine l (f l)) b).evqDrops = b.evqDrops ∧
    (forLines (fun l b => b.modifyLine l (f l)) b).tone = b.tone ∧
    (forLines (fun l b => b.modifyLine l (f l)) b).cfg = b.cfg :=
  forLines_induct (fun c : Block => c.lastReady = b.lastReady ∧ c.xb = b.xb ∧ c.evq = b.evq ∧ c.evqDrops = b.evqDrops ∧
    c.tone = b.tone ∧ c.cfg = b.cfg) _ b (by simp) (by simp)

end Sys2Proof.Machine
end

