-- ==== Sys2Proof/Laws/Ops.lean ====
section
/-! SUPPORT. One lemma per shared operation that says once what it can do. -/

namespace Sys2Proof.Machine

/-! Operands. -/

theorem lineCode_toNat (l : Line) : (lineCode l).toNat = l.val := by
  simp only [lineCode, BitVec.toNat_ofNat]; have := l.isLt; omega

theorem lineOperand_ok {f : BitVec 4} {l : Line} : lineOperand f = .ok l ↔ f.toNat = l.val := by
  unfold lineOperand
  by_cases h : f.toNat < 8
  · simp [h, Fin.ext_iff]
  · simp [h]; have := l.isLt; omega

theorem lineOperand_error {f : BitVec 4} {e : Err} : lineOperand f = .error e ↔ e = .line ∧ 8 ≤ f.toNat := by
  unfold lineOperand
  by_cases h : f.toNat < 8
  · simp [h]
  · simp [h, eq_comm]; omega

@[simp] theorem lineOperand_lineCode (l : Line) : lineOperand (lineCode l) = .ok l :=
  lineOperand_ok.mpr (lineCode_toNat l)

theorem lineCode_injective {l m : Line} (h : lineCode l = lineCode m) : l = m :=
  Fin.ext (by rw [← lineCode_toNat, ← lineCode_toNat, h])

@[simp] theorem statusOperand_code (st : LineStatus) : statusOperand st.code = .ok st := by cases st <;> rfl

@[simp] theorem connOperand_code (c : ConnState) : connOperand (c.code.setWidth 4) = .ok c := by cases c <;> rfl

theorem statusOperand_ok {f : BitVec 4} {st : LineStatus} : statusOperand f = .ok st ↔ f = st.code := by
  revert f; cases st <;> decide

theorem statusOperand_error {f : BitVec 4} {e : Err} : statusOperand f = .error e ↔ e = .value ∧ 14 ≤ f.toNat := by
  revert f; cases e <;> decide

theorem connOperand_ok {f : BitVec 4} {c : ConnState} : connOperand f = .ok c ↔ f = c.code.setWidth 4 := by
  revert f; cases c <;> decide

theorem connOperand_error {f : BitVec 4} {e : Err} : connOperand f = .error e ↔ e = .value ∧ 4 ≤ f.toNat := by
  revert f; cases e <;> decide

theorem sideOperand_error {f : BitVec 4} {e : Err} : sideOperand f = .error e ↔ e = .value ∧ 2 ≤ f.toNat := by
  revert f; cases e <;> decide

@[simp] theorem peerOperand_code (o : Option Line) : peerOperand (optLineCode o) = .ok o := by
  revert o; decide

theorem pairOperand_lineCode {x y : Line} (h : x ≠ y) : pairOperand (lineCode x) (lineCode y) = .ok (x, y) := by
  simp [pairOperand, h, bind, Except.bind]

/-! The response and the command error. -/

@[simp] theorem respond_eq (s : State) (w : Work) (v : Word) :
    respond s w v = .next { s with blk := w.blk, resp := { code := 0, val := v, trace := w.out } } := rfl

@[simp] theorem raiseErr_eq (e : Err) (i : Instr) (s : State) : raiseErr e i s = .next (s.rejected e i.opcode) := rfl

@[simp] theorem checked_ok {α : Type} (i : Instr) (s : State) (a : α) (k : α → Result) : checked i s (.ok a) k = k a := rfl

@[simp] theorem checked_error {α : Type} (i : Instr) (s : State) (e : Err) (k : α → Result) :
    checked i s (.error e) k = .next (s.rejected e i.opcode) := rfl

/-- A checked command either raises its operand error or performs. -/
theorem checked_cases {α : Type} {i : Instr} {s t : State} {ops : Except Err α} {k : α → Result}
    (h : checked i s ops k = .next t) :
    (∃ e, ops = .error e ∧ t = s.rejected e i.opcode) ∨ (∃ a, ops = .ok a ∧ k a = .next t) := by
  cases ops with
  | error e =>
    rw [checked_error] at h
    exact .inl ⟨e, rfl, (Host.Outcome.next.inj h).symm⟩
  | ok a => exact .inr ⟨a, rfl, h⟩

/-! The event queue. -/

/-- removeFirst on a queue whose first match is e. -/
theorem removeFirst_append {pred : Event → Bool} {pre post : List Event} {e : Event} (hpre : ∀ x ∈ pre, pred x = false)
    (he : pred e = true) : removeFirst pred (pre ++ e :: post) = (some e, pre ++ post) := by
  unfold removeFirst
  induction pre with
  | nil => simp [he]
  | cons a pre ih =>
    have ha : pred a = false := hpre a (by simp)
    have := ih fun x hx => hpre x (by simp [hx])
    simp only [Prod.mk.injEq] at this
    simp [ha, this.1, this.2]

/-- removeFirst on a queue with no match. -/
theorem removeFirst_none {pred : Event → Bool} {q : List Event} (h : ∀ x ∈ q, pred x = false) :
    removeFirst pred q = (none, q) := by
  unfold removeFirst
  rw [List.find?_eq_none.mpr fun x hx => by simp [h x hx], List.eraseP_of_forall_not fun x hx => by simp [h x hx]]

/-- What removeFirst can do (R140). -/
theorem removeFirst_cases (pred : Event → Bool) (q : List Event) :
    (removeFirst pred q = (none, q) ∧ ∀ x ∈ q, pred x = false) ∨
    (∃ pre e post, q = pre ++ e :: post ∧ (∀ x ∈ pre, pred x = false) ∧ pred e = true ∧
      removeFirst pred q = (some e, pre ++ post)) := by
  by_cases h : ∀ x ∈ q, pred x = false
  · exact .inl ⟨removeFirst_none h, h⟩
  · have hex : ∃ x ∈ q, pred x = true := by simpa using h
    obtain ⟨a, ha, hp⟩ := hex
    obtain ⟨e, pre, post, hpre, he, hq, -⟩ := List.exists_of_eraseP ha hp
    have hpre' : ∀ x ∈ pre, pred x = false := fun x hx => by simpa using hpre x hx
    exact .inr ⟨pre, e, post, hq, hpre', he, hq ▸ removeFirst_append hpre' he⟩

/-- removeFirst leaves a subsequence of the queue. -/
theorem removeFirst_sublist (pred : Event → Bool) (q : List Event) : (removeFirst pred q).2.Sublist q :=
  List.eraseP_sublist

/-- The while loop of R198, run at most n times. -/
def drainLoop (pred : Event → Bool) : Nat → List Event → List Event
  | 0, q => q
  | n + 1, q =>
    match removeFirst pred q with
    | (none, q) => q
    | (some _, q) => drainLoop pred n q

/-- drain is the while loop of R198, which ends before the queue's length is used up. -/
theorem drainLoop_eq_drain (pred : Event → Bool) (n : Nat) (q : List Event) (h : q.length ≤ n) :
    drainLoop pred n q = drain pred q := by
  induction n generalizing q with
  | zero => simp_all [drainLoop, drain]
  | succ n ih =>
    rcases removeFirst_cases pred q with ⟨hr, hn⟩ | ⟨pre, e, post, hq, hpre, he, hr⟩
    · simp only [drainLoop, hr, drain]
      exact (List.filter_eq_self.mpr fun x hx => by simp [hn x hx]).symm
    · have hl : (pre ++ post).length ≤ n := by subst hq; simp at h ⊢; omega
      simp only [drainLoop, hr, ih _ hl]
      simp [drain, hq, he]

/-- Draining leaves a subsequence of the queue. -/
theorem drain_sublist (pred : Event → Bool) (q : List Event) : (drain pred q).Sublist q := List.filter_sublist

/-! Notifications and statuses. -/

@[simp] theorem notify_blk (l : Line) (st : LineStatus) (w : Work) : (notify l st w).blk = w.blk := by
  unfold notify; split <;> rfl

theorem notify_out (l : Line) (st : LineStatus) (w : Work) :
    (notify l st w).out = w.out ++ (if w.blk.cfg.notifyEn then [.notify l st] else []) := by
  unfold notify; split <;> simp

@[simp] theorem setStatus_line_same (l : Line) (st : LineStatus) (w : Work) :
    (setStatus l st w).blk.line l = applyStatus st (w.blk.line l) := by simp [setStatus]

theorem setStatus_line_ne {l m : Line} (st : LineStatus) (w : Work) (h : m ≠ l) :
    (setStatus l st w).blk.line m = w.blk.line m := by simp [setStatus, line_modifyLine_ne _ _ h]

@[simp] theorem setStatus_lastReady (l : Line) (st : LineStatus) (w : Work) :
    (setStatus l st w).blk.lastReady = nextLastReady l st w.blk.lastReady := by simp [setStatus]
@[simp] theorem setStatus_xb (l : Line) (st : LineStatus) (w : Work) : (setStatus l st w).blk.xb = w.blk.xb := by
  simp [setStatus]
@[simp] theorem setStatus_evq (l : Line) (st : LineStatus) (w : Work) : (setStatus l st w).blk.evq = w.blk.evq := by
  simp [setStatus]
@[simp] theorem setStatus_evqDrops (l : Line) (st : LineStatus) (w : Work) :
    (setStatus l st w).blk.evqDrops = w.blk.evqDrops := by simp [setStatus]
@[simp] theorem setStatus_tone (l : Line) (st : LineStatus) (w : Work) : (setStatus l st w).blk.tone = w.blk.tone := by
  simp [setStatus]
@[simp] theorem setStatus_cfg (l : Line) (st : LineStatus) (w : Work) : (setStatus l st w).blk.cfg = w.blk.cfg := by
  simp [setStatus]

theorem setStatus_out (l : Line) (st : LineStatus) (w : Work) :
    (setStatus l st w).out = w.out ++ (if w.blk.cfg.notifyEn then [.notify l st] else []) := by
  simp [setStatus, notify_out]
  rfl

/-- What appendDigit can do (R170). -/
theorem appendDigit_cases (p : Params) (l : Line) (ch : Byte) (w : Work) :
    ((w.blk.line l).digits.length < p.digitsMax ∧
      appendDigit p l ch w = w.modifyLine l fun r => { r with digits := r.digits ++ [ch] }) ∨
    (p.digitsMax ≤ (w.blk.line l).digits.length ∧
      appendDigit p l ch w = w.emit (.log .digitOverflow (BitVec.ofNat 16 l.val) (ch.setWidth 16))) := by
  unfold appendDigit
  by_cases h : (w.blk.line l).digits.length < p.digitsMax
  · exact .inl ⟨h, if_pos h⟩
  · exact .inr ⟨Nat.not_lt.mp h, if_neg h⟩

/-! The flag masks and the matrix loops. -/

/-- Bit l of a mask of lines. -/
theorem getLsbD_lineMask (f : Line → Bool) (l : Line) : (lineMask f).getLsbD l.val = f l := by
  have h : ∀ (b0 b1 b2 b3 b4 b5 b6 b7 : Bool) (l : Line),
      (BitVec.ofBool b7 ++ BitVec.ofBool b6 ++ BitVec.ofBool b5 ++ BitVec.ofBool b4 ++ BitVec.ofBool b3 ++
        BitVec.ofBool b2 ++ BitVec.ofBool b1 ++ BitVec.ofBool b0).getLsbD l.val =
      [b0, b1, b2, b3, b4, b5, b6, b7][l.val] := by decide
  rw [lineMask, h]
  fin_cases l <;> rfl

theorem clearChanges_line (b : Block) (m : Line) :
    b.clearChanges.line m = { b.line m with change := false } :=
  forLines_modifyLine_line (fun _ r => { r with change := false }) b m

theorem clearExpired_line (b : Block) (m : Line) :
    b.clearExpired.line m = { b.line m with expired := false } :=
  forLines_modifyLine_line (fun _ r => { r with expired := false }) b m

/-- What XB_SET leaves in the matrix (R271). -/
theorem conn_setPair (b : Block) (x y u v : Line) (c : ConnState) :
    (setPair x y c b).conn u v = if (u = x ∧ v = y) ∨ (u = y ∧ v = x) then c else b.conn u v := by
  simp only [setPair, conn_setConn]
  by_cases h1 : u = x ∧ v = y <;> by_cases h2 : u = y ∧ v = x <;> simp [h1, h2]

/-- What XB_DISCONNECT leaves in the matrix (R276). -/
theorem conn_disconnectLine (b : Block) (x u v : Line) :
    (disconnectLine x b).conn u v = if u = x ∨ v = x then .none else b.conn u v := by
  have h : ∀ (ls : List Line) (b : Block),
      (ls.foldl (fun b y => (b.setConn x y .none).setConn y x .none) b).conn u v =
        if (u = x ∧ v ∈ ls) ∨ (v = x ∧ u ∈ ls) then .none else b.conn u v := by
    intro ls
    induction ls with
    | nil => intro b; simp
    | cons y ls ih =>
      intro b
      rw [List.foldl_cons, ih]
      simp only [conn_setConn, List.mem_cons]
      by_cases hu : u = x <;> by_cases hv : v = x <;> by_cases huy : u = y <;> by_cases hvy : v = y <;> simp_all
  have := h allLines b
  simp only [mem_allLines, and_true] at this
  exact this

/-! The records of the tone decoder's own update. -/

@[simp] theorem onTone_blk (w : Work) (f : ToneState → ToneState) :
    (w.onTone f).blk = w.blk.setTone (f w.blk.tone) := rfl
@[simp] theorem onTone_out (w : Work) (f : ToneState → ToneState) : (w.onTone f).out = w.out := rfl

end Sys2Proof.Machine
end

