-- ==== Sys2Proof/Laws/Cycle.lean ====
section
/-! SUPPORT. What each step of a CYCLE can do: the record of each line after it, and what it leaves alone. -/

namespace Sys2Proof.Machine

/-- From w to w', only line l's record, the last-ready pointer and the trace may have changed. -/
structure LocalTo (l : Line) (w w' : Work) : Prop where
  others : ∀ m, m ≠ l → w'.blk.line m = w.blk.line m
  xb : w'.blk.xb = w.blk.xb
  evq : w'.blk.evq = w.blk.evq
  evqDrops : w'.blk.evqDrops = w.blk.evqDrops
  tone : w'.blk.tone = w.blk.tone
  cfg : w'.blk.cfg = w.blk.cfg

theorem LocalTo.refl (l : Line) (w : Work) : LocalTo l w w := ⟨fun _ _ => rfl, rfl, rfl, rfl, rfl, rfl⟩

theorem LocalTo.trans {l : Line} {w v u : Work} (h : LocalTo l w v) (k : LocalTo l v u) : LocalTo l w u :=
  ⟨fun m hm => (k.others m hm).trans (h.others m hm), k.xb.trans h.xb, k.evq.trans h.evq, k.evqDrops.trans h.evqDrops,
    k.tone.trans h.tone, k.cfg.trans h.cfg⟩

theorem LocalTo.modifyLine (l : Line) (w : Work) (f : LineRec → LineRec) : LocalTo l w (w.modifyLine l f) :=
  ⟨fun _ hm => line_modifyLine_ne _ _ hm, rfl, rfl, rfl, rfl, rfl⟩

theorem LocalTo.emit (l : Line) (w : Work) (r : Out) : LocalTo l w (w.emit r) := ⟨fun _ _ => rfl, rfl, rfl, rfl, rfl, rfl⟩

theorem LocalTo.setStatus (l : Line) (st : LineStatus) (w : Work) : LocalTo l w (setStatus l st w) :=
  ⟨fun _ hm => setStatus_line_ne _ _ hm, by simp, by simp, by simp, by simp, by simp⟩

theorem LocalTo.appendDigit (p : Params) (l : Line) (ch : Byte) (w : Work) : LocalTo l w (appendDigit p l ch w) := by
  rcases appendDigit_cases p l ch w with ⟨-, h⟩ | ⟨-, h⟩ <;> rw [h]
  · exact .modifyLine ..
  · exact .emit ..

/-- The digits after appendDigit (R170). -/
def appended (p : Params) (ch : Byte) (L : LineRec) : LineRec :=
  { L with digits := if L.digits.length < p.digitsMax then L.digits ++ [ch] else L.digits }

theorem appendDigit_line (p : Params) (l : Line) (ch : Byte) (w : Work) :
    (appendDigit p l ch w).blk.line l = appended p ch (w.blk.line l) := by
  rcases appendDigit_cases p l ch w with ⟨h, hw⟩ | ⟨h, hw⟩ <;> rw [hw]
  · simp [appended, h]
  · simp [appended, Nat.not_lt.mpr h]

theorem appendDigit_lastReady (p : Params) (l : Line) (ch : Byte) (w : Work) :
    (appendDigit p l ch w).blk.lastReady = w.blk.lastReady := by
  rcases appendDigit_cases p l ch w with ⟨-, h⟩ | ⟨-, h⟩ <;> rw [h] <;> rfl

theorem appendDigit_out (p : Params) (l : Line) (ch : Byte) (w : Work) :
    (appendDigit p l ch w).out = w.out ++ (if (w.blk.line l).digits.length < p.digitsMax then []
      else [.log .digitOverflow (BitVec.ofNat 16 l.val) (ch.setWidth 16)]) := by
  rcases appendDigit_cases p l ch w with ⟨h, hw⟩ | ⟨h, hw⟩ <;> rw [hw]
  · simp [h]
  · simp [Nat.not_lt.mpr h]

/-! Step 2: the pulse detector of one line. -/

/-- The record after the edge step (R194). -/
def edgeRec (c : Cfg) (e : Option Edge) (L : LineRec) : LineRec :=
  match L.pPhase, e with
  | .idle, some (.falling t) => beginPulse t L
  | .betweenPulses, some (.falling t) => beginPulse t L
  | .inPulse, some (.rising t) =>
    if c.pulseDebounceMs ≤ t - L.pEdge ∧ t - L.pEdge ≤ c.pulseLowMaxMs then
      { L with pCount := nextCount L.pCount, pPhase := .betweenPulses, pEdge := t }
    else pulseIdle L
  | _, _ => L

theorem edgeStep_line (l : Line) (e : Option Edge) (w : Work) :
    (edgeStep l e w).blk.line l = edgeRec w.blk.cfg e (w.blk.line l) := by
  unfold edgeStep edgeRec
  split <;> simp_all [endPulse]
  split <;> simp_all

theorem edgeStep_local (l : Line) (e : Option Edge) (w : Work) :
    LocalTo l w (edgeStep l e w) ∧ (edgeStep l e w).blk.lastReady = w.blk.lastReady := by
  unfold edgeStep
  split
  · exact ⟨.modifyLine .., rfl⟩
  · exact ⟨.modifyLine .., rfl⟩
  · unfold endPulse
    dsimp only
    split
    · exact ⟨.modifyLine .., rfl⟩
    · exact ⟨(LocalTo.emit ..).trans (.modifyLine ..), rfl⟩
  · exact ⟨.refl .., rfl⟩

/-- The record after a digit is emitted (R195). -/
def emitRec (p : Params) (L : LineRec) : LineRec :=
  let L1 := appended p (pulseDigit L.pCount) (pulseIdle L)
  if L.status = .ready then applyStatus .pulseDialing L1 else L1

/-- The gap condition of R195. -/
abbrev gapDue (c : Cfg) (now : Word) (L : LineRec) : Prop := L.pPhase = .betweenPulses ∧ c.digitGapMinMs ≤ elapsed now L.pEdge

/-- The timeout condition of R196. -/
abbrev lateDue (c : Cfg) (now : Word) (L : LineRec) : Prop := L.pPhase ≠ .idle ∧ c.pulseTimeoutMs < elapsed now L.pEdge

theorem emitDigit_line (p : Params) (l : Line) (w : Work) : (emitDigit p l w).blk.line l = emitRec p (w.blk.line l) := by
  unfold emitDigit emitRec
  have h : (appendDigit p l (pulseDigit (w.blk.line l).pCount) (w.modifyLine l pulseIdle)).blk.line l =
      appended p (pulseDigit (w.blk.line l).pCount) (pulseIdle (w.blk.line l)) := by simp [appendDigit_line]
  have hs : (appended p (pulseDigit (w.blk.line l).pCount) (pulseIdle (w.blk.line l))).status = (w.blk.line l).status := rfl
  by_cases hr : (w.blk.line l).status = .ready
  · simp [h, hs, hr]
  · simp [h, hs, hr]

theorem emitDigit_local (p : Params) (l : Line) (w : Work) :
    LocalTo l w (emitDigit p l w) ∧
    (emitDigit p l w).blk.lastReady =
      if (w.blk.line l).status = .ready ∧ w.blk.lastReady = some l then none else w.blk.lastReady := by
  have h : (appendDigit p l (pulseDigit (w.blk.line l).pCount) (w.modifyLine l pulseIdle)).blk.line l =
      appended p (pulseDigit (w.blk.line l).pCount) (pulseIdle (w.blk.line l)) := by simp [appendDigit_line]
  have hs : (appended p (pulseDigit (w.blk.line l).pCount) (pulseIdle (w.blk.line l))).status = (w.blk.line l).status := rfl
  have hl := (LocalTo.modifyLine l w pulseIdle).trans (.appendDigit p l (pulseDigit (w.blk.line l).pCount) _)
  unfold emitDigit
  by_cases hr : (w.blk.line l).status = .ready
  · simp only [h, hs, hr, if_true]
    exact ⟨hl.trans (.setStatus ..), by simp [nextLastReady, appendDigit_lastReady]⟩
  · simp only [h, hs, hr, if_false]
    exact ⟨hl, by simp [appendDigit_lastReady]⟩

/-- What gapAndTimeout can do (R195, R196). -/
theorem gapAndTimeout_cases (p : Params) (now : Word) (l : Line) (w : Work) :
    (gapDue w.blk.cfg now (w.blk.line l) ∧ gapAndTimeout p now l w = emitDigit p l w) ∨
    (¬ gapDue w.blk.cfg now (w.blk.line l) ∧ lateDue w.blk.cfg now (w.blk.line l) ∧
      gapAndTimeout p now l w = pulseTimeout l w) ∨
    (¬ gapDue w.blk.cfg now (w.blk.line l) ∧ ¬ lateDue w.blk.cfg now (w.blk.line l) ∧ gapAndTimeout p now l w = w) := by
  unfold gapAndTimeout gapDue lateDue
  dsimp only
  split
  · exact .inl ⟨‹_›, rfl⟩
  · split
    · exact .inr (.inl ⟨‹_›, ‹_›, rfl⟩)
    · exact .inr (.inr ⟨‹_›, ‹_›, rfl⟩)

theorem pulseTimeout_line (l : Line) (w : Work) : (pulseTimeout l w).blk.line l = pulseIdle (w.blk.line l) := by
  simp [pulseTimeout]

theorem pulseTimeout_local (l : Line) (w : Work) :
    LocalTo l w (pulseTimeout l w) ∧ (pulseTimeout l w).blk.lastReady = w.blk.lastReady :=
  ⟨(LocalTo.emit ..).trans (.modifyLine ..), rfl⟩

/-- The record after the gap and timeout check. -/
def gapRec (p : Params) (c : Cfg) (now : Word) (L : LineRec) : LineRec :=
  if gapDue c now L then emitRec p L else if lateDue c now L then pulseIdle L else L

theorem gapAndTimeout_line (p : Params) (now : Word) (l : Line) (w : Work) :
    (gapAndTimeout p now l w).blk.line l = gapRec p w.blk.cfg now (w.blk.line l) := by
  unfold gapRec
  rcases gapAndTimeout_cases p now l w with ⟨h, hw⟩ | ⟨h, h', hw⟩ | ⟨h, h', hw⟩ <;> rw [hw]
  · rw [if_pos h, emitDigit_line]
  · rw [if_neg h, if_pos h', pulseTimeout_line]
  · rw [if_neg h, if_neg h']

/-- A line leaves Ready in the work: the last-ready pointer no longer names it. -/
def readyAfter (left : Prop) [Decidable left] (l : Line) (o : Option Line) : Option Line :=
  if left ∧ o = some l then none else o

theorem gapAndTimeout_local (p : Params) (now : Word) (l : Line) (w : Work) :
    LocalTo l w (gapAndTimeout p now l w) ∧
    (gapAndTimeout p now l w).blk.lastReady =
      readyAfter (gapDue w.blk.cfg now (w.blk.line l) ∧ (w.blk.line l).status = .ready) l w.blk.lastReady := by
  unfold readyAfter
  rcases gapAndTimeout_cases p now l w with ⟨h, hw⟩ | ⟨h, h', hw⟩ | ⟨h, h', hw⟩ <;> rw [hw]
  · refine ⟨(emitDigit_local p l w).1, ?_⟩
    rw [(emitDigit_local p l w).2]
    simp only [eq_true h, true_and]
  · exact ⟨(pulseTimeout_local l w).1, by simp only [h, false_and, if_false]; exact (pulseTimeout_local l w).2⟩
  · exact ⟨.refl .., by simp only [h, false_and, if_false]⟩

/-- The record after the pulse detector (R193). -/
def detectorRec (p : Params) (c : Cfg) (now : Word) (e : Option Edge) (L : LineRec) : LineRec :=
  if pulseGate L then gapRec p c now (edgeRec c e L) else pulseIdle L

/-- A digit is emitted by the pulse detector and its line leaves Ready. -/
abbrev detectorLeaves (c : Cfg) (now : Word) (e : Option Edge) (L : LineRec) : Prop :=
  pulseGate L = true ∧ gapDue c now (edgeRec c e L) ∧ L.status = .ready

theorem edgeRec_status (c : Cfg) (e : Option Edge) (L : LineRec) : (edgeRec c e L).status = L.status := by
  unfold edgeRec
  split <;> try rfl
  split <;> rfl

theorem pulseDetector_line (p : Params) (now : Word) (l : Line) (e : Option Edge) (w : Work) :
    (pulseDetector p now l e w).blk.line l = detectorRec p w.blk.cfg now e (w.blk.line l) := by
  unfold pulseDetector detectorRec
  split
  · rw [gapAndTimeout_line, edgeStep_line, (edgeStep_local l e w).1.cfg]
  · simp

theorem pulseDetector_local (p : Params) (now : Word) (l : Line) (e : Option Edge) (w : Work) :
    LocalTo l w (pulseDetector p now l e w) ∧
    (pulseDetector p now l e w).blk.lastReady =
      readyAfter (detectorLeaves w.blk.cfg now e (w.blk.line l)) l w.blk.lastReady := by
  unfold pulseDetector
  split
  · rename_i hg
    have h := gapAndTimeout_local p now l (edgeStep l e w)
    have k := edgeStep_local l e w
    refine ⟨k.1.trans h.1, ?_⟩
    rw [h.2, k.2, k.1.cfg, edgeStep_line, edgeRec_status]
    simp [readyAfter, detectorLeaves, hg]
  · rename_i hg
    exact ⟨.modifyLine .., by simp [readyAfter, hg]⟩

/-- The record of an active line after step 2 (R190). -/
def hookPulseRec (p : Params) (c : Cfg) (now : Word) (r : Bool) (L : LineRec) : LineRec :=
  detectorRec p c now (filterLine c now r L).2 (filterLine c now r L).1

/-- The record of a line after step 2 (R190). -/
def lineRec2 (p : Params) (c : Cfg) (now : Word) (shk : BitVec 8) (l : Line) (L : LineRec) : LineRec :=
  if c.activeMask.getLsbD l.val then hookPulseRec p c now (shk.getLsbD l.val) L else L

/-- Step 2 takes line l out of Ready. -/
abbrev leaves2 (c : Cfg) (now : Word) (shk : BitVec 8) (l : Line) (L : LineRec) : Prop :=
  c.activeMask.getLsbD l.val = true ∧
  detectorLeaves c now (filterLine c now (shk.getLsbD l.val) L).2 (filterLine c now (shk.getLsbD l.val) L).1

theorem hookPulseLine_line (p : Params) (now : Word) (shk : BitVec 8) (l : Line) (w : Work) :
    (hookPulseLine p now shk l w).blk.line l = lineRec2 p w.blk.cfg now shk l (w.blk.line l) := by
  unfold hookPulseLine lineRec2 hookPulseRec Block.active
  split
  · simp [pulseDetector_line]
  · rfl

theorem hookPulseLine_local (p : Params) (now : Word) (shk : BitVec 8) (l : Line) (w : Work) :
    LocalTo l w (hookPulseLine p now shk l w) ∧
    (hookPulseLine p now shk l w).blk.lastReady =
      readyAfter (leaves2 w.blk.cfg now shk l (w.blk.line l)) l w.blk.lastReady := by
  unfold hookPulseLine Block.active
  split
  · rename_i ha
    have h := pulseDetector_local p now l (filterLine w.blk.cfg now (shk.getLsbD l.val) (w.blk.line l)).2
      (w.modifyLine l fun _ => (filterLine w.blk.cfg now (shk.getLsbD l.val) (w.blk.line l)).1)
    refine ⟨(LocalTo.modifyLine ..).trans h.1, ?_⟩
    simp only [h.2]
    simp [readyAfter, leaves2, ha]
  · rename_i ha
    exact ⟨.refl .., by simp [readyAfter, ha]⟩

/-- Step 2: each line's record is updated on its own (R190). -/
theorem hookPulseStep_line (p : Params) (now : Word) (shk : BitVec 8) (w : Work) (m : Line) :
    (hookPulseStep p now shk w).blk.line m = lineRec2 p w.blk.cfg now shk m (w.blk.line m) := by
  unfold hookPulseStep
  exact forLines_pointwise (fun w : Work => w.blk.line) (hookPulseLine p now shk) (lineRec2 p w.blk.cfg now shk)
    (fun v => v.blk.cfg = w.blk.cfg) (fun l a h => (hookPulseLine_local p now shk l a).1.cfg.trans h)
    (fun l a h => by rw [hookPulseLine_line, h]) (fun l m a _ hm => (hookPulseLine_local p now shk l a).1.others m hm)
    w rfl m

/-- Step 2 writes nothing but the lines' records and the last-ready pointer. -/
theorem hookPulseStep_shared (p : Params) (now : Word) (shk : BitVec 8) (w : Work) :
    (hookPulseStep p now shk w).blk.xb = w.blk.xb ∧ (hookPulseStep p now shk w).blk.evq = w.blk.evq ∧
    (hookPulseStep p now shk w).blk.evqDrops = w.blk.evqDrops ∧ (hookPulseStep p now shk w).blk.tone = w.blk.tone ∧
    (hookPulseStep p now shk w).blk.cfg = w.blk.cfg := by
  unfold hookPulseStep
  refine forLines_induct (fun v : Work => v.blk.xb = w.blk.xb ∧ v.blk.evq = w.blk.evq ∧ v.blk.evqDrops = w.blk.evqDrops ∧
    v.blk.tone = w.blk.tone ∧ v.blk.cfg = w.blk.cfg) _ w ⟨rfl, rfl, rfl, rfl, rfl⟩ fun l a h => ?_
  have k := (hookPulseLine_local p now shk l a).1
  exact ⟨k.xb.trans h.1, k.evq.trans h.2.1, k.evqDrops.trans h.2.2.1, k.tone.trans h.2.2.2.1, k.cfg.trans h.2.2.2.2⟩

/-- Step 2 leaves the last-ready pointer alone unless the line it names leaves Ready, and then clears it. -/
theorem hookPulseStep_lastReady (p : Params) (now : Word) (shk : BitVec 8) (w : Work) :
    (hookPulseStep p now shk w).blk.lastReady =
      match w.blk.lastReady with
      | none => none
      | some m => if leaves2 w.blk.cfg now shk m (w.blk.line m) then none else some m := by
  have hI : ∀ l (a : Work), a.blk.cfg = w.blk.cfg → (hookPulseLine p now shk l a).blk.cfg = w.blk.cfg :=
    fun l a h => (hookPulseLine_local p now shk l a).1.cfg.trans h
  cases hm : w.blk.lastReady with
  | none =>
    unfold hookPulseStep
    refine (forLines_induct (fun v : Work => v.blk.lastReady = none) _ w hm fun l a h => ?_)
    rw [(hookPulseLine_local p now shk l a).2, h]
    simp [readyAfter]
  | some m =>
    have h : ∀ (ls : List Line), ls.Nodup → ∀ a : Work, a.blk.cfg = w.blk.cfg → a.blk.lastReady = some m →
        (m ∈ ls → a.blk.line m = w.blk.line m) →
        (ls.foldl (fun a l => hookPulseLine p now shk l a) a).blk.lastReady =
          if m ∈ ls ∧ leaves2 w.blk.cfg now shk m (w.blk.line m) then none else some m := by
      intro ls
      induction ls with
      | nil => intro _ a _ hr _; simpa using hr
      | cons l ls ih =>
        intro hn a hc hr hl
        have hnd := List.nodup_cons.mp hn
        rw [List.foldl_cons]
        have k := hookPulseLine_local p now shk l a
        by_cases hlm : l = m
        · subst hlm
          by_cases hv : leaves2 w.blk.cfg now shk l (w.blk.line l)
          · have h0 : (hookPulseLine p now shk l a).blk.lastReady = none := by
              rw [k.2, hr, hc, hl (by simp)]; exact if_pos ⟨hv, rfl⟩
            have : ∀ (ls : List Line) (b : Work), b.blk.lastReady = none →
                (ls.foldl (fun a l => hookPulseLine p now shk l a) b).blk.lastReady = none := by
              intro ls
              induction ls with
              | nil => intro b hb; exact hb
              | cons l ls ih =>
                intro b hb
                refine ih _ ?_
                rw [(hookPulseLine_local p now shk l b).2, hb]
                simp [readyAfter]
            rw [this ls _ h0]; exact (if_pos ⟨List.mem_cons_self, hv⟩).symm
          · have h0 : (hookPulseLine p now shk l a).blk.lastReady = some l := by
              rw [k.2, hr, hc, hl (by simp)]; exact if_neg fun h => hv h.1
            rw [ih hnd.2 _ (hI l a hc) h0 (fun hmem => absurd hmem hnd.1)]
            rw [if_neg fun h => hv h.2, if_neg fun h => hv h.2]
        · have h0 : (hookPulseLine p now shk l a).blk.lastReady = some m := by
            rw [k.2, hr]; simp only [readyAfter, Option.some.injEq, Ne.symm hlm, and_false, if_false]
          rw [ih hnd.2 _ (hI l a hc) h0 (fun hmem => (k.1.others m (Ne.symm hlm)).trans (hl (by simp [hmem])))]
          simp only [List.mem_cons, Ne.symm hlm, false_or]
    have := h allLines allLines_nodup w rfl hm fun _ => rfl
    simp only [mem_allLines, true_and] at this
    exact this

/-- The record of an aborted digit (R194). -/
def edgeOut (l : Line) (c : Cfg) (e : Option Edge) (L : LineRec) : List Out :=
  match L.pPhase, e with
  | .inPulse, some (.rising t) =>
    if c.pulseDebounceMs ≤ t - L.pEdge ∧ t - L.pEdge ≤ c.pulseLowMaxMs then []
    else [.log .pulseAbort (BitVec.ofNat 16 l.val) (logDuration (t - L.pEdge))]
  | _, _ => []

theorem edgeStep_out (l : Line) (e : Option Edge) (w : Work) :
    (edgeStep l e w).out = w.out ++ edgeOut l w.blk.cfg e (w.blk.line l) := by
  unfold edgeStep edgeOut
  split <;> simp_all [endPulse]
  split <;> simp_all

/-- The records of a gap or a timeout (R170, R161, R195, R196). -/
def gapOut (p : Params) (l : Line) (c : Cfg) (now : Word) (L : LineRec) : List Out :=
  if gapDue c now L then
    (if L.digits.length < p.digitsMax then []
      else [.log .digitOverflow (BitVec.ofNat 16 l.val) ((pulseDigit L.pCount).setWidth 16)]) ++
    (if L.status = .ready ∧ c.notifyEn = true then [.notify l .pulseDialing] else [])
  else if lateDue c now L then [.log .pulseTimeout (BitVec.ofNat 16 l.val) (L.pPhase.code.setWidth 16)]
  else []

theorem gapAndTimeout_out (p : Params) (now : Word) (l : Line) (w : Work) :
    (gapAndTimeout p now l w).out = w.out ++ gapOut p l w.blk.cfg now (w.blk.line l) := by
  unfold gapOut
  rcases gapAndTimeout_cases p now l w with ⟨h, hw⟩ | ⟨h, h', hw⟩ | ⟨h, h', hw⟩ <;> rw [hw]
  · have hc := (LocalTo.appendDigit p l (pulseDigit (w.blk.line l).pCount) (w.modifyLine l pulseIdle)).cfg
    rw [if_pos h]
    unfold emitDigit
    by_cases hr : (w.blk.line l).status = .ready
    · simp [appendDigit_line, appended, pulseIdle, hr, setStatus_out, appendDigit_out, hc]
    · simp [appendDigit_line, appended, pulseIdle, hr, appendDigit_out]
  · rw [if_neg h, if_pos h']; rfl
  · rw [if_neg h, if_neg h', List.append_nil]

/-- The records of a line in step 2 (R190). -/
def lineOut2 (p : Params) (c : Cfg) (now : Word) (shk : BitVec 8) (l : Line) (L : LineRec) : List Out :=
  let f := filterLine c now (shk.getLsbD l.val) L
  if c.activeMask.getLsbD l.val ∧ pulseGate f.1 then edgeOut l c f.2 f.1 ++ gapOut p l c now (edgeRec c f.2 f.1) else []

theorem hookPulseLine_out (p : Params) (now : Word) (shk : BitVec 8) (l : Line) (w : Work) :
    (hookPulseLine p now shk l w).out = w.out ++ lineOut2 p w.blk.cfg now shk l (w.blk.line l) := by
  unfold hookPulseLine lineOut2 pulseDetector Block.active
  generalize w.blk.cfg.activeMask.getLsbD l.val = act
  generalize hf : filterLine w.blk.cfg now (shk.getLsbD l.val) (w.blk.line l) = f
  cases act
  · simp
  · by_cases hg : pulseGate f.1 = true
    · simp [hg, gapAndTimeout_out, edgeStep_out, edgeStep_line, (edgeStep_local l _ _).1.cfg]
    · simp [hg]

/-- Step 2 emits each line's records in the order of the lines (R11, R190). -/
theorem hookPulseStep_out (p : Params) (now : Word) (shk : BitVec 8) (w : Work) :
    (hookPulseStep p now shk w).out =
      w.out ++ (allLines.map fun l => lineOut2 p w.blk.cfg now shk l (w.blk.line l)).flatten := by
  have h : ∀ ls : List Line, ls.Nodup → ∀ a : Work, a.blk.cfg = w.blk.cfg → (∀ m ∈ ls, a.blk.line m = w.blk.line m) →
      (ls.foldl (fun a l => hookPulseLine p now shk l a) a).out =
        a.out ++ (ls.map fun l => lineOut2 p w.blk.cfg now shk l (w.blk.line l)).flatten := by
    intro ls
    induction ls with
    | nil => intro _ a _ _; simp
    | cons l ls ih =>
      intro hn a hc hl
      have hnd := List.nodup_cons.mp hn
      have k := hookPulseLine_local p now shk l a
      rw [List.foldl_cons, ih hnd.2 _ (k.1.cfg.trans hc) fun m hm =>
        (k.1.others m fun h => hnd.1 (h ▸ hm)).trans (hl m (by simp [hm]))]
      rw [hookPulseLine_out, hc, hl l (by simp)]
      simp
  exact h allLines allLines_nodup w rfl fun _ _ => rfl

/-! Step 1. -/

@[simp] theorem drainStep_line (w : Work) (m : Line) : (drainStep w).blk.line m = w.blk.line m := rfl
@[simp] theorem drainStep_lastReady (w : Work) : (drainStep w).blk.lastReady = w.blk.lastReady := rfl
@[simp] theorem drainStep_xb (w : Work) : (drainStep w).blk.xb = w.blk.xb := rfl
@[simp] theorem drainStep_evqDrops (w : Work) : (drainStep w).blk.evqDrops = w.blk.evqDrops := rfl
@[simp] theorem drainStep_tone (w : Work) : (drainStep w).blk.tone = w.blk.tone := rfl
@[simp] theorem drainStep_cfg (w : Work) : (drainStep w).blk.cfg = w.blk.cfg := rfl
@[simp] theorem drainStep_out (w : Work) : (drainStep w).out = w.out := rfl

/-- Step 1 leaves exactly the events of no hook pin, in order (R198). -/
theorem drainStep_evq (w : Work) :
    (drainStep w).blk.evq =
      w.blk.evq.filter fun e => !(allLines.any fun l => Event.isAt (w.blk.pinMap l).addr (w.blk.pinMap l).hookPin e) := by
  have h : ∀ (ls : List Line) (q : List Event),
      ls.foldl (fun q l => drainHookPin w.blk l q) q =
        q.filter fun e => !(ls.any fun l => Event.isAt (w.blk.pinMap l).addr (w.blk.pinMap l).hookPin e) := by
    intro ls
    induction ls with
    | nil => intro q; simp
    | cons l ls ih =>
      intro q
      rw [List.foldl_cons, ih, drainHookPin, drain, List.filter_filter]
      congr 1
      funext e
      simp [Bool.and_comm]
  exact h _ _

/-! Step 3: the tone decoder. -/

/-- What step 3 can do to the records (R225 to R230): nothing, arm one line's timer, or append to one line in Ready or ToneDialing,
which is then in ToneDialing. -/
inductive ToneEffect (p : Params) (now : Word) (w w' : Work) : Prop where
  | nothing (hl : ∀ m, w'.blk.line m = w.blk.line m) (hr : w'.blk.lastReady = w.blk.lastReady)
  | timer (l : Line) (d : Word) (ha : w.blk.tone.active = true) (hl : w'.blk.line l = setLineTimer now d (w.blk.line l))
      (ho : ∀ m, m ≠ l → w'.blk.line m = w.blk.line m) (hr : w'.blk.lastReady = w.blk.lastReady)
  | digit (l : Line) (ch : Byte) (ha : w.blk.tone.active = true)
      (hs : (w.blk.line l).status = .ready ∨ (w.blk.line l).status = .toneDialing)
      (hl : w'.blk.line l = if (w.blk.line l).status = .ready then applyStatus .toneDialing (appended p ch (w.blk.line l))
        else appended p ch (w.blk.line l))
      (ho : ∀ m, m ≠ l → w'.blk.line m = w.blk.line m)
      (hr : w'.blk.lastReady = readyAfter ((w.blk.line l).status = .ready) l w.blk.lastReady)

/-- What step 3 leaves alone. -/
structure ToneShared (w w' : Work) : Prop where
  xb : w'.blk.xb = w.blk.xb
  evqDrops : w'.blk.evqDrops = w.blk.evqDrops
  cfg : w'.blk.cfg = w.blk.cfg

theorem appendTone_effect (p : Params) (now : Word) (n : BitVec 4) (w : Work) (ha : w.blk.tone.active = true) :
    ToneEffect p now w (appendTone p n w) ∧ ToneShared w (appendTone p n w) ∧ (appendTone p n w).blk.evq = w.blk.evq := by
  unfold appendTone
  split
  · exact ⟨.nothing (fun _ => rfl) rfl, ⟨rfl, rfl, rfl⟩, rfl⟩
  · rename_i l _
    split
    · rename_i hs
      have hl : ((appendDigit p l (dtmfChar p n) w).onTone fun t => { t with line := some l }).blk.line l =
          appended p (dtmfChar p n) (w.blk.line l) := by simp [appendDigit_line]
      have hst : (appended p (dtmfChar p n) (w.blk.line l)).status = (w.blk.line l).status := rfl
      have k := LocalTo.appendDigit p l (dtmfChar p n) w
      by_cases hr : (w.blk.line l).status = .ready
      · simp only [hl, hst, hr, if_true]
        refine ⟨.digit l (dtmfChar p n) ha hs ?_ ?_ ?_, ⟨?_, ?_, ?_⟩, ?_⟩
        · simp only [setStatus_line_same, hl, hr, if_true]
        · intro m hm; rw [setStatus_line_ne _ _ hm]; exact k.others m hm
        · simp [nextLastReady, readyAfter, appendDigit_lastReady, hr]
        · simp [k.xb]
        · simp [k.evqDrops]
        · simp [k.cfg]
        · simp [k.evq]
      · simp only [hl, hst, hr, if_false]
        refine ⟨.digit l (dtmfChar p n) ha hs ?_ ?_ ?_, ⟨?_, ?_, ?_⟩, ?_⟩
        · simp only [hl, hr, if_false]
        · intro m hm; exact k.others m hm
        · simp [readyAfter, appendDigit_lastReady, hr]
        · simp [k.xb]
        · simp [k.evqDrops]
        · simp [k.cfg]
        · simp [k.evq]
    · exact ⟨.nothing (fun _ => rfl) rfl, ⟨rfl, rfl, rfl⟩, rfl⟩

theorem acceptNibble_effect (p : Params) (now : Word) (n : BitVec 4) (w : Work) (ha : w.blk.tone.active = true) :
    ToneEffect p now w (acceptNibble p now n w) ∧ ToneShared w (acceptNibble p now n w) ∧
      (acceptNibble p now n w).blk.evq = w.blk.evq := by
  unfold acceptNibble
  split
  · exact ⟨.nothing (fun _ => rfl) rfl, ⟨rfl, rfl, rfl⟩, rfl⟩
  · split
    · exact ⟨.nothing (fun _ => rfl) rfl, ⟨rfl, rfl, rfl⟩, rfl⟩
    · have h := appendTone_effect p now n (w.onTone fun t => { t with lastNib := some n, lastNibT := now }) ha
      refine ⟨?_, ⟨h.2.1.xb, h.2.1.evqDrops, h.2.1.cfg⟩, h.2.2⟩
      cases h.1 with
      | nothing hl hr => exact .nothing hl hr
      | timer l d ha' hl ho hr => exact .timer l d ha hl ho hr
      | digit l ch ha' hs hl ho hr => exact .digit l ch ha hs hl ho hr

theorem acceptNibble_tone (p : Params) (now : Word) (n : BitVec 4) (w : Work) :
    (acceptNibble p now n w).blk.tone.active = w.blk.tone.active ∧
    (acceptNibble p now n w).blk.tone.pending = w.blk.tone.pending ∧
    (acceptNibble p now n w).blk.tone.high = w.blk.tone.high := by
  unfold acceptNibble
  split
  · exact ⟨rfl, rfl, rfl⟩
  · split
    · exact ⟨rfl, rfl, rfl⟩
    · unfold appendTone
      split
      · exact ⟨rfl, rfl, rfl⟩
      · rename_i l _
        split
        · dsimp only
          have k := LocalTo.appendDigit p l (dtmfChar p n) (w.onTone fun t => { t with lastNib := some n, lastNibT := now })
          split <;> simp [k.tone]
        · exact ⟨rfl, rfl, rfl⟩

theorem stabilityCheck_effect (p : Params) (now : Word) (q : BitVec 4) (w : Work) (ha : w.blk.tone.active = true) :
    ToneEffect p now w (stabilityCheck p now q w) ∧ ToneShared w (stabilityCheck p now q w) ∧
      (stabilityCheck p now q w).blk.evq = w.blk.evq := by
  unfold stabilityCheck
  split
  · have h := acceptNibble_effect p now q (w.onTone fun t => { t with pending := false }) ha
    refine ⟨?_, ⟨h.2.1.xb, h.2.1.evqDrops, h.2.1.cfg⟩, h.2.2⟩
    cases h.1 with
    | nothing hl hr => exact .nothing hl hr
    | timer l d ha' hl ho hr => exact .timer l d ha hl ho hr
    | digit l ch ha' hs hl ho hr => exact .digit l ch ha hs hl ho hr
  · exact ⟨.nothing (fun _ => rfl) rfl, ⟨rfl, rfl, rfl⟩, rfl⟩

theorem stabilityCheck_idle (p : Params) (now : Word) (q : BitVec 4) (w : Work) (h : w.blk.tone.pending = false) :
    stabilityCheck p now q w = w := by simp [stabilityCheck, h]

theorem stabilityCheck_tone (p : Params) (now : Word) (q : BitVec 4) (w : Work) :
    (stabilityCheck p now q w).blk.tone.active = w.blk.tone.active ∧
    ((stabilityCheck p now q w).blk.tone.pending = true → w.blk.tone.pending = true) ∧
    (stabilityCheck p now q w).blk.tone.high = w.blk.tone.high := by
  unfold stabilityCheck
  split
  · have h := acceptNibble_tone p now q (w.onTone fun t => { t with pending := false })
    refine ⟨h.1, fun hp => ?_, h.2.2⟩
    rw [h.2.1] at hp
    cases hp
  · exact ⟨rfl, id, rfl⟩

theorem fallingEdge_effect (p : Params) (now : Word) (w : Work) (ha : w.blk.tone.active = true) :
    ToneEffect p now w (fallingEdge now w) ∧ ToneShared w (fallingEdge now w) ∧ (fallingEdge now w).blk.evq = w.blk.evq ∧
    (fallingEdge now w).blk.tone = { w.blk.tone with pending := false, high := false } := by
  unfold fallingEdge endTone
  dsimp only
  split
  · split
    · exact ⟨.nothing (fun _ => rfl) rfl, ⟨rfl, rfl, rfl⟩, rfl, rfl⟩
    · split
      · rename_i l _
        exact ⟨.timer l w.blk.cfg.dtmfDoneMs ha (by simp) (fun m hm => line_modifyLine_ne _ _ hm) rfl, ⟨rfl, rfl, rfl⟩, rfl, rfl⟩
      · exact ⟨.nothing (fun _ => rfl) rfl, ⟨rfl, rfl, rfl⟩, rfl, rfl⟩
  · exact ⟨.nothing (fun _ => rfl) rfl, ⟨rfl, rfl, rfl⟩, rfl, rfl⟩

/-- Everything step 3 can do (R225). -/
theorem toneStep_effect (p : Params) (now : Word) (q : BitVec 4) (w : Work) :
    ToneEffect p now w (toneStep p now q w) ∧ ToneShared w (toneStep p now q w) ∧
    (toneStep p now q w).blk.evq = w.blk.evq.eraseP (Event.isAt w.blk.cfg.strobeAddr w.blk.cfg.strobePin) := by
  unfold toneStep removeFirst
  dsimp only
  split
  · rename_i ha
    have ha : w.blk.tone.active = true := ha
    unfold strobeEdge
    split
    · have h := stabilityCheck_effect p now q
        (w.onBlk fun b => b.setEvq (w.blk.evq.eraseP (Event.isAt w.blk.cfg.strobeAddr w.blk.cfg.strobePin))) ha
      refine ⟨?_, ⟨h.2.1.xb, h.2.1.evqDrops, h.2.1.cfg⟩, h.2.2⟩
      cases h.1 with
      | nothing hl hr => exact .nothing hl hr
      | timer l d ha' hl ho hr => exact .timer l d ha hl ho hr
      | digit l ch ha' hs hl ho hr => exact .digit l ch ha hs hl ho hr
    · split
      · have h := stabilityCheck_effect p now q (risingEdge now
          (w.onBlk fun b => b.setEvq (w.blk.evq.eraseP (Event.isAt w.blk.cfg.strobeAddr w.blk.cfg.strobePin)))) ha
        refine ⟨?_, ⟨h.2.1.xb, h.2.1.evqDrops, h.2.1.cfg⟩, h.2.2⟩
        cases h.1 with
        | nothing hl hr => exact .nothing hl hr
        | timer l d ha' hl ho hr => exact .timer l d ha hl ho hr
        | digit l ch ha' hs hl ho hr => exact .digit l ch ha hs hl ho hr
      · have h := fallingEdge_effect p now
          (w.onBlk fun b => b.setEvq (w.blk.evq.eraseP (Event.isAt w.blk.cfg.strobeAddr w.blk.cfg.strobePin))) ha
        rw [stabilityCheck_idle _ _ _ _ (by rw [h.2.2.2])]
        refine ⟨?_, ⟨h.2.1.xb, h.2.1.evqDrops, h.2.1.cfg⟩, h.2.2.1⟩
        cases h.1 with
        | nothing hl hr => exact .nothing hl hr
        | timer l d ha' hl ho hr => exact .timer l d ha hl ho hr
        | digit l ch ha' hs hl ho hr => exact .digit l ch ha hs hl ho hr
  · exact ⟨.nothing (fun _ => rfl) rfl, ⟨rfl, rfl, rfl⟩, rfl⟩

/-- The switch is kept, and a pending read has a high strobe when it had before (R48 items 6 and 7). -/
theorem toneStep_tone (p : Params) (now : Word) (q : BitVec 4) (w : Work) :
    (toneStep p now q w).blk.tone.active = w.blk.tone.active ∧
    (w.blk.tone.active = false → (toneStep p now q w).blk.tone = w.blk.tone) ∧
    ((w.blk.tone.pending = true → w.blk.tone.high = true) →
      (toneStep p now q w).blk.tone.pending = true → (toneStep p now q w).blk.tone.high = true) := by
  unfold toneStep removeFirst
  dsimp only
  split
  · rename_i ha
    have ha : w.blk.tone.active = true := ha
    unfold strobeEdge
    split
    · have h := stabilityCheck_tone p now q
        (w.onBlk fun b => b.setEvq (w.blk.evq.eraseP (Event.isAt w.blk.cfg.strobeAddr w.blk.cfg.strobePin)))
      exact ⟨h.1, fun hf => (by rw [ha] at hf; cases hf), fun hi hp => by rw [h.2.2]; exact hi (h.2.1 hp)⟩
    · split
      · have h := stabilityCheck_tone p now q (risingEdge now
          (w.onBlk fun b => b.setEvq (w.blk.evq.eraseP (Event.isAt w.blk.cfg.strobeAddr w.blk.cfg.strobePin))))
        exact ⟨h.1, fun hf => (by rw [ha] at hf; cases hf), fun _ _ => by rw [h.2.2]; rfl⟩
      · have h := fallingEdge_effect p now
          (w.onBlk fun b => b.setEvq (w.blk.evq.eraseP (Event.isAt w.blk.cfg.strobeAddr w.blk.cfg.strobePin))) ha
        rw [stabilityCheck_idle _ _ _ _ (by rw [h.2.2.2]), h.2.2.2]
        exact ⟨rfl, fun hf => (by rw [ha] at hf; cases hf), fun _ hp => by cases hp⟩
  · exact ⟨rfl, fun _ => rfl, fun hi hp => hi hp⟩

/-! Steps 4 and 5. -/

/-- Step 4: each line's cadence on its own, and nothing else (R255, R259). -/
theorem ringStep_effect (p : Params) (now : Word) (w : Work) :
    (∀ m, (ringStep p now w).blk.line m = ringUpdate p w.blk.cfg now (w.blk.line m)) ∧
    (ringStep p now w).out = w.out ∧ (ringStep p now w).blk.lastReady = w.blk.lastReady ∧
    (ringStep p now w).blk.xb = w.blk.xb ∧ (ringStep p now w).blk.evq = w.blk.evq ∧
    (ringStep p now w).blk.evqDrops = w.blk.evqDrops ∧ (ringStep p now w).blk.tone = w.blk.tone ∧
    (ringStep p now w).blk.cfg = w.blk.cfg := by
  unfold ringStep
  refine ⟨forLines_pointwise (fun w : Work => w.blk.line)
      (fun l w => w.modifyLine l (ringUpdate p w.blk.cfg now)) (fun _ => ringUpdate p w.blk.cfg now)
      (fun v => v.blk.cfg = w.blk.cfg) (fun _ _ h => h)
      (fun l a h => h ▸ line_modifyLine_same a.blk l (ringUpdate p a.blk.cfg now))
      (fun l _ a _ hm => line_modifyLine_ne a.blk (ringUpdate p a.blk.cfg now) hm) w rfl, ?_⟩
  exact forLines_induct (fun v : Work => v.out = w.out ∧ v.blk.lastReady = w.blk.lastReady ∧ v.blk.xb = w.blk.xb ∧
    v.blk.evq = w.blk.evq ∧ v.blk.evqDrops = w.blk.evqDrops ∧ v.blk.tone = w.blk.tone ∧ v.blk.cfg = w.blk.cfg) _ w
    (by simp) (fun l a h => h)

/-- Step 5: each line's timer on its own, and nothing else (R166). -/
theorem timerStep_effect (now : Word) (w : Work) :
    (∀ m, (timerStep now w).blk.line m = timerExpiry now (w.blk.line m)) ∧
    (timerStep now w).out = w.out ∧ (timerStep now w).blk.lastReady = w.blk.lastReady ∧
    (timerStep now w).blk.xb = w.blk.xb ∧ (timerStep now w).blk.evq = w.blk.evq ∧
    (timerStep now w).blk.evqDrops = w.blk.evqDrops ∧ (timerStep now w).blk.tone = w.blk.tone ∧
    (timerStep now w).blk.cfg = w.blk.cfg := by
  unfold timerStep
  refine ⟨forLines_pointwise (fun w : Work => w.blk.line) (fun l w => w.modifyLine l (timerExpiry now))
      (fun _ => timerExpiry now) (fun _ => True) (fun _ _ h => h)
      (fun l a _ => line_modifyLine_same a.blk l (timerExpiry now))
      (fun l _ a _ hm => line_modifyLine_ne a.blk (timerExpiry now) hm) w trivial, ?_⟩
  exact forLines_induct (fun v : Work => v.out = w.out ∧ v.blk.lastReady = w.blk.lastReady ∧ v.blk.xb = w.blk.xb ∧
    v.blk.evq = w.blk.evq ∧ v.blk.evqDrops = w.blk.evqDrops ∧ v.blk.tone = w.blk.tone ∧ v.blk.cfg = w.blk.cfg) _ w
    (by simp) (fun l a h => h)

/-! The CYCLE. -/

/-- The work after steps 1 and 2. -/
def afterPulse (s : State) : Work := hookPulseStep s.params s.now (shkOf s.data) (drainStep s.work)

/-- The work after step 3. -/
def afterTone (s : State) : Work := toneStep s.params s.now (qOf s.data) (afterPulse s)

/-- The work after step 5. -/
def afterCycle (s : State) : Work := timerStep s.now (ringStep s.params s.now (afterTone s))

theorem execCycle_eq (s : State) :
    execCycle s = .next { s with blk := (afterCycle s).blk, resp := { code := 0, val := 0, trace := (afterCycle s).out } } := rfl

theorem afterPulse_line (s : State) (m : Line) :
    (afterPulse s).blk.line m = lineRec2 s.params s.blk.cfg s.now (shkOf s.data) m (s.blk.line m) := by
  rw [afterPulse, hookPulseStep_line]; rfl

theorem afterPulse_shared (s : State) :
    (afterPulse s).blk.xb = s.blk.xb ∧ (afterPulse s).blk.evq = (drainStep s.work).blk.evq ∧
    (afterPulse s).blk.evqDrops = s.blk.evqDrops ∧ (afterPulse s).blk.tone = s.blk.tone ∧
    (afterPulse s).blk.cfg = s.blk.cfg := hookPulseStep_shared ..

theorem afterPulse_lastReady (s : State) :
    (afterPulse s).blk.lastReady =
      match s.blk.lastReady with
      | none => none
      | some m => if leaves2 s.blk.cfg s.now (shkOf s.data) m (s.blk.line m) then none else some m :=
  hookPulseStep_lastReady ..

theorem afterTone_effect (s : State) : ToneEffect s.params s.now (afterPulse s) (afterTone s) := (toneStep_effect ..).1

theorem afterCycle_line (s : State) (m : Line) :
    (afterCycle s).blk.line m = timerExpiry s.now (ringUpdate s.params s.blk.cfg s.now ((afterTone s).blk.line m)) := by
  rw [afterCycle, (timerStep_effect ..).1, (ringStep_effect ..).1]
  have h : (afterTone s).blk.cfg = s.blk.cfg := (toneStep_effect ..).2.1.cfg.trans (afterPulse_shared s).2.2.2.2
  rw [h]

/-- What a CYCLE leaves in the shared fields. -/
theorem afterCycle_shared (s : State) :
    (afterCycle s).out = (afterTone s).out ∧ (afterCycle s).blk.lastReady = (afterTone s).blk.lastReady ∧
    (afterCycle s).blk.xb = s.blk.xb ∧ (afterCycle s).blk.evqDrops = s.blk.evqDrops ∧ (afterCycle s).blk.cfg = s.blk.cfg ∧
    (afterCycle s).blk.tone = (afterTone s).blk.tone ∧
    (afterCycle s).blk.evq =
      ((drainStep s.work).blk.evq).eraseP (Event.isAt s.blk.cfg.strobeAddr s.blk.cfg.strobePin) := by
  have h5 := (timerStep_effect s.now (ringStep s.params s.now (afterTone s))).2
  have h4 := (ringStep_effect s.params s.now (afterTone s)).2
  have h3 := (toneStep_effect s.params s.now (qOf s.data) (afterPulse s)).2
  have h2 := afterPulse_shared s
  have he : (afterTone s).blk.evq =
      ((drainStep s.work).blk.evq).eraseP (Event.isAt s.blk.cfg.strobeAddr s.blk.cfg.strobePin) := by
    rw [afterTone, h3.2, h2.2.1, h2.2.2.2.2]
  exact ⟨h5.1.trans h4.1, h5.2.1.trans h4.2.1, h5.2.2.1.trans (h4.2.2.1.trans (h3.1.xb.trans h2.1)),
    h5.2.2.2.2.1.trans (h4.2.2.2.2.1.trans (h3.1.evqDrops.trans h2.2.2.1)),
    h5.2.2.2.2.2.2.trans (h4.2.2.2.2.2.2.trans (h3.1.cfg.trans h2.2.2.2.2)),
    h5.2.2.2.2.2.1.trans h4.2.2.2.2.2.1, h5.2.2.2.1.trans (h4.2.2.2.1.trans he)⟩

end Sys2Proof.Machine
end

