-- ==== Sys2Proof/Laws/PerInstr.lean ====
section
/-! SUPPORT. The family of statements made per instruction: the opcode field of a command's word is the opcode of its row, and
the row is assigned (spec/30_encoding.md R101, R104). -/

namespace Sys2Proof.Laws

/-- The word of i carries i's opcode in CMD[31:26], and the opcode map has a row for it. -/
def OpcodeField.Statement (i : Instr) : Prop :=
  fieldOP (encode i) = i.opcode ∧ (opcodeRow i.opcode.toNat).isSome = true

namespace OpcodeField

theorem nop : Statement .nop := ⟨fieldOP_encode _, rfl⟩
theorem eqPush (addr : BitVec 7) (pin : BitVec 4) (lvl : Bool) : Statement (.eqPush addr pin lvl) := ⟨fieldOP_encode _, rfl⟩
theorem eqPollMatch (addr : BitVec 7) (pin : BitVec 4) : Statement (.eqPollMatch addr pin) := ⟨fieldOP_encode _, rfl⟩
theorem eqPollAddr (addr : BitVec 7) : Statement (.eqPollAddr addr) := ⟨fieldOP_encode _, rfl⟩
theorem eqPollAny : Statement .eqPollAny := ⟨fieldOP_encode _, rfl⟩
theorem eqClear : Statement .eqClear := ⟨fieldOP_encode _, rfl⟩
theorem lrSetStatus (la : BitVec 4) (sv : BitVec 4) : Statement (.lrSetStatus la sv) := ⟨fieldOP_encode _, rfl⟩
theorem lrSetTimer (la : BitVec 4) : Statement (.lrSetTimer la) := ⟨fieldOP_encode _, rfl⟩
theorem lrResetTimer (la : BitVec 4) : Statement (.lrResetTimer la) := ⟨fieldOP_encode _, rfl⟩
theorem lrTakeChanges : Statement .lrTakeChanges := ⟨fieldOP_encode _, rfl⟩
theorem lrTakeExpired : Statement .lrTakeExpired := ⟨fieldOP_encode _, rfl⟩
theorem lrSetPeer (la : BitVec 4) (lb : BitVec 4) (sv : BitVec 4) : Statement (.lrSetPeer la lb sv) := ⟨fieldOP_encode _, rfl⟩
theorem lrReadDigit (la : BitVec 4) : Statement (.lrReadDigit la) := ⟨fieldOP_encode _, rfl⟩
theorem lrReadLine (la : BitVec 4) : Statement (.lrReadLine la) := ⟨fieldOP_encode _, rfl⟩
theorem tdActivate : Statement .tdActivate := ⟨fieldOP_encode _, rfl⟩
theorem tdDeactivate : Statement .tdDeactivate := ⟨fieldOP_encode _, rfl⟩
theorem rgStart (la : BitVec 4) : Statement (.rgStart la) := ⟨fieldOP_encode _, rfl⟩
theorem rgStop (la : BitVec 4) : Statement (.rgStop la) := ⟨fieldOP_encode _, rfl⟩
theorem rgStopAll : Statement .rgStopAll := ⟨fieldOP_encode _, rfl⟩
theorem xbSet (la : BitVec 4) (lb : BitVec 4) (sv : BitVec 4) : Statement (.xbSet la lb sv) := ⟨fieldOP_encode _, rfl⟩
theorem xbGet (la : BitVec 4) (lb : BitVec 4) : Statement (.xbGet la lb) := ⟨fieldOP_encode _, rfl⟩
theorem xbAreConnected (la : BitVec 4) (lb : BitVec 4) : Statement (.xbAreConnected la lb) := ⟨fieldOP_encode _, rfl⟩
theorem xbGetConnected (la : BitVec 4) (sv : BitVec 4) : Statement (.xbGetConnected la sv) := ⟨fieldOP_encode _, rfl⟩
theorem xbGetAll (la : BitVec 4) (sv : BitVec 4) : Statement (.xbGetAll la sv) := ⟨fieldOP_encode _, rfl⟩
theorem xbDisconnect (la : BitVec 4) : Statement (.xbDisconnect la) := ⟨fieldOP_encode _, rfl⟩
theorem regRead (reg : BitVec 8) : Statement (.regRead reg) := ⟨fieldOP_encode _, rfl⟩
theorem regWrite (reg : BitVec 8) : Statement (.regWrite reg) := ⟨fieldOP_encode _, rfl⟩
theorem cycle : Statement .cycle := ⟨fieldOP_encode _, rfl⟩

end OpcodeField

end Sys2Proof.Laws
end

