-- ==== Sys2Proof/Machine/Assembler.lean ====
section
/-! DEFINITION. Command sequences as the host writes them: assembler lines and their text (spec/30_encoding.md R112), the
pseudo-instructions (R113), the boot sequence (spec/70_reset_and_hazards.md R342) and one pass of the host loop
(spec/46_system.md R297). No rule of the block depends on them. -/

namespace Sys2Proof.Machine

/-- One line of assembler: an optional time prefix, a command and its DATA operand (R112). -/
structure AsmLine where
  at? : Option Word
  instr : Instr
  data : Word
deriving DecidableEq, Repr

/-- The transactions of a listing: a line without a time prefix has the NOW of the line before it (R112). -/
def assembleFrom (now : Word) : List AsmLine → List Transaction
  | [] => []
  | a :: rest => { cmd := encode a.instr, data := a.data, now := a.at?.getD now } :: assembleFrom (a.at?.getD now) rest

/-- A listing from its first line, whose NOW is 0 when it has no time prefix (R112). -/
def assemble (listing : List AsmLine) : List Transaction := assembleFrom 0 listing

/-- A command with no time prefix. -/
def AsmLine.plain (i : Instr) (data : Word := 0) : AsmLine := { at? := none, instr := i, data := data }

/-- The pseudo-instructions (R113). -/
inductive Pseudo where
  /-- COLLECT: the event of each chip, absent or (address, pin, level). -/
  | collect (events : Vector (Option (BitVec 7 × BitVec 4 × Bool)) nChips)
  | dispatch
  | hangup (l : BitVec 4)
  | connect (a b : BitVec 4)
  | pinMap (l : Line) (addr : BitVec 7) (hook fr rm : BitVec 4)
  | strobe (addr : BitVec 7) (pin : BitVec 4)
deriving DecidableEq, Repr

/-- The expansion of a pseudo-instruction, in order (R113). -/
def Pseudo.expand : Pseudo → List AsmLine
  | .collect events => events.toList.filterMap fun e => e.map fun (addr, pin, lvl) => .plain (.eqPush addr pin lvl)
  | .dispatch => [.plain .lrTakeChanges]
  | .hangup l => [.plain (.lrSetStatus l LineStatus.idle.code), .plain (.xbDisconnect l)]
  | .connect a b => [.plain (.xbSet a b (ConnState.established.code.setWidth 4))]
  | .pinMap l addr hook fr rm =>
    [.plain (.regWrite (CfgReg.pinMap l).number) (PinMap.word { addr := addr, hookPin := hook, frPin := fr, rmPin := rm })]
  | .strobe addr pin => [.plain (.regWrite CfgReg.dtmfStrobe.number) (strobeWord addr pin)]

/-- The write of one configuration register's value. -/
def writeOf (c : Cfg) (r : CfgReg) : AsmLine := .plain (.regWrite r.number) (readCfg c r)

/-- The timing registers 0x01 to 0x0E (R342 item 1). -/
def timingRegs : List CfgReg :=
  [.hookStableMs, .hookStableConsec, .pulseGlitchMs, .pulseDebounceMs, .pulseLowMaxMs, .digitGapMinMs, .pulseTimeoutMs,
   .dtmfStableMs, .dtmfMinToneMs, .dtmfDebounceMs, .dtmfDoneMs, .ringLengthMs, .ringPauseMs, .ringIterations]

/-- The boot sequence of a configuration, in the order of R342; `tone` asks for tone dialing from the start. -/
def bootSequence (c : Cfg) (tone : Bool) : List AsmLine :=
  timingRegs.map (writeOf c) ++ allLines.map (fun l => writeOf c (.pinMap l)) ++
  [writeOf c .dtmfStrobe, writeOf c .ctrl, .plain .eqClear, writeOf c .activeMask] ++
  (if tone then [.plain .tdActivate] else [])

/-- The collect, update and dispatch reads of one pass of the host loop (R297 items 1, 3 and 5). -/
def hostPass (events : Vector (Option (BitVec 7 × BitVec 4 × Bool)) nChips) (shk : BitVec 8) (q : BitVec 4) : List AsmLine :=
  (Pseudo.collect events).expand ++
  [.plain .cycle (place 8 q ||| place 0 shk), .plain .lrTakeChanges, .plain .lrTakeExpired,
   .plain (.regRead StatReg.hookState.number)]

/-! The text of a line (R112). Numbers are written in decimal; an operand that has no name is written as its number. -/

/-- A number operand. -/
def numText {n : Nat} (x : BitVec n) : String := toString x.toNat

/-- A LineStatus operand by name (R33). -/
def statusText (f : BitVec 4) : String :=
  match f.toNat with
  | 0 => "Idle"
  | 1 => "Ready"
  | 2 => "PulseDialing"
  | 3 => "ToneDialing"
  | 4 => "Busy"
  | 5 => "Fail"
  | 6 => "Ringing"
  | 7 => "Connected"
  | 8 => "Disconnected"
  | 9 => "Timeout"
  | 10 => "Abandoned"
  | 11 => "Incoming"
  | 12 => "Operator"
  | 13 => "SystemConfig"
  | _ => numText f

/-- A ConnState operand by name (R45). -/
def connText (f : BitVec 4) : String :=
  match f.toNat with
  | 0 => "None"
  | 1 => "Attempting"
  | 2 => "Ringing"
  | 3 => "Established"
  | _ => numText f

/-- The peer operand of LR_SET_PEER: a line or none. -/
def peerText (f : BitVec 4) : String := if f = 0xF then "none" else numText f

/-- The selector of LR_SET_PEER: in or out. -/
def sideText (f : BitVec 4) : String :=
  match f.toNat with
  | 0 => "in"
  | 1 => "out"
  | _ => numText f

/-- The name of an RW register (R50 to R52). -/
def CfgReg.text : CfgReg → String
  | .activeMask => "ACTIVE_MASK"
  | .hookStableMs => "HOOK_STABLE_MS"
  | .hookStableConsec => "HOOK_STABLE_CONSEC"
  | .pulseGlitchMs => "PULSE_GLITCH_MS"
  | .pulseDebounceMs => "PULSE_DEBOUNCE_MS"
  | .pulseLowMaxMs => "PULSE_LOW_MAX_MS"
  | .digitGapMinMs => "DIGIT_GAP_MIN_MS"
  | .pulseTimeoutMs => "PULSE_TIMEOUT_MS"
  | .dtmfStableMs => "DTMF_STABLE_MS"
  | .dtmfMinToneMs => "DTMF_MIN_TONE_MS"
  | .dtmfDebounceMs => "DTMF_DEBOUNCE_MS"
  | .dtmfDoneMs => "DTMF_DONE_MS"
  | .ringLengthMs => "RING_LENGTH_MS"
  | .ringPauseMs => "RING_PAUSE_MS"
  | .ringIterations => "RING_ITERATIONS"
  | .dtmfStrobe => "DTMF_STROBE"
  | .ctrl => "CTRL"
  | .pinMap l => "PINMAP_" ++ toString l.val

/-- The name of an RO register (R53, R54). -/
def StatReg.text : StatReg → String
  | .ringHalf => "RING_HALF"
  | .lastReady => "LAST_READY"
  | .notIdle => "NOT_IDLE"
  | .change => "CHANGE"
  | .expired => "EXPIRED"
  | .timerArmed => "TIMER_ARMED"
  | .hookState => "HOOK_STATE"
  | .ringOut => "RING_OUT"
  | .evqCount => "EVQ_COUNT"
  | .evqDrops => "EVQ_DROPS"
  | .tdStatus => "TD_STATUS"
  | .params => "PARAMS"
  | .timerEnd l => "TIMER_END_" ++ toString l.val
  | .ring l => "RING_" ++ toString l.val
  | .ringT0 l => "RING_T0_" ++ toString l.val
  | .ringTT l => "RING_TT_" ++ toString l.val

/-- A register operand: its name, or its number where it has none. -/
def regText (n : BitVec 8) : String :=
  match regOfNumber n with
  | some (.rw r) => r.text
  | some (.ro r) => r.text
  | none => numText n

/-- The operands of a command, in the order of R112. -/
def operandTexts (i : Instr) (data : Word) : List String :=
  match i with
  | .nop => []
  | .eqPush addr pin lvl => [numText addr, numText pin, numText (BitVec.ofBool lvl)]
  | .eqPollMatch addr pin => [numText addr, numText pin]
  | .eqPollAddr addr => [numText addr]
  | .eqPollAny => []
  | .eqClear => []
  | .lrSetStatus la sv => [numText la, statusText sv]
  | .lrSetTimer la => [numText la, "#" ++ numText data]
  | .lrResetTimer la => [numText la]
  | .lrTakeChanges => []
  | .lrTakeExpired => []
  | .lrSetPeer la lb sv => [numText la, peerText lb, sideText sv]
  | .lrReadDigit la => [numText la, "#" ++ numText data]
  | .lrReadLine la => [numText la]
  | .tdActivate => []
  | .tdDeactivate => []
  | .rgStart la => [numText la]
  | .rgStop la => [numText la]
  | .rgStopAll => []
  | .xbSet la lb sv => [numText la, numText lb, connText sv]
  | .xbGet la lb => [numText la, numText lb]
  | .xbAreConnected la lb => [numText la, numText lb]
  | .xbGetConnected la sv => [numText la, connText sv]
  | .xbGetAll la sv => [numText la, connText sv]
  | .xbDisconnect la => [numText la]
  | .regRead reg => [regText reg]
  | .regWrite reg => [regText reg, "#" ++ numText data]
  | .cycle => [numText (data.extractLsb' 0 8), numText (data.extractLsb' 8 4)]

/-- The mnemonic of a command (R104). -/
def mnemonicText : Instr → String
  | .nop => "NOP"
  | .eqPush _ _ _ => "EQ_PUSH"
  | .eqPollMatch _ _ => "EQ_POLL_MATCH"
  | .eqPollAddr _ => "EQ_POLL_ADDR"
  | .eqPollAny => "EQ_POLL_ANY"
  | .eqClear => "EQ_CLEAR"
  | .lrSetStatus _ _ => "LR_SET_STATUS"
  | .lrSetTimer _ => "LR_SET_TIMER"
  | .lrResetTimer _ => "LR_RESET_TIMER"
  | .lrTakeChanges => "LR_TAKE_CHANGES"
  | .lrTakeExpired => "LR_TAKE_EXPIRED"
  | .lrSetPeer _ _ _ => "LR_SET_PEER"
  | .lrReadDigit _ => "LR_READ_DIGIT"
  | .lrReadLine _ => "LR_READ_LINE"
  | .tdActivate => "TD_ACTIVATE"
  | .tdDeactivate => "TD_DEACTIVATE"
  | .rgStart _ => "RG_START"
  | .rgStop _ => "RG_STOP"
  | .rgStopAll => "RG_STOP_ALL"
  | .xbSet _ _ _ => "XB_SET"
  | .xbGet _ _ => "XB_GET"
  | .xbAreConnected _ _ => "XB_ARE_CONNECTED"
  | .xbGetConnected _ _ => "XB_GET_CONNECTED"
  | .xbGetAll _ _ => "XB_GET_ALL"
  | .xbDisconnect _ => "XB_DISCONNECT"
  | .regRead _ => "REG_READ"
  | .regWrite _ => "REG_WRITE"
  | .cycle => "CYCLE"

/-- The text of a line: the time prefix, the mnemonic, the operands separated by commas (R112). -/
def AsmLine.text (a : AsmLine) : String :=
  (match a.at? with | some t => "@" ++ numText t ++ " " | none => "") ++ mnemonicText a.instr ++
  (match operandTexts a.instr a.data with | [] => "" | ops => " " ++ ", ".intercalate ops)

end Sys2Proof.Machine
end

