-- ==== Sys2Proof/Tests/Slice0.lean ====
section
/-! SUPPORT. The tests: ill-formed commands, one printed word per command, one-step examples of the rules, and for each statement
with hypotheses a state and operands that meet them. Expected values are those that spec/ prints, or follow from its rules by hand. -/

namespace Sys2Proof.Tests

open Sys2Proof.Machine

/-! Ill-formed commands: one for each check of `Instr.wf`. -/

theorem test_wf_refuses_line_8 : (Instr.lrReadLine 8).wf = false := by decide
theorem test_wf_refuses_status_14 : (Instr.lrSetStatus 3 14).wf = false := by decide
theorem test_wf_refuses_peer_9 : (Instr.lrSetPeer 3 9 0).wf = false := by decide
theorem test_wf_refuses_peer_itself : (Instr.lrSetPeer 3 3 1).wf = false := by decide
theorem test_wf_refuses_selector_2 : (Instr.lrSetPeer 3 5 2).wf = false := by decide
theorem test_wf_refuses_second_line_8 : (Instr.xbSet 1 8 3).wf = false := by decide
theorem test_wf_refuses_equal_lines : (Instr.xbGet 3 3).wf = false := by decide
theorem test_wf_refuses_conn_4 : (Instr.xbSet 1 2 4).wf = false := by decide
theorem test_wf_refuses_unassigned_register : (Instr.regRead 0x11).wf = false := by decide
theorem test_wf_refuses_read_only_register : (Instr.regWrite 0x20).wf = false := by decide
theorem test_wf_takes_peer_none : (Instr.lrSetPeer 3 0xF 1).wf = true := by decide

/-! One word per command, written out from R101 to R104; a word that spec/ prints is marked with its rule. -/

theorem test_decode_nop : decode 0b00000000000000000000000000000000 = .ok .nop := by decide
theorem test_decode_eqPush : decode 0b00000100000000000001000000011100 = .ok (.eqPush 0x20 3 true) := by decide -- R142
theorem test_decode_eqPollMatch : decode 0b00001000000000000001000000011000 = .ok (.eqPollMatch 0x20 3) := by decide -- R143
theorem test_decode_eqPollAddr : decode 0b00001100000000000001000000000000 = .ok (.eqPollAddr 0x20) := by decide -- R144
theorem test_decode_eqPollAny : decode 0b00010000000000000000000000000000 = .ok .eqPollAny := by decide
theorem test_decode_eqClear : decode 0b00010100000000000000000000000000 = .ok .eqClear := by decide
theorem test_decode_lrSetStatus : decode 0b00100000110000000100000000000000 = .ok (.lrSetStatus 3 1) := by decide -- R162
theorem test_decode_lrSetTimer : decode 0b00100100110000000000000000000000 = .ok (.lrSetTimer 3) := by decide -- R164
theorem test_decode_lrResetTimer : decode 0b00101000110000000000000000000000 = .ok (.lrResetTimer 3) := by decide -- R165
theorem test_decode_lrTakeChanges : decode 0b00101100000000000000000000000000 = .ok .lrTakeChanges := by decide
theorem test_decode_lrTakeExpired : decode 0b00110000000000000000000000000000 = .ok .lrTakeExpired := by decide
theorem test_decode_lrSetPeer : decode 0b00110100110101000100000000000000 = .ok (.lrSetPeer 3 5 1) := by decide -- R169
theorem test_decode_lrReadDigit : decode 0b00111000010000000000000000000000 = .ok (.lrReadDigit 1) := by decide
theorem test_decode_lrReadLine : decode 0b00111100100000000000000000000000 = .ok (.lrReadLine 2) := by decide
theorem test_decode_tdActivate : decode 0b01000000000000000000000000000000 = .ok .tdActivate := by decide
theorem test_decode_tdDeactivate : decode 0b01000100000000000000000000000000 = .ok .tdDeactivate := by decide
theorem test_decode_rgStart : decode 0b01010000100000000000000000000000 = .ok (.rgStart 2) := by decide -- R252
theorem test_decode_rgStop : decode 0b01010101010000000000000000000000 = .ok (.rgStop 5) := by decide -- R253
theorem test_decode_rgStopAll : decode 0b01011000000000000000000000000000 = .ok .rgStopAll := by decide
theorem test_decode_xbSet : decode 0b01100000010100001100000000000000 = .ok (.xbSet 1 4 3) := by decide -- R271
theorem test_decode_xbGet : decode 0b01100101000001000000000000000000 = .ok (.xbGet 4 1) := by decide -- R272
theorem test_decode_xbAreConnected : decode 0b01101001000001000000000000000000 = .ok (.xbAreConnected 4 1) := by decide -- R273
theorem test_decode_xbGetConnected : decode 0b01101101100000001000000000000000 = .ok (.xbGetConnected 6 2) := by decide -- R274
theorem test_decode_xbGetAll : decode 0b01110001100000000100000000000000 = .ok (.xbGetAll 6 1) := by decide -- R275
theorem test_decode_xbDisconnect : decode 0b01110101100000000000000000000000 = .ok (.xbDisconnect 6) := by decide -- R276
theorem test_decode_regRead : decode 0b10000000101011000000000000000000 = .ok (.regRead 0x2B) := by decide -- R291
theorem test_decode_regWrite : decode 0b10000100011000000000000000000000 = .ok (.regWrite 0x18) := by decide -- R292
theorem test_decode_cycle : decode 0b11111100000000000000000000000000 = .ok .cycle := by decide
theorem test_decode_reserved_bit : decode 0x64CC0001 = .error .reserved := by decide -- R313
theorem test_decode_unassigned : decode 0x18000001 = .error .illegal := by decide -- R313

/-! Small states. -/

/-- The reset state with another block, DATA and NOW. -/
def mk (b : Block) (d : Word := 0) (n : Word := 0) : State := { State.reset with blk := b, data := d, now := n }

/-- A block with the configuration written. -/
def conf (f : Cfg → Cfg) (b : Block) : Block := b.setCfg (f b.cfg)

/-- A block with the tone decoder written. -/
def tone (f : ToneState → ToneState) (b : Block) : Block := b.setTone (f b.tone)

/-- CODE, VAL and TRACE of a command. -/
def ask (i : Instr) (s : State) : Option (Nat × Nat × List Out) :=
  match exec i s with
  | .next t => some (t.resp.code.toNat, t.resp.val.toNat, t.resp.trace)
  | _ => none

/-- The block after a command. -/
def after (i : Instr) (s : State) : Block :=
  match exec i s with
  | .next t => t.blk
  | _ => s.blk

/-- A register's value in a block. -/
def reg (n : BitVec 8) (b : Block) : Option (Nat × Nat × List Out) := ask (.regRead n) (mk b)

/-- The event of an address, a pin and a level, with its line. -/
def ev (addr : BitVec 7) (pin : BitVec 4) (lvl : Bool) (line : Option Line) : Event :=
  { addr := addr, pin := pin, lvl := lvl, line := line }

/-- PINMAP_2 = 0x320 (R142). -/
def mapped : Block :=
  conf (fun c => { c with pinMap := c.pinMap.set 2 { addr := 0x20, hookPin := 3, frPin := 0, rmPin := 0 } }) Block.reset

/-- The queue of R143's example. -/
def queued : Block :=
  Block.reset.setEvq [ev 0x20 3 true (some 2), ev 0x21 5 false none, ev 0x20 3 false (some 2), ev 0x20 7 true none]

/-- NOTIFY_EN = 1. -/
def notifying : Block := conf (fun c => { c with notifyEn := true }) Block.reset

/-- Line 3 Ready, in the tone decoder's reach. -/
def readyBlock : Block := after (.lrSetStatus 3 1) (mk notifying)

/-- The connections of R271's example. -/
def connected : Block := setPair 2 6 .ringing (setPair 1 6 .attempting (setPair 1 4 .established Block.reset))

/-- The configuration of R252's example. -/
def ringConf : Block :=
  conf (fun c => { c with ringLengthMs := 1000, ringPauseMs := 4000, ringIterations := 1 }) Block.reset

/-- Line 2 rings since time 0. -/
def ringing : Block := after (.rgStart 2) (mk ringConf)

/-- Program P1's configuration (spec/95_test_vectors.md), with line 0 off hook and Ready, and its raw level 1 accepted. -/
def dialing : Block :=
  (conf (fun c => { c with
      activeMask := 1, hookStableMs := 300, hookStableConsec := 2, pulseGlitchMs := 5, pulseDebounceMs := 20,
      pulseLowMaxMs := 100, digitGapMinMs := 200, pulseTimeoutMs := 1000, notifyEn := true }) Block.reset).modifyLine 0
    fun L => { L with
      status := .ready, hook := .off, prevHook := .disconnected, hCand := some true, hCount := 2, gCand := some true, gLevel := some true }

/-- Program P2's configuration, with line 1 Ready and the decoder active. -/
def listening : Block :=
  tone (fun t => { t with active := true })
    (((conf (fun c => { c with
        strobeAddr := 0x21, strobePin := 8, dtmfStableMs := 20, dtmfMinToneMs := 40, dtmfDebounceMs := 200,
        dtmfDoneMs := 3000, notifyEn := true }) Block.reset).modifyLine 1 fun L => { L with status := .ready }).setLastReady (some 1))

/-! One-step examples. -/

theorem test_nop : ask .nop (mk readyBlock 7 9) = some (0, 0, []) := by decide
theorem test_eqPush : ask (.eqPush 0x20 3 true) (mk mapped) = some (0, 1, []) := by decide
theorem test_eqPush_line : (after (.eqPush 0x20 3 true) (mk mapped)).evq = [ev 0x20 3 true (some 2)] := by decide
theorem test_eqPollMatch : ask (.eqPollMatch 0x20 3) (mk queued) = some (0, 0x8000901C, []) := by decide
theorem test_eqPollMatch_rest : (after (.eqPollMatch 0x20 3) (mk queued)).evq =
    [ev 0x21 5 false none, ev 0x20 3 false (some 2), ev 0x20 7 true none] := by decide
theorem test_eqPollAddr : ask (.eqPollAddr 0x21) (mk queued) = some (0, 0x8003D0A8, []) := by decide
theorem test_eqPollAny : ask .eqPollAny (mk queued) = some (0, 0x8000901C, []) := by decide
theorem test_eqPollAny_empty : ask .eqPollAny (mk Block.reset) = some (0, 0, []) := by decide
theorem test_eqClear : ask .eqClear (mk queued) = some (0, 4, []) := by decide
theorem test_eqClear_drops : (after .eqClear (mk (queued.setEvqDrops 7))).evqDrops = 7 := by decide
theorem test_lrSetStatus : ask (.lrSetStatus 3 1) (mk notifying) = some (0, 0, [.notify 3 .ready]) := by decide
theorem test_lrSetStatus_line : ask (.lrReadLine 3) (mk readyBlock) = some (0, 0xFF004A01, []) := by decide
theorem test_lrSetTimer : reg 0x33 (after (.lrSetTimer 3) (mk Block.reset 500 1000)) = some (0, 0x5DC, []) := by decide
theorem test_lrSetTimer_wraps : reg 0x35 (after (.lrSetTimer 5) (mk Block.reset 0xFFFFFFFF 40)) = some (0, 0x27, []) := by decide
theorem test_lrResetTimer : reg 0x25 (after (.lrResetTimer 3) (mk (after (.lrSetTimer 3) (mk Block.reset 500 1000)))) =
    some (0, 0, []) := by decide
theorem test_lrTakeChanges : ask .lrTakeChanges (mk readyBlock) = some (0, 0x08, []) := by decide
theorem test_lrTakeChanges_clears : reg 0x23 (after .lrTakeChanges (mk readyBlock)) = some (0, 0, []) := by decide
theorem test_lrTakeExpired :
    ask .lrTakeExpired (mk (Block.reset.modifyLine 3 fun L => { L with expired := true })) = some (0, 0x08, []) := by decide
theorem test_lrSetPeer : ((after (.lrSetPeer 3 5 1) (mk Block.reset)).line 3).outgoingTo = some 5 := by decide
theorem test_lrSetPeer_itself : ask (.lrSetPeer 3 3 1) (mk Block.reset) = some (4, 0, [.log .cmdError 4 0x0D]) := by decide
theorem test_lrReadDigit :
    ask (.lrReadDigit 0) (mk (Block.reset.modifyLine 0 fun L => { L with digits := [0x31, 0x32] }) 1) = some (0, 0x32, []) := by
  decide
theorem test_lrReadDigit_empty : ask (.lrReadDigit 0) (mk Block.reset) = some (8, 0, [.log .cmdError 8 0x0E]) := by decide
theorem test_lrReadLine : ask (.lrReadLine 0) (mk Block.reset) = some (0, 0xFF000A00, []) := by decide
theorem test_tdActivate : reg 0x2A (after .tdActivate (mk Block.reset)) = some (0, 0xF01, []) := by decide
theorem test_tdDeactivate : reg 0x2A (after .tdDeactivate (mk listening)) = some (0, 0xF00, []) := by decide
theorem test_rgStart : reg 0x27 ringing = some (0, 0x0404, []) := by decide
theorem test_rgStart_again : ask (.rgStart 2) (mk ringing) = some (7, 0, [.log .cmdError 7 0x14]) := by decide
theorem test_rgStop : reg 0x27 (after (.rgStop 2) (mk ringing)) = some (0, 0, []) := by decide
theorem test_rgStop_other : reg 0x27 (after (.rgStop 5) (mk ringing)) = some (0, 0x0404, []) := by decide
theorem test_rgStopAll : reg 0x27 (after .rgStopAll (mk ringing)) = some (0, 0, []) := by decide
theorem test_xbSet : (after (.xbSet 1 4 3) (mk Block.reset)).conn 4 1 = .established := by decide
theorem test_xbSet_order : ask (.xbSet 1 8 4) (mk Block.reset) = some (3, 0, [.log .cmdError 3 0x18]) := by decide
theorem test_xbGet : ask (.xbGet 4 1) (mk connected) = some (0, 3, []) := by decide
theorem test_xbAreConnected : ask (.xbAreConnected 4 1) (mk connected) = some (0, 1, []) := by decide
theorem test_xbAreConnected_attempting : ask (.xbAreConnected 1 6) (mk connected) = some (0, 0, []) := by decide
theorem test_xbGetConnected : ask (.xbGetConnected 6 2) (mk connected) = some (0, 2, []) := by decide
theorem test_xbGetConnected_none : ask (.xbGetConnected 6 3) (mk connected) = some (0, 0xF, []) := by decide
theorem test_xbGetAll : ask (.xbGetAll 6 1) (mk connected) = some (0, 0x06, []) := by decide
theorem test_xbGetAll_threshold_none : ask (.xbGetAll 0 0) (mk connected) = some (0, 0xFE, []) := by decide
theorem test_xbDisconnect : ask (.xbGetAll 1 1) (mk (after (.xbDisconnect 6) (mk connected))) = some (0, 0x10, []) := by decide
/-- R291's example, and HOOK_STATE with line 0 Off and the others Disconnected, as line 28 of program P1 has it. -/
theorem test_regRead :
    ask (.regRead 0x2B) (mk Block.reset) = some (0, 0x00642008, []) ∧ reg 0x26 dialing = some (0, 0xAAA9, []) := by decide
theorem test_regRead_unassigned : ask (.regRead 0x11) (mk Block.reset) = some (6, 0, [.log .cmdError 6 0x20]) := by decide
theorem test_regWrite : ask (.regWrite 0x18) (mk Block.reset 0xFFFFFFFF) = some (0, 0x000FFF7F, []) := by decide
theorem test_regWrite_masks : ask (.regWrite 0x02) (mk Block.reset 0x12345) = some (0, 0x2345, []) := by decide
/-- R195's example: the CYCLE at 760 appends '2' and moves line 0 to PulseDialing. -/
theorem test_cycle_emits_digit :
    ask .cycle (mk (dialing.modifyLine 0 fun L => { L with pPhase := .betweenPulses, pCount := 2, pEdge := 560 }) 1 760) =
      some (0, 0, [.notify 0 .pulseDialing]) := by decide
/-- R228's example: the CYCLE at 1020 reads nibble 5 and moves line 1 to ToneDialing. -/
theorem test_cycle_reads_nibble :
    reg 0x2A (after .cycle (mk (tone (fun t => { t with pending := true, high := true, rise := 1000 }) listening) 0x500 1020)) =
      some (0, 0x15D, []) := by decide

/-! Witnesses: for each statement with hypotheses, states and operands that meet them, each clause at the edge of its range. -/

/-- A state whose next transaction is this one. -/
def given (cmd d n : Word) (b : Block) : State := { mk b with inputs := [{ cmd := cmd, data := d, now := n }] }

/-- The invariant of a block, from its parts at each line. -/
theorem inv_of {s : State}
    (h : ∀ l, ((s.blk.line l).rPhase ≠ .idle → (s.blk.line l).status = .idle) ∧
      ((s.blk.line l).rPhase ≠ .toggling → (s.blk.line l).fr = false ∧ (s.blk.line l).rm = false) ∧
      ((s.blk.line l).rPhase = .toggling → (s.blk.line l).rm = true) ∧
      ((s.blk.line l).pPhase = .idle → (s.blk.line l).pCount = 0) ∧
      ((s.blk.line l).pPhase = .betweenPulses → 1 ≤ (s.blk.line l).pCount.toNat) ∧ (s.blk.line l).pCount.toNat ≤ 10 ∧
      ((s.blk.line l).status = .idle → (s.blk.line l).digits = []) ∧ (s.blk.line l).digits.length ≤ s.params.digitsMax)
    (hr : ∀ l, s.blk.lastReady = some l → (s.blk.line l).status = .ready)
    (hs : ∀ x y, s.blk.conn x y = s.blk.conn y x) (hd : ∀ x, s.blk.conn x x = .none)
    (hq : s.blk.evq.length ≤ s.params.evqCap)
    (ht : (s.blk.tone.active = false → s.blk.tone.pending = false ∧ s.blk.tone.high = false) ∧
      (s.blk.tone.pending = true → s.blk.tone.high = true)) : Inv s where
  lines l :=
    { ring_idle := (h l).1
      idle_low := fun e => (h l).2.1 (by simp [e])
      pause_low := fun e => (h l).2.1 (by simp [e])
      toggling_rm := (h l).2.2.1
      idle_count := (h l).2.2.2.1
      between_count := (h l).2.2.2.2.1
      count_le := (h l).2.2.2.2.2.1
      idle_digits := (h l).2.2.2.2.2.2.1
      digits_le := (h l).2.2.2.2.2.2.2 }
  last_ready := hr
  xb_symm := hs
  xb_diag := hd
  evq_le := hq
  tone := { inactive := ht.1, pending_high := ht.2 }

theorem inv_ringing : Inv (mk ringing 0 1000) :=
  inv_of (by decide) (by decide) (by decide) (by decide) (by decide) (by decide)

theorem inv_queued : Inv (mk queued) :=
  inv_of (by decide) (by decide) (by decide) (by decide) (by decide) (by decide)

theorem inv_dialing : Inv (given 0xFC000000 1 760 dialing) :=
  inv_of (by decide) (by decide) (by decide) (by decide) (by decide) (by decide)

theorem witness_EncodeOfDecoded : decode 0x6050C000 = .ok (.xbSet 1 4 3) ∧ decode 0xFC000000 = .ok .cycle := by decide
theorem witness_MatchAndMaskDecide :
    (⟨0x18, [.LA, .LB, .SV], 0x60000000, 0xFC003FFF⟩ : SpecRow) ∈ specRows ∧
    (0x63FFC000 : Word) &&& 0xFC003FFF = 0x60000000 ∧ (0x60000001 : Word) &&& 0xFC003FFF ≠ 0x60000000 := by decide
theorem witness_StepRunsDecodedCommand :
    (given 0x50800000 0 5 ringConf).inputs = [{ cmd := 0x50800000, data := 0, now := 5 }] ∧
    decode 0x50800000 = .ok (.rgStart 2) := by decide
/-- Opcodes 0x06, 0x1F, 0x22 and 0x3E are unassigned, 0x05, 0x21 and 0x3F are not; bits 0 and 25 of a NOP word are reserved. -/
theorem witness_NonCommandWordsRejected :
    (∀ w ∈ ([0x18000001, 0x7C000000, 0x88000000, 0xF8000000] : List Word), unassignedOpcode (w.toNat / 2 ^ 26)) ∧
    (∀ w ∈ ([0x14000000, 0x84000000, 0xFC000000] : List Word), ¬ unassignedOpcode (w.toNat / 2 ^ 26)) ∧
    (⟨0x00, [], 0x00000000, 0xFFFFFFFF⟩ : SpecRow) ∈ specRows ∧
    ∀ w ∈ ([0x00000001, 0x02000000] : List Word), (0x00 : BitVec 6).toNat = w.toNat / 2 ^ 26 ∧
      w &&& ~~~ (0xFC000000 ||| ([] : List CmdField).foldl (fun m f => m ||| f.mask) 0) ≠ 0 :=
  ⟨by simp [unassignedOpcode], by simp [unassignedOpcode], by decide, by simp⟩
theorem witness_IdleStepWaits : State.reset.inputs = [] := by decide
theorem witness_EveryTransactionCompletes : (given 0xFFFFFFFF 0xFFFFFFFF 0xFFFFFFFF ringing).inputs ≠ [] := by decide
theorem witness_CommandErrorHasNoEffect : ∃ t, step (given 0x50800000 3 5 Block.reset) = .next t ∧ t.resp.code ≠ 0 :=
  ⟨_, rfl, by decide⟩
/-- No command has the word 0x64CC0001: every command's bit 0 is 0. -/
theorem witness_CodeIsFirstFailingCheck_reserved :
    ¬ unassignedOpcode ((0x64CC0001 : Word).toNat / 2 ^ 26) ∧ ∀ i, encode i ≠ 0x64CC0001 := by
  refine ⟨by decide, fun i h => ?_⟩
  have h0 := congrArg (·.getLsbD 0) h
  cases i <;> simp [encode, encodeN, encodeL, encodeE, encodeR, place] at h0
theorem witness_CodeIsFirstFailingCheck :
    unassignedOpcode ((0x18000001 : Word).toNat / 2 ^ 26) ∧ encode (.lrSetPeer 3 9 2) = 0x34E48000 ∧
    expectedCode (.lrSetPeer 3 9 2) State.reset = 3 ∧ expectedCode (.lrSetPeer 3 0xF 2) State.reset = 5 := by decide
theorem witness_CommandReadsNoResponseAndNoLaterInput :
    ∃ t, exec (.regWrite 0) (given 0x84000000 0xFF 0 ringing) = .next t ∧ t.inputs ≠ [] := ⟨_, rfl, by decide⟩
theorem witness_UnreadDataAndTimeIgnored :
    (∃ t, exec .nop (mk ringing) = .next t) ∧ ¬ readsData .nop ∧
    (∃ t, exec .cycle (mk ringing 0x12345FFF) = .next t) ∧
    (0xFFF : Word).setWidth 12 = (mk ringing 0x12345FFF).data.setWidth 12 ∧
    (∀ la, Instr.regWrite 0 ≠ .lrSetTimer la ∧ Instr.regWrite 0 ≠ .rgStart la) ∧ Instr.regWrite 0 ≠ .cycle :=
  ⟨⟨_, rfl⟩, id, ⟨_, rfl⟩, by decide, by decide, by decide⟩
theorem witness_OnlyAllowedRecords :
    (∃ t, exec (.rgStart 2) (mk Block.reset) = .next t ∧ t.resp.code ≠ 0) ∧
    ∃ t, exec (.lrSetStatus 3 1) (mk notifying) = .next t ∧ t.resp.code = 0 ∧ t.resp.trace ≠ [] :=
  ⟨⟨_, rfl, by decide⟩, ⟨_, rfl, by decide, by decide⟩⟩
/-- A CYCLE at the last millisecond before NOW wraps, and the same one 2 ms later. -/
theorem witness_TimeOriginIsUnseen :
    (∀ n, Instr.cycle ≠ .regRead n) ∧ (∃ t, exec .cycle (mk ringing 0 0xFFFFFFFF) = .next t) ∧
    ((mk ringing 0 0xFFFFFFFF).shift 2).now = 1 := ⟨by decide, ⟨_, rfl⟩, by decide⟩
theorem witness_StepKeepsInv :
    Inv (given 0xFC000000 1 760 dialing) ∧
    ∃ t, step (given 0xFC000000 1 760 dialing) = .next t ∧ (t.blk.line 0).hCount ≠ (dialing.line 0).hCount :=
  ⟨inv_dialing, _, rfl, by decide⟩
theorem witness_ReadsAtReset :
    (∀ n ∈ ([0x00, 0x10, 0x18, 0x1F] : List (BitVec 8)), isRW n) ∧ (∀ n ∈ ([0x11, 0x17, 0x20] : List (BitVec 8)), ¬ isRW n) ∧
    (∀ n ∈ ([0x30, 0x4F] : List (BitVec 8)), 0x30 ≤ n.toNat ∧ n.toNat ≤ 0x4F) ∧ (0 : Line) ≠ 7 ∧
    ConnState.attempting ≠ .none := by decide
/-- Three of four places taken, and four of four. -/
theorem witness_PushAppendsOrCountsTheDrop :
    (mk (queued.setEvq (queued.evq.take 3))).blk.evq.length < 4 ∧ 4 ≤ (mk queued).blk.evq.length := by decide
theorem witness_PollsTakeTheFirstMatch :
    queued.evq = queued.evq.take 3 ++ ev 0x20 7 true none :: [] ∧
    (∀ x ∈ queued.evq.take 3, ¬ (x.addr = 0x20 ∧ x.pin = 7)) ∧ (∀ x ∈ queued.evq.take 1, ¬ x.addr = 0x21) ∧
    (∀ x ∈ queued.evq, ¬ x.addr = 0x22) ∧ (∀ x ∈ Block.reset.evq, ¬ True) := by decide
theorem witness_ClearRemovesEveryEvent : (mk queued).params.wf ∧ Inv (mk queued) := ⟨by decide, inv_queued⟩
theorem witness_EventsLeaveOnlyByTheirConsumers :
    (∃ t, exec .eqPollAny (mk queued) = .next t) ∧ ∃ t, exec (.rgStop 2) (mk queued) = .next t := ⟨⟨_, rfl⟩, _, rfl⟩
theorem witness_SetStatusAppliesAndNotifies :
    8 ≤ (8 : BitVec 4).toNat ∧ (7 : BitVec 4).toNat < 8 ∧ 14 ≤ (14 : BitVec 4).toNat ∧ LineStatus.systemConfig.code.toNat < 14 := by
  decide
theorem witness_TimersAreArmedAndCancelled : 8 ≤ (8 : BitVec 4).toNat ∧ (lineCode 7).toNat < 8 := by decide
theorem witness_SetPeerWritesOnePointer :
    (some 2 : Option Line) ≠ some 3 ∧ (none : Option Line) ≠ some 3 ∧ 8 ≤ (8 : BitVec 4).toNat ∧ (14 : BitVec 4).toNat ≤ 14 ∧
    (3 : BitVec 4).toNat < 8 ∧ (0xF : BitVec 4) ≠ 3 ∧ 2 ≤ (2 : BitVec 4).toNat := by decide
theorem witness_ReadDigitAnswersTheCharacter :
    let s := mk (Block.reset.modifyLine 0 fun L => { L with digits := [0x31, 0x32] }) 1
    s.data.toNat < (s.blk.line 0).digits.length ∧
    ({ s with data := 2 }.blk.line 0).digits.length ≤ ({ s with data := 2 } : State).data.toNat := by decide
theorem witness_ReadLineAnswersTheLineWord :
    (mk dialing).params.wf ∧ (dialing.line 0).digits.length ≤ (mk dialing).params.digitsMax ∧ 8 ≤ (8 : BitVec 4).toNat := by decide

/-- The decoder with a pending read since time 1000. -/
def rising : Block := tone (fun t => { t with pending := true, high := true, rise := 1000 }) listening

/-- A strobe event in the queue. -/
def strobe (lvl : Bool) (b : Block) : Block := b.setEvq [ev 0x21 8 lvl none]

/-- Step 3 with an inactive decoder; with no event and the read due at 20 ms, not at 19; with a rise; with a fall while low, while
high at 39 ms and at 40 ms, with and without an active line. -/
theorem witness_ToneStepTakesOneStrobeEvent :
    (strobe true Block.reset).tone.active = false ∧
    (rising.tone.active = true ∧ rising.evq.find? (ofStrobe rising.cfg) = none ∧ rising.tone.pending = true ∧
      Reached 1020 rising.tone.rise rising.cfg.dtmfStableMs ∧ ¬ Reached 1019 rising.tone.rise rising.cfg.dtmfStableMs) ∧
    (strobe true listening).evq.find? (ofStrobe listening.cfg) = some (ev 0x21 8 true none) ∧
    listening.cfg.dtmfStableMs ≠ 0 ∧ (conf (fun c => { c with dtmfStableMs := 0 }) listening).cfg.dtmfStableMs = 0 ∧
    (strobe false listening).evq.find? (ofStrobe listening.cfg) = some (ev 0x21 8 false none) ∧ listening.tone.high = false ∧
    rising.tone.high = true ∧ ((1039 : Word) - rising.tone.rise).toNat < rising.cfg.dtmfMinToneMs.toNat ∧
    ¬ ((1040 : Word) - rising.tone.rise).toNat < rising.cfg.dtmfMinToneMs.toNat ∧
    activeLine rising = some 1 ∧ activeLine (rising.setLastReady none) = none := by decide
theorem witness_ActiveLineIsLastReadyOrStillToneDialing :
    listening.lastReady = some 1 ∧
    (let b := (tone (fun t => { t with line := some 2 }) Block.reset).modifyLine 2 fun L => { L with status := .toneDialing }
     b.lastReady = none ∧ b.tone.line = some 2 ∧ (b.line 2).status = .toneDialing) ∧
    Block.reset.lastReady = none ∧ ∀ l, Block.reset.tone.line = some l → (Block.reset.line l).status ≠ .toneDialing := by decide
/-- Nibble 5 was accepted at time 1000: at 1199 it is repeated, at 1200 and as nibble 6 it is not. -/
theorem witness_NibbleIsCheckedMappedAndAppended :
    let b := tone (fun t => { t with lastNib := some 5, lastNibT := 1000 }) listening
    (5 : BitVec 4) ≠ 0 ∧ (b.tone.lastNib = some 5 ∧ ((1199 : Word) - b.tone.lastNibT).toNat < b.cfg.dtmfDebounceMs.toNat) ∧
    ¬ (b.tone.lastNib = some 5 ∧ ((1200 : Word) - b.tone.lastNibT).toNat < b.cfg.dtmfDebounceMs.toNat) ∧
    ¬ b.tone.lastNib = some 6 ∧ activeLine (b.setLastReady none) = none ∧ activeLine b = some 1 ∧ (b.line 1).status = .ready ∧
    (let c := b.modifyLine 1 fun L => { L with status := .busy }
     activeLine c = some 1 ∧ (c.line 1).status ≠ .ready ∧ (c.line 1).status ≠ .toneDialing) := by decide
theorem witness_RingStartBeginsToggling :
    ((ringConf.line 2).status = .idle ∧ (ringConf.line 2).rPhase = .idle ∧ ringConf.cfg.ringIterations ≠ 0) ∧
    (readyBlock.line 3).status ≠ .idle ∧ (ringing.line 2).rPhase ≠ .idle ∧ Block.reset.cfg.ringIterations = 0 ∧
    8 ≤ (8 : BitVec 4).toNat := by decide
theorem witness_RingStopsZeroThePins :
    (ringing.line 2).rPhase ≠ .idle ∧ (ringing.line 0).rPhase = .idle ∧ 8 ≤ (8 : BitVec 4).toNat := by decide

/-- Line 2 pauses since time 0. -/
def pausing : Block := ringing.modifyLine 2 fun L => { L with rPhase := .pause, fr := false, rm := false }

/-- A Toggling phase over at 1000 ms, the last of one and not of two; inside it a half-period over at 25 ms, not at 24; a Pause over
at 4000 ms, not at 3999; a cadence of a line that is not Idle; an idle cadence. -/
theorem witness_RingStepAdvancesEachLineAlone :
    let L := ringing.line 2
    let P := pausing.line 2
    let c := ringing.cfg
    (L.rPhase = .toggling ∧ L.status = .idle ∧ Reached 1000 L.rT0 c.ringLengthMs ∧
      c.ringIterations.toNat ≤ min (L.rIter.toNat + 1) 255 ∧ ¬ (2 : BitVec 8).toNat ≤ min (L.rIter.toNat + 1) 255) ∧
    (¬ Reached 999 L.rT0 c.ringLengthMs ∧ Reached 25 L.rTT Params.default.ringHalfMs ∧
      ¬ Reached 24 L.rTT Params.default.ringHalfMs) ∧
    (P.rPhase = .pause ∧ Reached 4000 P.rT0 c.ringPauseMs ∧ ¬ Reached 3999 P.rT0 c.ringPauseMs) ∧
    (let B := (ringing.modifyLine 2 fun L => { L with status := .busy }).line 2
     B.rPhase ≠ .idle ∧ B.status ≠ .idle) ∧ (ringing.line 0).rPhase = .idle := by decide
theorem witness_CycleAdvancesTheCadence :
    Inv (mk ringing 0 1000) ∧ (ringing.line 2).rPhase ≠ .idle ∧ (ringing.line 0).rPhase = .idle :=
  ⟨inv_ringing, by decide⟩
theorem witness_XbSetWritesBothEntries :
    (0 : Line) ≠ 7 ∧ ¬ ((1 : Line) = 0 ∧ (7 : Line) = 7) ∧ 8 ≤ (8 : BitVec 4).toNat ∧ (7 : BitVec 4).toNat < 8 ∧
    4 ≤ (4 : BitVec 4).toNat ∧ (6 : BitVec 4) ≠ 7 := by decide
theorem witness_XbPairQueries : (0 : Line) ≠ 7 ∧ 8 ≤ (8 : BitVec 4).toNat ∧ (7 : BitVec 4).toNat < 8 := by decide
theorem witness_XbConnectedQueries :
    let hit := fun (c : ConnState) (y : Line) => y ≠ 6 ∧ c.code.toNat ≤ (connected.conn 6 y).code.toNat
    hit .ringing 2 ∧ (∀ z, z < 2 → ¬ hit .ringing z) ∧ (∀ y, ¬ hit .established y) ∧ hit .none 0 ∧ 8 ≤ (8 : BitVec 4).toNat ∧
    4 ≤ (4 : BitVec 4).toNat := by decide
theorem witness_XbDisconnectClearsRowAndColumn : (1 : Line) ≠ 6 ∧ (4 : Line) ≠ 6 ∧ 8 ≤ (8 : BitVec 4).toNat := by decide
theorem witness_NopAndReadsChangeNothing : ∃ t, exec (.lrReadDigit 9) (mk dialing) = .next t ∧ t.resp.code = 3 :=
  ⟨_, rfl, by decide⟩
theorem witness_RegWriteStoresTheMaskedValue :
    (∀ n ∈ ([0x00, 0x10, 0x18, 0x1F] : List (BitVec 8)), isRW n) ∧ (0x27 : BitVec 8) ≠ 0x00 ∧
    ∃ v, v ≠ 0 ∧ Reads (mk ringing) 0x27 (· = v) := ⟨by decide, by decide, 0x404, by decide, 0x404, rfl, rfl⟩
theorem witness_StatusRegistersRead :
    (mk queued).params.wf ∧ (mk queued).blk.evq.length ≤ (mk queued).params.evqCap := by decide
theorem witness_UnassignedAndReadOnlyRegisters :
    (∀ n ∈ ([0x11, 0x17, 0x2C, 0x2F, 0x50, 0xFF] : List (BitVec 8)), isUnassigned n) ∧
    (∀ n ∈ ([0x20, 0x2B, 0x30, 0x4F] : List (BitVec 8)), isRO n ∧ ¬ isUnassigned n) ∧
    ∀ n ∈ ([0x00, 0x10, 0x18, 0x1F] : List (BitVec 8)), ¬ isUnassigned n := by decide
set_option maxRecDepth 4000 in
/-- Line 0's level is held since time 0: a change restarts the candidate, and on-hook is accepted at 300 ms, not at 299. -/
theorem witness_CycleRunsTheHookFilter :
    let b := dialing.modifyLine 0 fun L => { L with hCand := some false }
    let held := fun n : Word => ((after .cycle (mk b 0 n)).line 0)
    b.cfg.activeMask.getLsbD 0 = true ∧ (b.line 0).hCand = some false ∧ (b.line 0).hCand ≠ some true ∧
    (b.line 0).hook = .off ∧ Reached 300 (held 300).hSince b.cfg.hookStableMs ∧
    b.cfg.hookStableConsec.toNat ≤ (held 300).hCount.toNat ∧ ¬ Reached 299 (held 299).hSince b.cfg.hookStableMs := by decide
set_option maxRecDepth 4000 in
theorem witness_CycleRunsTheGlitchFilter :
    let b := dialing.modifyLine 0 fun L => { L with gCand := some false }
    let held := fun n : Word => ((after .cycle (mk b 0 n)).line 0)
    b.cfg.activeMask.getLsbD 0 = true ∧ (b.line 0).gCand = some false ∧ (b.line 0).gCand ≠ some true ∧
    (b.line 0).gLevel = some true ∧ (b.line 0).gLevel ≠ some false ∧ Reached 5 (held 5).gSince b.cfg.pulseGlitchMs ∧
    ¬ Reached 4 (held 4).gSince b.cfg.pulseGlitchMs ∧ (Block.reset.line 0).gLevel = none := by decide
theorem witness_InactiveLineIsFrozen :
    dialing.cfg.activeMask.getLsbD 7 = false ∧ dialing.tone.active = false ∧
    (∀ i, i < 32 → i ≠ 7 → (0x81 : Word).getLsbD i = (mk dialing 0x01).data.getLsbD i) ∧
    (0x81 : Word) ≠ (mk dialing 0x01).data := by decide
set_option maxRecDepth 4000 in
/-- The gate open on line 0, closed on a reset line, line 7 inactive; line 0 hung up at 300 ms, not at 299; step 2 emits line 0's
digit at 760 and clears the last-ready pointer. -/
theorem witness_CycleRunsThePulseDetector :
    (dialing.cfg.activeMask.getLsbD 0 = true ∧ ((after .cycle (mk dialing 1 5)).line 0).hook = .off ∧
      (dialing.line 0).status = .ready ∧ ((after .cycle (mk Block.reset 1 5)).line 0).hook ≠ .off ∧
      dialing.cfg.activeMask.getLsbD 7 = false) ∧
    (let L := { dialing.line 0 with hCand := some false }
     (dialing.line 0).hook ≠ .on ∧ (filterLine dialing.cfg 300 false L).1.hook = .on ∧
      (filterLine dialing.cfg 299 false L).1.hook ≠ .on) ∧
    let b := (dialing.modifyLine 0 fun L => { L with pPhase := .betweenPulses, pCount := 10, pEdge := 560 }).setLastReady (some 0)
    let w' := hookPulseStep Params.default 760 1 { blk := b, out := [] }
    (w'.blk.line 0).digits = (b.line 0).digits ++ [0x30] ∧ (w'.blk.line 0).status = .pulseDialing ∧
      w'.blk.lastReady = none := by decide
/-- A low period begun at 400: 20 ms and 100 ms are within the bounds, 19 ms and 101 ms are not. -/
theorem witness_EdgeStepFollowsItsTable :
    let b := dialing.modifyLine 0 fun L => { L with pPhase := .inPulse, pEdge := 400 }
    let good := fun t : Word => b.cfg.pulseDebounceMs.toNat ≤ (t - (b.line 0).pEdge).toNat ∧
      (t - (b.line 0).pEdge).toNat ≤ b.cfg.pulseLowMaxMs.toNat
    (dialing.line 0).pPhase ≠ .inPulse ∧ (b.line 0).pPhase = .inPulse ∧ good 420 ∧ good 500 ∧ ¬ good 419 ∧ ¬ good 501 := by decide
/-- A high period begun at 560 ends the digit at 760, not at 759; a low period begun at 400 is late at 1401, not at 1400. -/
theorem witness_GapEmitsTheDigitAndTimeoutResets :
    let b := dialing.modifyLine 0 fun L => { L with pPhase := .betweenPulses, pCount := 10, pEdge := 560 }
    let c := dialing.modifyLine 0 fun L => { L with pPhase := .inPulse, pEdge := 400 }
    ((b.line 0).pPhase = .betweenPulses ∧ Reached 760 (b.line 0).pEdge b.cfg.digitGapMinMs ∧ 1 ≤ (b.line 0).pCount.toNat ∧
      (b.line 0).pCount.toNat ≤ 10 ∧ ¬ Reached 759 (b.line 0).pEdge b.cfg.digitGapMinMs) ∧
    ((c.line 0).pPhase ≠ .betweenPulses ∧ (c.line 0).pPhase ≠ .idle ∧
      c.cfg.pulseTimeoutMs.toNat < ((1401 : Word) - (c.line 0).pEdge).toNat ∧
      ¬ c.cfg.pulseTimeoutMs.toNat < ((1400 : Word) - (c.line 0).pEdge).toNat) := by decide
theorem witness_PulseTrainIsCounted :
    (dialing.line 0).pPhase = .idle ∧ (dialing.line 0).pCount = 0 ∧
    ∀ q ∈ ([(400, 420)] : List (Word × Word)) ++ [(500, 600)], dialing.cfg.pulseDebounceMs.toNat ≤ (q.2 - q.1).toNat ∧
      (q.2 - q.1).toNat ≤ dialing.cfg.pulseLowMaxMs.toNat := ⟨by decide, by decide, by simp; decide⟩
/-- A timer of 500 ms armed at 1000 is due at 1500 and not at 1499. -/
theorem witness_DueTimersExpireInTheCycle :
    let L := (after (.lrSetTimer 3) (mk Block.reset 500 1000)).line 3
    Block.reset.tone.active = false ∧ (L.tArmed = true ∧ Reached 1500 L.tStart L.tDur) ∧
    ¬ (L.tArmed = true ∧ Reached 1499 L.tStart L.tDur) := by decide
theorem witness_StateIsWrittenOnlyByItsCommands :
    (∃ t, exec (.regWrite 0) (mk Block.reset 1) = .next t ∧ t.blk.cfg ≠ Block.reset.cfg) ∧
    (∃ t, exec (.xbDisconnect 6) (mk connected) = .next t ∧ t.blk.xb ≠ connected.xb) ∧
    ∃ t, exec (.lrSetStatus 2 7) (mk ringing) = .next t ∧ (t.blk.line 2).ring ≠ (ringing.line 2).ring ∧
      (t.blk.line 2).change ≠ (ringing.line 2).change :=
  ⟨⟨_, rfl, by decide⟩, ⟨_, rfl, by decide⟩, _, rfl, by decide, by decide⟩

end Sys2Proof.Tests
end

section
/-! PROOFS. One transaction: what a command can answer, and which fields of the machine its answer depends on
(spec/00_scope.md R6, R7, R12; spec/60_exceptions.md R311, R312). -/

namespace Sys2Proof.Machine

/-! EQ_PUSH (R142). -/

section EqPush

variable {addr : BitVec 7} {pin : BitVec 4} {lvl : Bool} {s : State}

theorem execEqPush_of_room (h : s.blk.evq.length < s.params.evqCap) :
    execEqPush addr pin lvl s =
      respond s (s.work.onBlk fun b =>
        b.setEvq (b.evq ++ [{ addr := addr, pin := pin, lvl := lvl, line := deriveLine s.blk addr pin }])) 1 := if_pos h

theorem execEqPush_of_full (h : ¬ s.blk.evq.length < s.params.evqCap) :
    execEqPush addr pin lvl s =
      respond s ((s.work.onBlk fun b => b.setEvqDrops (satInc 0xFFFFFFFF b.evqDrops)).emit
        (.log .evqOverflow (addr.setWidth 16) (pin.setWidth 16))) 0 := if_neg h

end EqPush

/-! What a command answers. -/

/-- The two answers a command has: it is performed and ends with CODE 0, or it raises a command error (R11, R311). -/
inductive Answers (i : Instr) (s : State) : Result → Prop where
  | performed (w : Work) (v : Word) : Answers i s (respond s w v)
  | rejected (e : Err) : Answers i s (raiseErr e i s)

theorem checked_answers {α : Type} {i : Instr} {s : State} {ops : Except Err α} {k : α → Result}
    (hk : ∀ a, Answers i s (k a)) : Answers i s (checked i s ops k) := by
  cases ops with
  | error e => exact .rejected e
  | ok a => exact hk a

/-- EQ_PUSH is performed whether or not the queue has room (R142). -/
theorem execEqPush_answers (addr : BitVec 7) (pin : BitVec 4) (lvl : Bool) (s : State) :
    Answers (.eqPush addr pin lvl) s (execEqPush addr pin lvl s) := by
  by_cases hroom : s.blk.evq.length < s.params.evqCap
  · rw [execEqPush_of_room hroom]
    exact .performed ..
  · rw [execEqPush_of_full hroom]
    exact .performed ..

/-- LR_READ_DIGIT has a check behind its operand's (R171). -/
theorem execLrReadDigit_answers (la : BitVec 4) (s : State) :
    Answers (.lrReadDigit la) s (execLrReadDigit la s) := by
  refine checked_answers fun l => ?_
  split
  · exact .rejected _
  · exact .performed ..

/-- RG_START has a check behind its operand's (R252). -/
theorem execRgStart_answers (la : BitVec 4) (s : State) : Answers (.rgStart la) s (execRgStart la s) := by
  refine checked_answers fun l => ?_
  split
  · exact .performed ..
  · exact .rejected _

/-- Every command is performed or raises a command error. -/
theorem exec_answers (i : Instr) (s : State) : Answers i s (exec i s) := by
  cases i with
  | nop => exact .performed ..
  | eqPush addr pin lvl => exact execEqPush_answers addr pin lvl s
  | eqPollMatch => exact .performed ..
  | eqPollAddr => exact .performed ..
  | eqPollAny => exact .performed ..
  | eqClear => exact .performed ..
  | lrSetStatus => exact checked_answers fun _ => .performed ..
  | lrSetTimer => exact checked_answers fun _ => .performed ..
  | lrResetTimer => exact checked_answers fun _ => .performed ..
  | lrTakeChanges => exact .performed ..
  | lrTakeExpired => exact .performed ..
  | lrSetPeer => exact checked_answers fun _ => .performed ..
  | lrReadDigit la => exact execLrReadDigit_answers la s
  | lrReadLine => exact checked_answers fun _ => .performed ..
  | tdActivate => exact .performed ..
  | tdDeactivate => exact .performed ..
  | rgStart la => exact execRgStart_answers la s
  | rgStop => exact checked_answers fun _ => .performed ..
  | rgStopAll => exact .performed ..
  | xbSet => exact checked_answers fun _ => .performed ..
  | xbGet => exact checked_answers fun _ => .performed ..
  | xbAreConnected => exact checked_answers fun _ => .performed ..
  | xbGetConnected => exact checked_answers fun _ => .performed ..
  | xbGetAll => exact checked_answers fun _ => .performed ..
  | xbDisconnect => exact checked_answers fun _ => .performed ..
  | regRead => exact checked_answers fun _ => .performed ..
  | regWrite => exact checked_answers fun _ => .performed ..
  | cycle => exact .performed ..

/-- A word's transaction completes: only the block and the response change, the block only with CODE 0, and the CODE is one
of R312. -/
def Completes (s : State) (res : Result) : Prop :=
  ∃ (b : Block) (r : Response), res = .next { s with blk := b, resp := r } ∧ (r.code ≠ 0 → b = s.blk) ∧ r.code.toNat ≤ 8

theorem Err.code_le (e : Err) : e.code.toNat ≤ 8 := by cases e <;> decide

theorem respond_completes (s : State) (w : Work) (v : Word) : Completes s (respond s w v) :=
  ⟨w.blk, _, rfl, fun h => absurd rfl h, Nat.zero_le _⟩

theorem rejected_completes (s : State) (e : Err) (op : BitVec 6) : Completes s (.next (s.rejected e op)) :=
  ⟨s.blk, _, rfl, fun _ => rfl, e.code_le⟩

theorem Answers.completes {i : Instr} {s : State} {res : Result} (h : Answers i s res) : Completes s res := by
  cases h with
  | performed w v => exact respond_completes s w v
  | rejected e => exact rejected_completes s e i.opcode

/-- A word that is no command completes too, with the decoder's error (R105). -/
theorem perform_completes (cmd : Word) (s : State) : Completes s (perform cmd s) := by
  unfold perform
  split
  · exact (exec_answers _ s).completes
  · exact rejected_completes s _ _

/-! One step. -/

/-- A step with a pending transaction performs its word in the state that has taken it (R6). -/
theorem step_of_inputs {s : State} {t : Transaction} {rest : List Transaction} (h : s.inputs = t :: rest) :
    step s = perform t.cmd (s.take t rest) := by
  simp only [step, nextTransaction, h]

theorem perform_of_decode {cmd : Word} {i : Instr} (h : decode cmd = .ok i) (s : State) : perform cmd s = exec i s := by
  simp only [perform, h]

/-- Settles O9: every word's answer is one of the two that `Completes` covers. -/
theorem everyTransactionCompletes : Obligations.EveryTransactionCompletes := by
  intro s t rest hin
  rw [step_of_inputs hin]
  exact perform_completes t.cmd (s.take t rest)

/-! A change of the machine around a command: the answer changes with it. -/

/-- The answer with its next state changed by g. -/
def mapNext (g : State → State) : Result → Result
  | .next s => .next (g s)
  | .fault r => .fault r
  | .refused r => .refused r

@[simp] theorem mapNext_next (g : State → State) (s : State) : mapNext g (.next s) = .next (g s) := rfl

/-- A checked command follows a change of the state when its rejection and its performance do: the operands are the same. -/
theorem checked_mapNext {α : Type} {i : Instr} {s u : State} {ops : Except Err α} {k k' : α → Result} (g : State → State)
    (hrej : ∀ e op, u.rejected e op = g (s.rejected e op)) (hk : ∀ a, k' a = mapNext g (k a)) :
    checked i u ops k' = mapNext g (checked i s ops k) := by
  cases ops with
  | error e => exact congrArg Host.Outcome.next (hrej e i.opcode)
  | ok a => exact hk a

/-! The last response and the later transactions. -/

/-- The machine with another last response and other transactions to come (R6, R12). -/
def State.withHost (s : State) (r : Response) (ins : List Transaction) : State := { s with resp := r, inputs := ins }

/-- The machine with other transactions to come. -/
def State.withInputs (ins : List Transaction) (s : State) : State := { s with inputs := ins }

@[simp] theorem withHost_blk (s : State) (r : Response) (ins : List Transaction) : (s.withHost r ins).blk = s.blk := rfl
@[simp] theorem withHost_data (s : State) (r : Response) (ins : List Transaction) : (s.withHost r ins).data = s.data := rfl

theorem respond_withHost (s : State) (r : Response) (ins : List Transaction) (w : Work) (v : Word) :
    respond (s.withHost r ins) w v = mapNext (State.withInputs ins) (respond s w v) := rfl

theorem raiseErr_withHost (s : State) (r : Response) (ins : List Transaction) (e : Err) (i : Instr) :
    raiseErr e i (s.withHost r ins) = mapNext (State.withInputs ins) (raiseErr e i s) := rfl

theorem checked_withHost {α : Type} {i : Instr} {s : State} {r : Response} {ins : List Transaction} {ops : Except Err α}
    {k k' : α → Result} (hk : ∀ a, k' a = mapNext (State.withInputs ins) (k a)) :
    checked i (s.withHost r ins) ops k' = mapNext (State.withInputs ins) (checked i s ops k) :=
  checked_mapNext (State.withInputs ins) (fun _ _ => rfl) hk

theorem execEqPush_withHost (addr : BitVec 7) (pin : BitVec 4) (lvl : Bool) (s : State) (r : Response)
    (ins : List Transaction) :
    execEqPush addr pin lvl (s.withHost r ins) = mapNext (State.withInputs ins) (execEqPush addr pin lvl s) := by
  by_cases hroom : s.blk.evq.length < s.params.evqCap
  · rw [execEqPush_of_room hroom, execEqPush_of_room (s := s.withHost r ins) hroom]
    exact respond_withHost ..
  · rw [execEqPush_of_full hroom, execEqPush_of_full (s := s.withHost r ins) hroom]
    exact respond_withHost ..

theorem execLrReadDigit_withHost (la : BitVec 4) (s : State) (r : Response) (ins : List Transaction) :
    execLrReadDigit la (s.withHost r ins) = mapNext (State.withInputs ins) (execLrReadDigit la s) := by
  refine checked_withHost fun l => ?_
  rw [withHost_blk, withHost_data]
  cases (s.blk.line l).digits[s.data.toNat]? with
  | none => exact raiseErr_withHost ..
  | some ch => exact respond_withHost ..

theorem execRgStart_withHost (la : BitVec 4) (s : State) (r : Response) (ins : List Transaction) :
    execRgStart la (s.withHost r ins) = mapNext (State.withInputs ins) (execRgStart la s) := by
  refine checked_withHost fun l => ?_
  rw [withHost_blk]
  split
  · exact respond_withHost ..
  · exact raiseErr_withHost ..

/-- No command reads the last response or a later transaction. -/
theorem exec_withHost (i : Instr) (s : State) (r : Response) (ins : List Transaction) :
    exec i (s.withHost r ins) = mapNext (State.withInputs ins) (exec i s) := by
  cases i with
  | nop => exact respond_withHost ..
  | eqPush addr pin lvl => exact execEqPush_withHost addr pin lvl s r ins
  | eqPollMatch => exact respond_withHost ..
  | eqPollAddr => exact respond_withHost ..
  | eqPollAny => exact respond_withHost ..
  | eqClear => exact respond_withHost ..
  | lrSetStatus => exact checked_withHost fun _ => rfl
  | lrSetTimer => exact checked_withHost fun _ => rfl
  | lrResetTimer => exact checked_withHost fun _ => rfl
  | lrTakeChanges => exact respond_withHost ..
  | lrTakeExpired => exact respond_withHost ..
  | lrSetPeer => exact checked_withHost fun _ => rfl
  | lrReadDigit la => exact execLrReadDigit_withHost la s r ins
  | lrReadLine => exact checked_withHost fun _ => rfl
  | tdActivate => exact respond_withHost ..
  | tdDeactivate => exact respond_withHost ..
  | rgStart la => exact execRgStart_withHost la s r ins
  | rgStop => exact checked_withHost fun _ => rfl
  | rgStopAll => exact respond_withHost ..
  | xbSet => exact checked_withHost fun _ => rfl
  | xbGet => exact checked_withHost fun _ => rfl
  | xbAreConnected => exact checked_withHost fun _ => rfl
  | xbGetConnected => exact checked_withHost fun _ => rfl
  | xbGetAll => exact checked_withHost fun _ => rfl
  | xbDisconnect => exact checked_withHost fun _ => rfl
  | regRead => exact checked_withHost fun _ => rfl
  | regWrite => exact checked_withHost fun _ => rfl
  | cycle => exact respond_withHost ..

/-- Settles O12: the machine with another response and other transactions answers with those transactions. -/
theorem commandReadsNoResponseAndNoLaterInput : Obligations.CommandReadsNoResponseAndNoLaterInput := by
  intro i s s' r ins h
  have hmap := exec_withHost i s r ins
  rwa [h] at hmap

/-- Settles O6: the step takes the transaction, and its word performs the command that it decodes to. -/
theorem stepRunsDecodedCommand : Obligations.StepRunsDecodedCommand := by
  intro s t rest i hin hdec
  rw [step_of_inputs hin, perform_of_decode hdec]
  rfl

/-- Settles O8: with no transaction the port answers the same state. -/
theorem idleStepWaits : Obligations.IdleStepWaits := by
  intro s hin
  simp only [step, nextTransaction, hin]

end Sys2Proof.Machine
end

section
/-! PROOFS. The origin of time (spec/00_scope.md R10): every operation of the block, run with each timestamp and NOW later by k,
leaves what it would have left, with each timestamp later by k. The lemmas are stated to pull the shift outwards. -/

namespace Sys2Proof.Machine

/-- The difference of two times shows no origin. -/
@[simp] theorem elapsed_shift (now t k : Word) : elapsed (now + k) (t + k) = elapsed now t :=
  add_sub_add_right_eq_sub now t k

/-! What a shifted line record shows: its timestamps are later, the rest is as before. -/

namespace LineRec

variable (k : Word) (L : LineRec)

@[simp] theorem shift_tStart : (L.shift k).tStart = L.tStart + k := rfl
@[simp] theorem shift_hSince : (L.shift k).hSince = L.hSince + k := rfl
@[simp] theorem shift_gSince : (L.shift k).gSince = L.gSince + k := rfl
@[simp] theorem shift_pEdge : (L.shift k).pEdge = L.pEdge + k := rfl
@[simp] theorem shift_rT0 : (L.shift k).rT0 = L.rT0 + k := rfl
@[simp] theorem shift_rTT : (L.shift k).rTT = L.rTT + k := rfl
@[simp] theorem shift_status : (L.shift k).status = L.status := rfl
@[simp] theorem shift_hook : (L.shift k).hook = L.hook := rfl
@[simp] theorem shift_digits : (L.shift k).digits = L.digits := rfl
@[simp] theorem shift_tArmed : (L.shift k).tArmed = L.tArmed := rfl
@[simp] theorem shift_tDur : (L.shift k).tDur = L.tDur := rfl
@[simp] theorem shift_hCand : (L.shift k).hCand = L.hCand := rfl
@[simp] theorem shift_hCount : (L.shift k).hCount = L.hCount := rfl
@[simp] theorem shift_gCand : (L.shift k).gCand = L.gCand := rfl
@[simp] theorem shift_gLevel : (L.shift k).gLevel = L.gLevel := rfl
@[simp] theorem shift_pPhase : (L.shift k).pPhase = L.pPhase := rfl
@[simp] theorem shift_pCount : (L.shift k).pCount = L.pCount := rfl
@[simp] theorem shift_rPhase : (L.shift k).rPhase = L.rPhase := rfl

end LineRec

/-! What a shifted block shows. -/

namespace Block

variable (k : Word) (b : Block)

@[simp] theorem shift_line (l : Line) : (b.shift k).line l = (b.line l).shift k := by
  simp [Block.shift, Block.line]

@[simp] theorem shift_lastReady : (b.shift k).lastReady = b.lastReady := rfl
@[simp] theorem shift_xb : (b.shift k).xb = b.xb := rfl
@[simp] theorem shift_evq : (b.shift k).evq = b.evq := rfl
@[simp] theorem shift_evqDrops : (b.shift k).evqDrops = b.evqDrops := rfl
@[simp] theorem shift_tone : (b.shift k).tone = b.tone.shift k := rfl
@[simp] theorem shift_cfg : (b.shift k).cfg = b.cfg := rfl
@[simp] theorem shift_active (l : Line) : (b.shift k).active l = b.active l := rfl

/-- A write to one line's record, shifted, is the shifted record's write. -/
theorem shift_modifyLine {l : Line} {f g : LineRec → LineRec}
    (h : g ((b.line l).shift k) = (f (b.line l)).shift k) :
    (b.shift k).modifyLine l g = (b.modifyLine l f).shift k := by
  refine Block.ext_lines (fun m => ?_) rfl rfl rfl rfl rfl rfl
  by_cases hm : m = l
  · subst hm
    simp [h]
  · simp [line_modifyLine_ne _ _ hm]

end Block

/-! A shifted transaction in progress. -/

/-- A transaction in progress with its block's timestamps k later. -/
def Work.shift (k : Word) (w : Work) : Work := { w with blk := w.blk.shift k }

@[simp] theorem Work.shift_blk (k : Word) (w : Work) : (w.shift k).blk = w.blk.shift k := rfl

theorem Work.shift_emit (k : Word) (w : Work) (r : Out) : (w.shift k).emit r = (w.emit r).shift k := rfl

theorem Work.shift_modifyLine (k : Word) (w : Work) {l : Line} {f g : LineRec → LineRec}
    (h : g ((w.blk.line l).shift k) = (f (w.blk.line l)).shift k) :
    (w.shift k).modifyLine l g = (w.modifyLine l f).shift k :=
  congrArg (Work.mk · w.out) (w.blk.shift_modifyLine k h)

theorem Work.shift_onTone (k : Word) (w : Work) {f g : ToneState → ToneState}
    (h : g (w.blk.tone.shift k) = (f w.blk.tone).shift k) : (w.shift k).onTone g = (w.onTone f).shift k := by
  unfold Work.onTone Work.onBlk
  simp only [Work.shift_blk, Block.shift_tone, h]
  rfl

/-- A loop over the lines commutes with a change of the state when each pass does. -/
theorem forLines_commute {α : Type} (σ : α → α) {f g : Line → α → α} (h : ∀ l a, g l (σ a) = σ (f l a)) (a : α) :
    forLines g (σ a) = σ (forLines f a) :=
  (forLines_induct₂ (fun x y => σ x = y) f g a (σ a) rfl fun l x _ hxy => by rw [← hxy, h]).symm

/-! The line registry (R160 to R170). -/

theorem applyStatus_shift (k : Word) (st : LineStatus) (L : LineRec) :
    applyStatus st (L.shift k) = (applyStatus st L).shift k := by
  by_cases hst : st = .idle
  · subst hst
    rfl
  · simp only [applyStatus, hst, if_false, LineRec.shift_rPhase, ne_eq, not_false_eq_true, true_and]
    split
    · rfl
    · rfl

theorem notify_shift (k : Word) (l : Line) (st : LineStatus) (w : Work) :
    notify l st (w.shift k) = (notify l st w).shift k := by
  unfold notify
  rw [Work.shift_blk, Block.shift_cfg]
  split
  · rfl
  · rfl

theorem setStatus_shift (k : Word) (l : Line) (st : LineStatus) (w : Work) :
    setStatus l st (w.shift k) = (setStatus l st w).shift k := by
  have hblk := w.blk.shift_modifyLine k (l := l) (applyStatus_shift k st _)
  unfold setStatus
  rw [← notify_shift]
  simp only [Work.onBlk, Work.shift_blk, hblk]
  rfl

theorem appendDigit_shift (k : Word) (p : Params) (l : Line) (ch : Byte) (w : Work) :
    appendDigit p l ch (w.shift k) = (appendDigit p l ch w).shift k := by
  simp only [appendDigit, Work.shift_blk, Block.shift_line, LineRec.shift_digits]
  split
  · exact w.shift_modifyLine k (by rfl)
  · rfl

theorem setLineTimer_shift (k now d : Word) (L : LineRec) :
    setLineTimer (now + k) d (L.shift k) = (setLineTimer now d L).shift k := rfl

theorem setPeer_shift (k : Word) (side : PeerSide) (peer : Option Line) (L : LineRec) :
    setPeer side peer (L.shift k) = (setPeer side peer L).shift k := by
  cases side with
  | incoming => rfl
  | outgoing => rfl

/-- Step 5 of a CYCLE (R166). -/
theorem timerStep_shift (k now : Word) (w : Work) : timerStep (now + k) (w.shift k) = (timerStep now w).shift k := by
  refine forLines_commute (Work.shift k) (fun l v => v.shift_modifyLine k ?_) w
  simp only [timerExpiry, LineRec.shift_tArmed, LineRec.shift_tDur, LineRec.shift_tStart, elapsed_shift,
    apply_ite (LineRec.shift k)]
  rfl

/-! The filters and the pulse detector (R190 to R197). -/

/-- An edge with its timestamp k later. -/
def Edge.shift (k : Word) : Edge → Edge
  | .falling t => .falling (t + k)
  | .rising t => .rising (t + k)

theorem hookFilter_shift (k : Word) (c : Cfg) (now : Word) (r : Bool) (L : LineRec) :
    hookFilter c (now + k) r (L.shift k) = (hookFilter c now r L).shift k := by
  have hsample : hookSample (now + k) r (L.shift k) = (hookSample now r L).shift k := by
    simp only [hookSample, LineRec.shift_hCand, apply_ite (LineRec.shift k)]
    rfl
  have haccept : ∀ M : LineRec, hookAccept c (now + k) r (M.shift k) = (hookAccept c now r M).shift k := by
    intro M
    simp only [hookAccept, LineRec.shift_hook, LineRec.shift_hSince, LineRec.shift_hCount, elapsed_shift,
      apply_ite (LineRec.shift k)]
    rfl
  rw [hookFilter, hsample, haccept]
  rfl

theorem edgeOf_shift (k : Word) (old : Option Bool) (r : Bool) (t : Word) :
    edgeOf old r (t + k) = (edgeOf old r t).map (Edge.shift k) := by
  simp only [edgeOf, apply_ite (Option.map (Edge.shift k))]
  rfl

theorem glitchFilter_shift (k : Word) (c : Cfg) (now : Word) (r : Bool) (L : LineRec) :
    glitchFilter c (now + k) r (L.shift k) =
      ((glitchFilter c now r L).1.shift k, (glitchFilter c now r L).2.map (Edge.shift k)) := by
  have hsample : glitchSample (now + k) r (L.shift k) = (glitchSample now r L).shift k := by
    simp only [glitchSample, LineRec.shift_gCand, apply_ite (LineRec.shift k)]
    rfl
  have haccept : ∀ M : LineRec, glitchAccept c (now + k) r (M.shift k) =
      ((glitchAccept c now r M).1.shift k, (glitchAccept c now r M).2.map (Edge.shift k)) := by
    intro M
    simp only [glitchAccept, LineRec.shift_gLevel, LineRec.shift_gCand, LineRec.shift_gSince, elapsed_shift, edgeOf_shift]
    split
    · rfl
    · rfl
  rw [glitchFilter, hsample, haccept]
  rfl

theorem filterLine_shift (k : Word) (c : Cfg) (now : Word) (r : Bool) (L : LineRec) :
    filterLine c (now + k) r (L.shift k) =
      ((filterLine c now r L).1.shift k, (filterLine c now r L).2.map (Edge.shift k)) := by
  rw [filterLine, hookFilter_shift, glitchFilter_shift]
  rfl

theorem endPulse_shift (k : Word) (l : Line) (t : Word) (w : Work) :
    endPulse l (t + k) (w.shift k) = (endPulse l t w).shift k := by
  have hd : t + k - ((w.blk.line l).pEdge + k) = t - (w.blk.line l).pEdge := add_sub_add_right_eq_sub ..
  simp only [endPulse, Work.shift_blk, Block.shift_line, Block.shift_cfg, LineRec.shift_pEdge, hd]
  split
  · exact w.shift_modifyLine k (by rfl)
  · rw [Work.shift_emit]
    exact Work.shift_modifyLine k _ (by rfl)

theorem edgeStep_shift (k : Word) (l : Line) (e : Option Edge) (w : Work) :
    edgeStep l (e.map (Edge.shift k)) (w.shift k) = (edgeStep l e w).shift k := by
  unfold edgeStep
  rw [Work.shift_blk, Block.shift_line, LineRec.shift_pPhase]
  rcases e with _ | t | t
  · cases (w.blk.line l).pPhase <;> rfl
  · cases (w.blk.line l).pPhase with
    | idle => exact w.shift_modifyLine k (by rfl)
    | inPulse => rfl
    | betweenPulses => exact w.shift_modifyLine k (by rfl)
  · cases (w.blk.line l).pPhase with
    | idle => rfl
    | inPulse => exact endPulse_shift ..
    | betweenPulses => rfl

theorem pulseIdle_shift (k : Word) (l : Line) (w : Work) :
    (w.shift k).modifyLine l pulseIdle = (w.modifyLine l pulseIdle).shift k := w.shift_modifyLine k rfl

theorem emitDigit_shift (k : Word) (p : Params) (l : Line) (w : Work) :
    emitDigit p l (w.shift k) = (emitDigit p l w).shift k := by
  simp only [emitDigit, Work.shift_blk, Block.shift_line, LineRec.shift_pCount, LineRec.shift_status, pulseIdle_shift,
    appendDigit_shift, setStatus_shift, apply_ite (Work.shift k)]

theorem pulseTimeout_shift (k : Word) (l : Line) (w : Work) :
    pulseTimeout l (w.shift k) = (pulseTimeout l w).shift k := by
  simp only [pulseTimeout, Work.shift_blk, Block.shift_line, LineRec.shift_pPhase, Work.shift_emit, pulseIdle_shift]

theorem gapAndTimeout_shift (k : Word) (p : Params) (now : Word) (l : Line) (w : Work) :
    gapAndTimeout p (now + k) l (w.shift k) = (gapAndTimeout p now l w).shift k := by
  simp only [gapAndTimeout, Work.shift_blk, Block.shift_line, Block.shift_cfg, LineRec.shift_pPhase, LineRec.shift_pEdge,
    elapsed_shift, emitDigit_shift, pulseTimeout_shift, apply_ite (Work.shift k)]

theorem pulseDetector_shift (k : Word) (p : Params) (now : Word) (l : Line) (e : Option Edge) (w : Work) :
    pulseDetector p (now + k) l (e.map (Edge.shift k)) (w.shift k) = (pulseDetector p now l e w).shift k := by
  have hgate : ∀ L : LineRec, pulseGate (L.shift k) = pulseGate L := fun _ => rfl
  simp only [pulseDetector, Work.shift_blk, Block.shift_line, hgate, edgeStep_shift, gapAndTimeout_shift, pulseIdle_shift,
    apply_ite (Work.shift k)]

/-- Step 2 of a CYCLE (R190). -/
theorem hookPulseStep_shift (k : Word) (p : Params) (now : Word) (shk : BitVec 8) (w : Work) :
    hookPulseStep p (now + k) shk (w.shift k) = (hookPulseStep p now shk w).shift k := by
  refine forLines_commute (Work.shift k) (fun l v => ?_) w
  simp only [hookPulseLine, Work.shift_blk, Block.shift_line, Block.shift_cfg, Block.shift_active, filterLine_shift]
  split
  · rw [← pulseDetector_shift]
    exact congrArg (pulseDetector p (now + k) l _) (v.shift_modifyLine k (by rfl))
  · rfl

/-! The tone decoder (R222 to R230). -/

theorem activeLine_shift (k : Word) (b : Block) : activeLine (b.shift k) = activeLine b := by
  unfold activeLine
  rw [Block.shift_lastReady, Block.shift_tone]
  simp only [ToneState.shift, Block.shift_line, LineRec.shift_status]

theorem endTone_shift (k now : Word) (w : Work) : endTone (now + k) (w.shift k) = (endTone now w).shift k := by
  have hd : elapsed (now + k) (w.blk.tone.shift k).rise = elapsed now w.blk.tone.rise := elapsed_shift ..
  have hp : (w.blk.tone.shift k).pending = w.blk.tone.pending := rfl
  simp only [endTone, Work.shift_blk, Block.shift_tone, Block.shift_cfg, hd, hp, activeLine_shift]
  split
  · rfl
  · cases activeLine w.blk with
    | none => rfl
    | some l => exact w.shift_modifyLine k (setLineTimer_shift ..)

theorem fallingEdge_shift (k now : Word) (w : Work) :
    fallingEdge (now + k) (w.shift k) = (fallingEdge now w).shift k := by
  have hh : (w.blk.tone.shift k).high = w.blk.tone.high := rfl
  simp only [fallingEdge, Work.shift_blk, Block.shift_tone, hh, endTone_shift, ← apply_ite (Work.shift k)]
  exact Work.shift_onTone k _ rfl

theorem strobeEdge_shift (k now : Word) (ev : Option Event) (w : Work) :
    strobeEdge (now + k) ev (w.shift k) = (strobeEdge now ev w).shift k := by
  cases ev with
  | none => rfl
  | some e =>
    have hrise : risingEdge (now + k) (w.shift k) = (risingEdge now w).shift k := w.shift_onTone k rfl
    simp only [strobeEdge, hrise, fallingEdge_shift, apply_ite (Work.shift k)]

theorem appendTone_shift (k : Word) (p : Params) (n : BitVec 4) (w : Work) :
    appendTone p n (w.shift k) = (appendTone p n w).shift k := by
  unfold appendTone
  rw [Work.shift_blk, activeLine_shift]
  cases activeLine w.blk with
  | none => rfl
  | some l =>
    have htone : ∀ v : Work, ((v.shift k).onTone fun t => { t with line := some l }) =
        (v.onTone fun t => { t with line := some l }).shift k := fun v => v.shift_onTone k rfl
    simp only [Block.shift_line, LineRec.shift_status, appendDigit_shift, htone, Work.shift_blk, setStatus_shift,
      Work.shift_emit, apply_ite (Work.shift k)]

theorem acceptNibble_shift (k : Word) (p : Params) (now : Word) (n : BitVec 4) (w : Work) :
    acceptNibble p (now + k) n (w.shift k) = (acceptNibble p now n w).shift k := by
  have hlast : (w.blk.tone.shift k).lastNib = w.blk.tone.lastNib := rfl
  have hd : elapsed (now + k) (w.blk.tone.shift k).lastNibT = elapsed now w.blk.tone.lastNibT := elapsed_shift ..
  simp only [acceptNibble, Work.shift_blk, Block.shift_tone, Block.shift_cfg, hlast, hd]
  split
  · rfl
  · split
    · rfl
    · rw [← appendTone_shift]
      exact congrArg (appendTone p n) (w.shift_onTone k (by rfl))

theorem stabilityCheck_shift (k : Word) (p : Params) (now : Word) (q : BitVec 4) (w : Work) :
    stabilityCheck p (now + k) q (w.shift k) = (stabilityCheck p now q w).shift k := by
  have hp : (w.blk.tone.shift k).pending = w.blk.tone.pending := rfl
  have hd : elapsed (now + k) (w.blk.tone.shift k).rise = elapsed now w.blk.tone.rise := elapsed_shift ..
  simp only [stabilityCheck, Work.shift_blk, Block.shift_tone, Block.shift_cfg, hp, hd]
  split
  · rw [← acceptNibble_shift]
    exact congrArg (acceptNibble p (now + k) q) (w.shift_onTone k (by rfl))
  · rfl

/-- Step 3 of a CYCLE (R225). -/
theorem toneStep_shift (k : Word) (p : Params) (now : Word) (q : BitVec 4) (w : Work) :
    toneStep p (now + k) q (w.shift k) = (toneStep p now q w).shift k := by
  have hevq : ∀ r : List Event, ((w.shift k).onBlk fun b => b.setEvq r) = (w.onBlk fun b => b.setEvq r).shift k :=
    fun _ => rfl
  have hactive : ∀ t : ToneState, (t.shift k).active = t.active := fun _ => rfl
  simp only [toneStep, hevq, Work.shift_blk, Block.shift_cfg, Block.shift_evq, Block.shift_tone, hactive, strobeEdge_shift,
    stabilityCheck_shift, apply_ite (Work.shift k)]

/-! The ring cadence (R251 to R257). -/

theorem stopRing_shift (k : Word) (L : LineRec) : stopRing (L.shift k) = (stopRing L).shift k := by
  simp only [stopRing, LineRec.shift_rPhase, apply_ite (LineRec.shift k)]
  rfl

theorem endToggling_shift (k : Word) (c : Cfg) (now : Word) (L : LineRec) :
    endToggling c (now + k) (L.shift k) = (endToggling c now L).shift k := by
  simp only [endToggling, apply_ite (LineRec.shift k)]
  rfl

theorem togglingPhase_shift (k : Word) (p : Params) (c : Cfg) (now : Word) (L : LineRec) :
    togglingPhase p c (now + k) (L.shift k) = (togglingPhase p c now L).shift k := by
  simp only [togglingPhase, LineRec.shift_rT0, LineRec.shift_rTT, elapsed_shift, endToggling_shift,
    apply_ite (LineRec.shift k)]
  rfl

theorem pausePhase_shift (k : Word) (c : Cfg) (now : Word) (L : LineRec) :
    pausePhase c (now + k) (L.shift k) = (pausePhase c now L).shift k := by
  simp only [pausePhase, LineRec.shift_rT0, elapsed_shift, apply_ite (LineRec.shift k)]
  rfl

theorem ringUpdate_shift (k : Word) (p : Params) (c : Cfg) (now : Word) (L : LineRec) :
    ringUpdate p c (now + k) (L.shift k) = (ringUpdate p c now L).shift k := by
  unfold ringUpdate
  rw [LineRec.shift_rPhase]
  cases L.rPhase with
  | idle => rfl
  | toggling =>
    simp only [LineRec.shift_status, togglingPhase_shift, apply_ite (LineRec.shift k)]
    rfl
  | pause =>
    simp only [LineRec.shift_status, pausePhase_shift, apply_ite (LineRec.shift k)]
    rfl

/-- Step 4 of a CYCLE (R255). -/
theorem ringStep_shift (k : Word) (p : Params) (now : Word) (w : Work) :
    ringStep p (now + k) (w.shift k) = (ringStep p now w).shift k :=
  forLines_commute (Work.shift k) (fun _ v => v.shift_modifyLine k (ringUpdate_shift k p v.blk.cfg now _)) w

/-- The five steps of a CYCLE (R296). -/
theorem cycleSteps_shift (k : Word) (p : Params) (now : Word) (shk : BitVec 8) (q : BitVec 4) (w : Work) :
    cycleSteps p (now + k) shk q (w.shift k) = (cycleSteps p now shk q w).shift k := by
  have hdrain : drainStep (w.shift k) = (drainStep w).shift k := rfl
  simp only [cycleSteps, hdrain, hookPulseStep_shift, toneStep_shift, ringStep_shift, timerStep_shift]

/-! The flags, the line word and the matrix (R39, R55, R276). -/

theorem clearChanges_shift (k : Word) (b : Block) : (b.shift k).clearChanges = b.clearChanges.shift k :=
  forLines_commute (Block.shift k) (fun _ c => c.shift_modifyLine k (by rfl)) b

theorem clearExpired_shift (k : Word) (b : Block) : (b.shift k).clearExpired = b.clearExpired.shift k :=
  forLines_commute (Block.shift k) (fun _ c => c.shift_modifyLine k (by rfl)) b

theorem disconnectLine_shift (k : Word) (x : Line) (b : Block) :
    disconnectLine x (b.shift k) = (disconnectLine x b).shift k := by
  unfold disconnectLine
  exact forLines_commute (Block.shift k) (fun _ _ => by rfl) b

theorem changeMask_shift (k : Word) (b : Block) : (b.shift k).changeMask = b.changeMask := by
  simp only [Block.changeMask, Block.shift_line]
  rfl

theorem expiredMask_shift (k : Word) (b : Block) : (b.shift k).expiredMask = b.expiredMask := by
  simp only [Block.expiredMask, Block.shift_line]
  rfl

theorem lineWord_shift (k : Word) (b : Block) (l : Line) : lineWord (b.shift k) l = lineWord b l := by
  simp only [lineWord, Block.shift_line, Block.shift_active]
  rfl

/-! The commands. -/

@[simp] theorem State.shift_blk (k : Word) (s : State) : (s.shift k).blk = s.blk.shift k := rfl
@[simp] theorem State.shift_data (k : Word) (s : State) : (s.shift k).data = s.data := rfl

/-- A performed command's answer is shifted when its work is. -/
theorem respond_shift {k : Word} {s : State} {w w' : Work} (v : Word) (h : w' = w.shift k) :
    respond (s.shift k) w' v = mapNext (State.shift k) (respond s w v) := by
  rw [h]
  rfl

theorem raiseErr_shift (k : Word) (s : State) (e : Err) (i : Instr) :
    raiseErr e i (s.shift k) = mapNext (State.shift k) (raiseErr e i s) := rfl

theorem checked_shift {α : Type} {k : Word} {i : Instr} {s : State} {ops : Except Err α} {f g : α → Result}
    (h : ∀ a, g a = mapNext (State.shift k) (f a)) :
    checked i (s.shift k) ops g = mapNext (State.shift k) (checked i s ops f) :=
  checked_mapNext (State.shift k) (fun _ _ => rfl) h

theorem execEqPush_shift (addr : BitVec 7) (pin : BitVec 4) (lvl : Bool) (s : State) (k : Word) :
    execEqPush addr pin lvl (s.shift k) = mapNext (State.shift k) (execEqPush addr pin lvl s) := by
  by_cases hroom : s.blk.evq.length < s.params.evqCap
  · rw [execEqPush_of_room hroom, execEqPush_of_room (s := s.shift k) hroom]
    exact respond_shift 1 rfl
  · rw [execEqPush_of_full hroom, execEqPush_of_full (s := s.shift k) hroom]
    exact respond_shift 0 rfl

theorem execLrReadDigit_shift (la : BitVec 4) (s : State) (k : Word) :
    execLrReadDigit la (s.shift k) = mapNext (State.shift k) (execLrReadDigit la s) := by
  refine checked_shift fun l => ?_
  rw [State.shift_blk, Block.shift_line, LineRec.shift_digits, State.shift_data]
  cases (s.blk.line l).digits[s.data.toNat]? with
  | none => exact raiseErr_shift ..
  | some ch => exact respond_shift _ rfl

theorem execRgStart_shift (la : BitVec 4) (s : State) (k : Word) :
    execRgStart la (s.shift k) = mapNext (State.shift k) (execRgStart la s) := by
  refine checked_shift fun l => ?_
  have hstart : ringStartable s.blk.cfg ((s.blk.line l).shift k) = ringStartable s.blk.cfg (s.blk.line l) := rfl
  rw [State.shift_blk, Block.shift_cfg, Block.shift_line, hstart]
  split
  · exact respond_shift 0 (s.work.shift_modifyLine k (by rfl))
  · exact raiseErr_shift ..

theorem execRgStopAll_shift (s : State) (k : Word) :
    execRgStopAll (s.shift k) = mapNext (State.shift k) (execRgStopAll s) :=
  respond_shift 0 (forLines_commute (Work.shift k) (fun _ v => v.shift_modifyLine k (stopRing_shift k _)) s.work)

theorem execLrTakeChanges_shift (s : State) (k : Word) :
    execLrTakeChanges (s.shift k) = mapNext (State.shift k) (execLrTakeChanges s) := by
  rw [execLrTakeChanges, State.shift_blk, changeMask_shift]
  exact respond_shift _ (congrArg (Work.mk · []) (clearChanges_shift k s.blk))

theorem execLrTakeExpired_shift (s : State) (k : Word) :
    execLrTakeExpired (s.shift k) = mapNext (State.shift k) (execLrTakeExpired s) := by
  rw [execLrTakeExpired, State.shift_blk, expiredMask_shift]
  exact respond_shift _ (congrArg (Work.mk · []) (clearExpired_shift k s.blk))

theorem execLrReadLine_shift (la : BitVec 4) (s : State) (k : Word) :
    execLrReadLine la (s.shift k) = mapNext (State.shift k) (execLrReadLine la s) := by
  refine checked_shift fun l => ?_
  rw [State.shift_blk, lineWord_shift]
  exact respond_shift _ rfl

/-- Every command but REG_READ commutes with a shift of the origin of time. -/
theorem exec_shift {i : Instr} (hread : ∀ n, i ≠ .regRead n) (s : State) (k : Word) :
    exec i (s.shift k) = mapNext (State.shift k) (exec i s) := by
  cases i with
  | nop => exact respond_shift _ rfl
  | eqPush addr pin lvl => exact execEqPush_shift addr pin lvl s k
  | eqPollMatch => exact respond_shift _ rfl
  | eqPollAddr => exact respond_shift _ rfl
  | eqPollAny => exact respond_shift _ rfl
  | eqClear => exact respond_shift _ rfl
  | lrSetStatus => exact checked_shift fun ⟨l, st⟩ => respond_shift 0 (setStatus_shift k l st s.work)
  | lrSetTimer => exact checked_shift fun _ => respond_shift 0 (s.work.shift_modifyLine k (setLineTimer_shift ..))
  | lrResetTimer => exact checked_shift fun _ => respond_shift 0 (s.work.shift_modifyLine k (by rfl))
  | lrTakeChanges => exact execLrTakeChanges_shift s k
  | lrTakeExpired => exact execLrTakeExpired_shift s k
  | lrSetPeer => exact checked_shift fun ⟨_, peer, side⟩ =>
      respond_shift 0 (s.work.shift_modifyLine k (setPeer_shift k side peer _))
  | lrReadDigit la => exact execLrReadDigit_shift la s k
  | lrReadLine la => exact execLrReadLine_shift la s k
  | tdActivate => exact respond_shift 0 (s.work.shift_onTone k (by rfl))
  | tdDeactivate => exact respond_shift 0 (s.work.shift_onTone k (by rfl))
  | rgStart la => exact execRgStart_shift la s k
  | rgStop => exact checked_shift fun _ => respond_shift 0 (s.work.shift_modifyLine k (stopRing_shift k _))
  | rgStopAll => exact execRgStopAll_shift s k
  | xbSet => exact checked_shift fun _ => respond_shift _ rfl
  | xbGet => exact checked_shift fun _ => respond_shift _ rfl
  | xbAreConnected => exact checked_shift fun _ => respond_shift _ rfl
  | xbGetConnected => exact checked_shift fun _ => respond_shift _ rfl
  | xbGetAll => exact checked_shift fun _ => respond_shift _ rfl
  | xbDisconnect => exact checked_shift fun x => respond_shift 0 (congrArg (Work.mk · []) (disconnectLine_shift k x s.blk))
  | regRead n => exact absurd rfl (hread n)
  | regWrite => exact checked_shift fun _ => respond_shift _ rfl
  | cycle => exact respond_shift 0 (cycleSteps_shift k s.params s.now (shkOf s.data) (qOf s.data) s.work)

/-- Settles O15: the shift commutes with each operation, and so with each command. -/
theorem timeOriginIsUnseen : Obligations.TimeOriginIsUnseen := by
  intro i s s' k hread h
  have hmap := exec_shift hread s k
  rwa [h] at hmap

end Sys2Proof.Machine
end

section
/-! PROOFS. What each command writes: one inversion of `exec` for the block (spec/10_state.md R31), from which the invariants and the
writers of each piece of state are read off. -/

namespace Sys2Proof.Machine

/-! The record after a status is set (R160). -/

/-- The record after setStatus, field by field. -/
theorem applyStatus_eq (st : LineStatus) (L : LineRec) :
    applyStatus st L =
      { L with
        status := st
        prevStatus := L.status
        digits := if st = .idle then [] else L.digits
        incomingFrom := if st = .idle then none else L.incomingFrom
        outgoingTo := if st = .idle then none else L.outgoingTo
        tArmed := if st = .idle then false else L.tArmed
        expired := if st = .idle then false else L.expired
        rPhase := if st = .idle then L.rPhase else .idle
        fr := if st ≠ .idle ∧ L.rPhase ≠ .idle then false else L.fr
        rm := if st ≠ .idle ∧ L.rPhase ≠ .idle then false else L.rm
        change := true } := by
  by_cases hst : st = .idle
  · subst hst
    rfl
  · by_cases hring : L.rPhase = .idle
    · simp [applyStatus, hst, hring]
    · simp [applyStatus, hst, hring, forceStop]

/-! What a command writes in one record. -/

/-- What a command other than LR_SET_STATUS and CYCLE may write in the record of a line (R163 to R169, R251 to R254). -/
inductive LineWrite (s : State) : Instr → LineRec → LineRec → Prop where
  | setTimer (la : BitVec 4) (L : LineRec) : LineWrite s (.lrSetTimer la) L (setLineTimer s.now s.data L)
  | resetTimer (la : BitVec 4) (L : LineRec) : LineWrite s (.lrResetTimer la) L (cancelTimer L)
  | takeChange (L : LineRec) : LineWrite s .lrTakeChanges L { L with change := false }
  | takeExpired (L : LineRec) : LineWrite s .lrTakeExpired L { L with expired := false }
  | peer (la lb sv : BitVec 4) (side : PeerSide) (o : Option Line) (L : LineRec) :
      LineWrite s (.lrSetPeer la lb sv) L (setPeer side o L)
  | startRing (la : BitVec 4) (L : LineRec) (h : ringStartable s.blk.cfg L = true) :
      LineWrite s (.rgStart la) L (beginToggling s.now { L with rIter := 0 })
  | stopRing (la : BitVec 4) (L : LineRec) : LineWrite s (.rgStop la) L (stopRing L)
  | stopAll (L : LineRec) : LineWrite s .rgStopAll L (Machine.stopRing L)

/-- The commands that take events out of the queue, CYCLE apart (R143 to R146). -/
inductive TakesEvents : Instr → Prop where
  | pollMatch (addr : BitVec 7) (pin : BitVec 4) : TakesEvents (.eqPollMatch addr pin)
  | pollAddr (addr : BitVec 7) : TakesEvents (.eqPollAddr addr)
  | pollAny : TakesEvents .eqPollAny
  | clear : TakesEvents .eqClear

/-- What a command that answers may leave as the block. -/
inductive Wrote (s : State) : Instr → Block → Prop where
  | nothing (i : Instr) : Wrote s i s.blk
  | pushed (addr : BitVec 7) (pin : BitVec 4) (lvl : Bool) (e : Event) (hroom : s.blk.evq.length < s.params.evqCap) :
      Wrote s (.eqPush addr pin lvl) (s.blk.setEvq (s.blk.evq ++ [e]))
  | dropped (addr : BitVec 7) (pin : BitVec 4) (lvl : Bool) (n : Word) :
      Wrote s (.eqPush addr pin lvl) (s.blk.setEvqDrops n)
  | taken {i : Instr} (hi : TakesEvents i) {q : List Event} (hq : q.Sublist s.blk.evq) : Wrote s i (s.blk.setEvq q)
  | lines {i : Instr} {b : Block} (hl : ∀ m, b.line m = s.blk.line m ∨ LineWrite s i (s.blk.line m) (b.line m))
      (hs : SharedSame s.blk b) : Wrote s i b
  | status (la sv : BitVec 4) (l : Line) (st : LineStatus) : Wrote s (.lrSetStatus la sv) (setStatus l st s.work).blk
  | toneOn : Wrote s .tdActivate (s.blk.setTone (switchTone true s.blk.tone))
  | toneOff : Wrote s .tdDeactivate (s.blk.setTone (switchTone false s.blk.tone))
  | pair (la lb sv : BitVec 4) (x y : Line) (hxy : x ≠ y) (c : ConnState) : Wrote s (.xbSet la lb sv) (setPair x y c s.blk)
  | unpaired (la : BitVec 4) (x : Line) : Wrote s (.xbDisconnect la) (disconnectLine x s.blk)
  | config (reg : BitVec 8) (r : CfgReg) : Wrote s (.regWrite reg) (Machine.regWrite s.blk r s.data)
  | cycle : Wrote s .cycle (afterCycle s).blk

/-- A command that updates the record of one line. -/
theorem Wrote.oneLine {s : State} {i : Instr} {l : Line} {f : LineRec → LineRec}
    (h : LineWrite s i (s.blk.line l) (f (s.blk.line l))) : Wrote s i (s.blk.modifyLine l f) := by
  refine .lines (fun m => ?_) ⟨rfl, rfl, rfl, rfl, rfl, rfl⟩
  by_cases hm : m = l
  · subst hm
    exact .inr (by rwa [line_modifyLine_same])
  · exact .inl (line_modifyLine_ne _ _ hm)

/-- A command that updates the record of every line. -/
theorem Wrote.everyLine {s : State} {i : Instr} {f : Line → LineRec → LineRec}
    (h : ∀ m, LineWrite s i (s.blk.line m) (f m (s.blk.line m))) :
    Wrote s i (forLines (fun l b => b.modifyLine l (f l)) s.blk) := by
  obtain ⟨hready, hxb, hevq, hdrops, htone, hcfg⟩ := forLines_modifyLine_shared f s.blk
  exact .lines (fun m => .inr (by rw [forLines_modifyLine_line]; exact h m)) ⟨hready, hxb, hevq, hdrops, htone, hcfg⟩

/-! The inversion of `exec`. -/

/-- The answer leaves the parameters, and the block as one of the writes leaves it. -/
def Leaves (i : Instr) (s : State) (res : Result) : Prop := ∀ t, res = .next t → t.params = s.params ∧ Wrote s i t.blk

theorem respond_leaves {i : Instr} {s : State} {w : Work} {v : Word} (h : Wrote s i w.blk) : Leaves i s (respond s w v) := by
  rintro t ⟨⟩
  exact ⟨rfl, h⟩

theorem respondLine_leaves {i : Instr} {s : State} {l : Line} {f : LineRec → LineRec} {v : Word}
    (h : LineWrite s i (s.blk.line l) (f (s.blk.line l))) : Leaves i s (respond s (s.work.modifyLine l f) v) :=
  respond_leaves (.oneLine h)

theorem raiseErr_leaves (e : Err) (i : Instr) (s : State) : Leaves i s (raiseErr e i s) := by
  rintro t ⟨⟩
  exact ⟨rfl, .nothing i⟩

theorem checked_leaves {α : Type} {i : Instr} {s : State} {ops : Except Err α} {k : α → Result}
    (hk : ∀ a, ops = .ok a → Leaves i s (k a)) : Leaves i s (checked i s ops k) := by
  cases ops with
  | error e => exact raiseErr_leaves e i s
  | ok a => exact hk a rfl

theorem execEqPush_leaves (addr : BitVec 7) (pin : BitVec 4) (lvl : Bool) (s : State) :
    Leaves (.eqPush addr pin lvl) s (execEqPush addr pin lvl s) := by
  by_cases hroom : s.blk.evq.length < s.params.evqCap
  · rw [execEqPush_of_room hroom]
    exact respond_leaves (.pushed addr pin lvl _ hroom)
  · rw [execEqPush_of_full hroom]
    exact respond_leaves (.dropped addr pin lvl _)

theorem poll_leaves {i : Instr} (hi : TakesEvents i) (pred : Event → Bool) (s : State) : Leaves i s (poll pred s) :=
  respond_leaves (.taken hi (removeFirst_sublist pred s.blk.evq))

theorem execLrReadDigit_leaves (la : BitVec 4) (s : State) : Leaves (.lrReadDigit la) s (execLrReadDigit la s) := by
  refine checked_leaves fun l _ => ?_
  split
  · exact raiseErr_leaves _ _ s
  · exact respond_leaves (.nothing _)

theorem execRgStart_leaves (la : BitVec 4) (s : State) : Leaves (.rgStart la) s (execRgStart la s) := by
  refine checked_leaves fun l _ => ?_
  split
  · exact respondLine_leaves (.startRing la _ ‹_›)
  · exact raiseErr_leaves _ _ s

/-- RG_STOP_ALL's loop runs on the work; its block is the loop on the block (R254). -/
theorem execRgStopAll_leaves (s : State) : Leaves .rgStopAll s (execRgStopAll s) := by
  have hblk : (forLines (fun l w => w.modifyLine l stopRing) s.work).blk =
      forLines (fun l b => b.modifyLine l stopRing) s.blk :=
    forLines_induct₂ (fun (w : Work) b => w.blk = b) _ _ s.work s.blk rfl fun _ _ _ h => h ▸ rfl
  refine respond_leaves ?_
  rw [hblk]
  exact .everyLine (f := fun _ => stopRing) fun _ => .stopAll _

/-- The pair of XB_SET is of two distinct lines (R270). -/
theorem pairOperand_ne {la lb : BitVec 4} {x y : Line} (h : pairOperand la lb = .ok (x, y)) : x ≠ y := by
  unfold pairOperand at h
  cases ha : lineOperand la with
  | error e => simp [ha, bind, Except.bind] at h
  | ok a =>
    cases hb : lineOperand lb with
    | error e => simp [ha, hb, bind, Except.bind] at h
    | ok b =>
      by_cases hab : a = b
      · simp [ha, hb, hab, bind, Except.bind] at h
      · simp [ha, hb, hab, bind, Except.bind] at h
        obtain ⟨rfl, rfl⟩ := h
        exact hab

theorem xbSetOperands_ne {la lb sv : BitVec 4} {x y : Line} {c : ConnState}
    (h : xbSetOperands la lb sv = .ok (x, y, c)) : x ≠ y := by
  unfold xbSetOperands at h
  cases hp : pairOperand la lb with
  | error e => simp [hp, bind, Except.bind] at h
  | ok p =>
    cases hc : connOperand sv with
    | error e => simp [hp, hc, bind, Except.bind] at h
    | ok d =>
      simp [hp, hc, bind, Except.bind] at h
      obtain ⟨rfl, rfl, rfl⟩ := h
      exact pairOperand_ne hp

/-- Every command that answers leaves the parameters, and the block as one of the writes leaves it. -/
theorem exec_leaves (i : Instr) (s : State) : Leaves i s (exec i s) := by
  cases i with
  | nop => exact respond_leaves (.nothing _)
  | eqPush addr pin lvl => exact execEqPush_leaves addr pin lvl s
  | eqPollMatch addr pin => exact poll_leaves (.pollMatch addr pin) _ s
  | eqPollAddr addr => exact poll_leaves (.pollAddr addr) _ s
  | eqPollAny => exact poll_leaves .pollAny _ s
  | eqClear => exact respond_leaves (.taken .clear (List.nil_sublist _))
  | lrSetStatus la sv => exact checked_leaves fun ⟨l, st⟩ _ => respond_leaves (.status la sv l st)
  | lrSetTimer la => exact checked_leaves fun _ _ => respondLine_leaves (.setTimer la _)
  | lrResetTimer la => exact checked_leaves fun _ _ => respondLine_leaves (.resetTimer la _)
  | lrTakeChanges => exact respond_leaves (.everyLine (f := fun _ L => { L with change := false }) fun _ => .takeChange _)
  | lrTakeExpired => exact respond_leaves (.everyLine (f := fun _ L => { L with expired := false }) fun _ => .takeExpired _)
  | lrSetPeer la lb sv => exact checked_leaves fun ⟨_, o, side⟩ _ => respondLine_leaves (.peer la lb sv side o _)
  | lrReadDigit la => exact execLrReadDigit_leaves la s
  | lrReadLine => exact checked_leaves fun _ _ => respond_leaves (.nothing _)
  | tdActivate => exact respond_leaves .toneOn
  | tdDeactivate => exact respond_leaves .toneOff
  | rgStart la => exact execRgStart_leaves la s
  | rgStop la => exact checked_leaves fun _ _ => respondLine_leaves (.stopRing la _)
  | rgStopAll => exact execRgStopAll_leaves s
  | xbSet la lb sv => exact checked_leaves fun ⟨x, y, c⟩ h => respond_leaves (.pair la lb sv x y (xbSetOperands_ne h) c)
  | xbGet => exact checked_leaves fun _ _ => respond_leaves (.nothing _)
  | xbAreConnected => exact checked_leaves fun _ _ => respond_leaves (.nothing _)
  | xbGetConnected => exact checked_leaves fun _ _ => respond_leaves (.nothing _)
  | xbGetAll => exact checked_leaves fun _ _ => respond_leaves (.nothing _)
  | xbDisconnect la => exact checked_leaves fun x _ => respond_leaves (.unpaired la x)
  | regRead => exact checked_leaves fun _ _ => respond_leaves (.nothing _)
  | regWrite reg => exact checked_leaves fun r _ => respond_leaves (.config reg r)
  | cycle => exact respond_leaves .cycle

end Sys2Proof.Machine
end

section
/-! PROOFS. The invariants of spec/10_state.md R48: they hold at reset, and each operation of the block keeps them. -/

namespace Sys2Proof.Machine

/-! The operations on one record. -/

section LineInvariant

variable {p : Params} {c : Cfg} {now : Word} {L : LineRec}

theorem LineInv.of_reset (p : Params) : LineInv p LineRec.reset where
  ring_idle := fun _ => rfl
  idle_low := fun _ => ⟨rfl, rfl⟩
  pause_low := nofun
  toggling_rm := nofun
  idle_count := fun _ => rfl
  between_count := nofun
  count_le := Nat.zero_le _
  idle_digits := fun _ => rfl
  digits_le := Nat.zero_le _

/-- A status of the registry or of a decoder (R160): on Idle the digits are cleared, else the cadence is stopped. -/
theorem LineInv.applyStatus (h : LineInv p L) (st : LineStatus) : LineInv p (applyStatus st L) := by
  rw [applyStatus_eq]
  by_cases hst : st = .idle
  · subst hst
    exact { h with
      ring_idle := fun _ => rfl
      idle_low := fun hr => by simpa using h.idle_low hr
      pause_low := fun hr => by simpa using h.pause_low hr
      toggling_rm := fun hr => by simpa using h.toggling_rm hr
      idle_digits := fun _ => rfl
      digits_le := Nat.zero_le _ }
  · have low : (if st ≠ .idle ∧ L.rPhase ≠ .idle then false else L.fr) = false ∧
        (if st ≠ .idle ∧ L.rPhase ≠ .idle then false else L.rm) = false := by
      by_cases hr : L.rPhase = .idle
      · simpa [hr] using h.idle_low hr
      · simp [hst, hr]
    simp only [if_neg hst]
    exact { h with
      ring_idle := fun hr => absurd rfl hr
      idle_low := fun _ => low
      pause_low := nofun
      toggling_rm := nofun
      idle_digits := fun hs => absurd hs hst }

theorem LineInv.setLineTimer (h : LineInv p L) (now d : Word) : LineInv p (setLineTimer now d L) := { h with }

theorem LineInv.cancelTimer (h : LineInv p L) : LineInv p (cancelTimer L) := { h with }

theorem LineInv.timerExpiry (h : LineInv p L) (now : Word) : LineInv p (timerExpiry now L) := by
  unfold Machine.timerExpiry
  split
  · exact { h with }
  · exact h

theorem LineInv.setPeer (h : LineInv p L) (side : PeerSide) (o : Option Line) : LineInv p (setPeer side o L) := by
  cases side with
  | incoming => exact { h with }
  | outgoing => exact { h with }

theorem LineInv.appended (h : LineInv p L) (hs : L.status ≠ .idle) (ch : Byte) : LineInv p (appended p ch L) := by
  unfold Machine.appended
  exact { h with
    idle_digits := fun hi => absurd hi hs
    digits_le := by
      by_cases hroom : L.digits.length < p.digitsMax
      · simp only [hroom, if_true, List.length_append, List.length_singleton]
        exact hroom
      · simpa [hroom] using h.digits_le }

/-! The ring cadence (R250 to R257). -/

theorem LineInv.forceStop (h : LineInv p L) : LineInv p (forceStop L) :=
  { h with
    ring_idle := fun hr => absurd rfl hr
    idle_low := fun _ => ⟨rfl, rfl⟩
    pause_low := nofun
    toggling_rm := nofun }

theorem LineInv.stopRing (h : LineInv p L) : LineInv p (stopRing L) := by
  unfold Machine.stopRing
  split
  · exact h.forceStop
  · exact h

theorem LineInv.beginToggling (h : LineInv p L) (hs : L.status = .idle) (now : Word) : LineInv p (beginToggling now L) :=
  { h with
    ring_idle := fun _ => hs
    idle_low := nofun
    pause_low := nofun
    toggling_rm := fun _ => rfl }

theorem LineInv.endToggling (h : LineInv p L) (hs : L.status = .idle) (c : Cfg) (now : Word) :
    LineInv p (endToggling c now L) := by
  unfold Machine.endToggling
  dsimp only
  split
  · exact { h with
      ring_idle := fun hr => absurd rfl hr
      idle_low := fun _ => ⟨rfl, rfl⟩
      pause_low := nofun
      toggling_rm := nofun }
  · exact { h with
      ring_idle := fun _ => hs
      idle_low := nofun
      pause_low := fun _ => ⟨rfl, rfl⟩
      toggling_rm := nofun }

theorem LineInv.togglingPhase (h : LineInv p L) (hr : L.rPhase = .toggling) (hs : L.status = .idle) (c : Cfg) (now : Word) :
    LineInv p (togglingPhase p c now L) := by
  unfold Machine.togglingPhase
  split
  · exact h.endToggling hs c now
  · split
    · exact { h with
        idle_low := fun (hi : L.rPhase = .idle) => by rw [hr] at hi; cases hi
        pause_low := fun (hi : L.rPhase = .pause) => by rw [hr] at hi; cases hi }
    · exact h

theorem LineInv.pausePhase (h : LineInv p L) (hs : L.status = .idle) (c : Cfg) (now : Word) :
    LineInv p (pausePhase c now L) := by
  unfold Machine.pausePhase
  split
  · exact h.beginToggling hs now
  · exact h

theorem LineInv.ringUpdate (h : LineInv p L) (c : Cfg) (now : Word) : LineInv p (ringUpdate p c now L) := by
  unfold Machine.ringUpdate
  split
  · exact h
  · split
    · exact h.forceStop
    · exact h.togglingPhase ‹_› (not_not.mp ‹_›) c now
  · split
    · exact h.forceStop
    · exact h.pausePhase (not_not.mp ‹_›) c now

/-! The filters and the pulse detector (R190 to R197). -/

theorem LineInv.pulseIdle (h : LineInv p L) : LineInv p (pulseIdle L) :=
  { h with
    idle_count := fun _ => rfl
    between_count := nofun
    count_le := Nat.zero_le _ }

theorem LineInv.hookFilter (h : LineInv p L) (c : Cfg) (now : Word) (r : Bool) : LineInv p (hookFilter c now r L) := by
  have sampled : LineInv p (hookSample now r L) := by
    unfold hookSample
    split
    · exact { h with }
    · exact { h with }
  unfold Machine.hookFilter hookAccept
  split
  · dsimp only
    split
    · exact { sampled.pulseIdle with }
    · exact { sampled with }
  · exact sampled

theorem LineInv.glitchFilter (h : LineInv p L) (c : Cfg) (now : Word) (r : Bool) : LineInv p (glitchFilter c now r L).1 := by
  have sampled : LineInv p (glitchSample now r L) := by
    unfold glitchSample
    split
    · exact { h with }
    · exact h
  unfold Machine.glitchFilter glitchAccept
  split
  · exact { sampled with }
  · exact sampled

theorem LineInv.filterLine (h : LineInv p L) (c : Cfg) (now : Word) (r : Bool) : LineInv p (filterLine c now r L).1 :=
  (h.hookFilter c now r).glitchFilter c now r

theorem LineInv.beginPulse (h : LineInv p L) (t : Word) : LineInv p (beginPulse t L) :=
  { h with
    idle_count := nofun
    between_count := nofun }

/-- The folded count is 1 to 10 (R194). -/
theorem nextCount_bounds (n : BitVec 4) : 1 ≤ (nextCount n).toNat ∧ (nextCount n).toNat ≤ 10 := by
  revert n
  decide

theorem LineInv.edgeRec (h : LineInv p L) (c : Cfg) (e : Option Edge) : LineInv p (edgeRec c e L) := by
  unfold Machine.edgeRec
  split
  · exact h.beginPulse _
  · exact h.beginPulse _
  · split
    · exact { h with
        idle_count := nofun
        between_count := fun _ => (nextCount_bounds L.pCount).1
        count_le := (nextCount_bounds L.pCount).2 }
    · exact h.pulseIdle
  · exact h

theorem LineInv.emitRec (h : LineInv p L) (hs : L.status ≠ .idle) : LineInv p (emitRec p L) := by
  have digit := h.pulseIdle.appended hs (pulseDigit L.pCount)
  unfold Machine.emitRec
  dsimp only
  split
  · exact digit.applyStatus .pulseDialing
  · exact digit

theorem LineInv.gapRec (h : LineInv p L) (hs : L.status ≠ .idle) (c : Cfg) (now : Word) : LineInv p (gapRec p c now L) := by
  unfold Machine.gapRec
  split
  · exact h.emitRec hs
  · split
    · exact h.pulseIdle
    · exact h

/-- The gate is open on a line that is not Idle (R193). -/
theorem status_ne_idle_of_pulseGate (hg : pulseGate L = true) : L.status ≠ .idle := by
  intro hs
  simp [pulseGate, hs] at hg

theorem LineInv.detectorRec (h : LineInv p L) (c : Cfg) (now : Word) (e : Option Edge) :
    LineInv p (detectorRec p c now e L) := by
  unfold Machine.detectorRec
  split
  · have hs : (Machine.edgeRec c e L).status ≠ .idle := by
      rw [edgeRec_status]
      exact status_ne_idle_of_pulseGate ‹_›
    exact (h.edgeRec c e).gapRec hs c now
  · exact h.pulseIdle

/-- Step 2 of a CYCLE on one record (R190). -/
theorem LineInv.lineRec2 (h : LineInv p L) (c : Cfg) (now : Word) (shk : BitVec 8) (l : Line) :
    LineInv p (lineRec2 p c now shk l L) := by
  unfold Machine.lineRec2 hookPulseRec
  split
  · exact (h.filterLine c now _).detectorRec c now _
  · exact h

/-- What a command other than LR_SET_STATUS and CYCLE writes in a record. -/
theorem LineWrite.inv {s : State} {i : Instr} {L' : LineRec} (hw : LineWrite s i L L') (h : LineInv p L) : LineInv p L' := by
  cases hw with
  | setTimer => exact h.setLineTimer s.now s.data
  | resetTimer => exact h.cancelTimer
  | takeChange => exact { h with }
  | takeExpired => exact { h with }
  | peer _ _ _ side o => exact h.setPeer side o
  | startRing _ _ hstart =>
    have hs : L.status = .idle := by
      simp only [ringStartable, Bool.and_eq_true, beq_iff_eq] at hstart
      exact hstart.1.1
    exact LineInv.beginToggling (L := { L with rIter := 0 }) { h with } hs s.now
  | stopRing => exact h.stopRing
  | stopAll => exact h.stopRing

end LineInvariant

/-! Which operations on a record keep its status (R34), and with it the peers (R37). -/

/-- What the registry holds of a line and no filter, cadence or timer writes: the status and the two peers. -/
def LineRec.registry (L : LineRec) : LineStatus × Option Line × Option Line := (L.status, L.incomingFrom, L.outgoingTo)

theorem stopRing_status (L : LineRec) : (stopRing L).status = L.status := by
  unfold stopRing
  split <;> rfl

theorem LineWrite.status_same {s : State} {i : Instr} {L L' : LineRec} (hw : LineWrite s i L L') :
    L'.status = L.status := by
  cases hw with
  | peer _ _ _ side => cases side <;> rfl
  | stopRing => exact stopRing_status L
  | stopAll => exact stopRing_status L
  | setTimer => rfl
  | resetTimer => rfl
  | takeChange => rfl
  | takeExpired => rfl
  | startRing => rfl

theorem hookFilter_registry (c : Cfg) (now : Word) (r : Bool) (L : LineRec) : (hookFilter c now r L).registry = L.registry := by
  have sampled : (hookSample now r L).registry = L.registry := by
    unfold hookSample
    split <;> rfl
  unfold hookFilter hookAccept
  split
  · dsimp only
    split <;> exact sampled
  · exact sampled

theorem glitchFilter_registry (c : Cfg) (now : Word) (r : Bool) (L : LineRec) :
    (glitchFilter c now r L).1.registry = L.registry := by
  have sampled : (glitchSample now r L).registry = L.registry := by
    unfold glitchSample
    split <;> rfl
  unfold glitchFilter glitchAccept
  split <;> exact sampled

theorem filterLine_registry (c : Cfg) (now : Word) (r : Bool) (L : LineRec) : (filterLine c now r L).1.registry = L.registry :=
  (glitchFilter_registry ..).trans (hookFilter_registry ..)

theorem filterLine_status (c : Cfg) (now : Word) (r : Bool) (L : LineRec) : (filterLine c now r L).1.status = L.status :=
  congrArg Prod.fst (filterLine_registry ..)

/-- The detector keeps the status unless it takes the line out of Ready (R195). -/
theorem detectorRec_status (p : Params) {c : Cfg} {now : Word} {e : Option Edge} {L : LineRec}
    (h : ¬ detectorLeaves c now e L) : (detectorRec p c now e L).status = L.status := by
  unfold detectorRec gapRec emitRec
  split
  · rename_i hgate
    split
    · rename_i hgap
      have hready : (edgeRec c e L).status ≠ .ready := fun hs => h ⟨hgate, hgap, (edgeRec_status c e L) ▸ hs⟩
      rw [if_neg hready]
      exact edgeRec_status c e L
    · split
      · exact edgeRec_status c e L
      · exact edgeRec_status c e L
  · rfl

/-- Step 2 keeps the status of a line that it does not take out of Ready. -/
theorem lineRec2_status (p : Params) {c : Cfg} {now : Word} {shk : BitVec 8} {l : Line} {L : LineRec}
    (h : ¬ leaves2 c now shk l L) : (lineRec2 p c now shk l L).status = L.status := by
  unfold lineRec2 hookPulseRec
  split
  · rw [detectorRec_status p fun hd => h ⟨‹_›, hd⟩, filterLine_status]
  · rfl

theorem togglingPhase_registry (p : Params) (c : Cfg) (now : Word) (L : LineRec) :
    (togglingPhase p c now L).registry = L.registry := by
  unfold togglingPhase endToggling
  dsimp only
  split
  · split <;> rfl
  · split <;> rfl

theorem pausePhase_registry (c : Cfg) (now : Word) (L : LineRec) : (pausePhase c now L).registry = L.registry := by
  unfold pausePhase
  split <;> rfl

theorem ringUpdate_registry (p : Params) (c : Cfg) (now : Word) (L : LineRec) :
    (ringUpdate p c now L).registry = L.registry := by
  unfold ringUpdate
  split
  · rfl
  · split
    · rfl
    · exact togglingPhase_registry p c now L
  · split
    · rfl
    · exact pausePhase_registry c now L

theorem timerExpiry_registry (now : Word) (L : LineRec) : (timerExpiry now L).registry = L.registry := by
  unfold timerExpiry
  split <;> rfl

/-! The last-ready pointer (R48 item 3). -/

/-- The line that the pointer names is Ready. -/
def ReadyNamed (b : Block) : Prop := ∀ l, b.lastReady = some l → (b.line l).status = .ready

theorem ReadyNamed.of_same {b b' : Block} (h : ReadyNamed b) (hr : b'.lastReady = b.lastReady)
    (hs : ∀ l, (b'.line l).status = (b.line l).status) : ReadyNamed b' := fun l hl => (hs l).trans (h l (hr ▸ hl))

/-- The pointer after setStatus: it names the line set to Ready, or another line as before (R160). -/
theorem ReadyNamed.setStatus {w : Work} (h : ReadyNamed w.blk) (l : Line) (st : LineStatus) :
    ReadyNamed (setStatus l st w).blk := by
  intro m hm
  rw [setStatus_lastReady] at hm
  unfold nextLastReady at hm
  by_cases hml : m = l
  · subst hml
    rw [setStatus_line_same, applyStatus_eq]
    by_cases hst : st = .ready
    · exact hst
    · by_cases hp : w.blk.lastReady = some m <;> simp [hst, hp] at hm
  · rw [setStatus_line_ne st w hml]
    refine h m ?_
    by_cases hst : st = .ready
    · rw [if_pos hst] at hm
      exact absurd (Option.some.inj hm).symm hml
    · by_cases hp : w.blk.lastReady = some l
      · rw [if_neg hst, if_pos hp] at hm
        cases hm
      · rwa [if_neg hst, if_neg hp] at hm

/-- Steps 1 and 2: the pointer still names its line only if the line stays Ready. -/
theorem afterPulse_readyNamed {s : State} (h : ReadyNamed s.blk) : ReadyNamed (afterPulse s).blk := by
  intro l hl
  rw [afterPulse_lastReady] at hl
  cases hp : s.blk.lastReady with
  | none => simp [hp] at hl
  | some m =>
    simp only [hp] at hl
    by_cases hleaves : leaves2 s.blk.cfg s.now (shkOf s.data) m (s.blk.line m)
    · rw [if_pos hleaves] at hl
      cases hl
    · rw [if_neg hleaves] at hl
      cases hl
      rw [afterPulse_line, lineRec2_status s.params hleaves]
      exact h l hp

/-- Step 3: a Ready line that gets a digit is no longer named. -/
theorem ToneEffect.readyNamed {p : Params} {now : Word} {w w' : Work} (e : ToneEffect p now w w') (h : ReadyNamed w.blk) :
    ReadyNamed w'.blk := by
  cases e with
  | nothing hl hr => exact h.of_same hr fun m => congrArg LineRec.status (hl m)
  | timer l d _ hl ho hr =>
    refine h.of_same hr fun m => ?_
    by_cases hm : m = l
    · rw [hm, hl]
      rfl
    · rw [ho m hm]
  | digit l ch _ _ hl ho hr =>
    intro m hm
    rw [hr] at hm
    unfold readyAfter at hm
    by_cases hleft : (w.blk.line l).status = .ready ∧ w.blk.lastReady = some l
    · rw [if_pos hleft] at hm
      cases hm
    · rw [if_neg hleft] at hm
      have hne : m ≠ l := fun hml => hleft ⟨hml ▸ h m hm, hml ▸ hm⟩
      rw [ho m hne]
      exact h m hm

/-! The records through step 3. -/

theorem ToneEffect.lineInv {p : Params} {now : Word} {w w' : Work} (e : ToneEffect p now w w')
    (h : ∀ m, LineInv p (w.blk.line m)) (m : Line) : LineInv p (w'.blk.line m) := by
  cases e with
  | nothing hl _ => exact hl m ▸ h m
  | timer l d _ hl ho _ =>
    by_cases hm : m = l
    · rw [hm, hl]
      exact (h l).setLineTimer now d
    · exact ho m hm ▸ h m
  | digit l ch _ hs hl ho _ =>
    by_cases hm : m = l
    · have hidle : (w.blk.line l).status ≠ .idle := by
        rcases hs with hs | hs <;> rw [hs] <;> nofun
      have digit := (h l).appended hidle ch
      rw [hm, hl]
      split
      · exact digit.applyStatus .toneDialing
      · exact digit
    · exact ho m hm ▸ h m

/-! The tone decoder (R48 items 6 and 7). -/

theorem ToneInv.switchTone (t : ToneState) (on : Bool) : ToneInv (switchTone on t) where
  inactive := fun _ => ⟨rfl, rfl⟩
  pending_high := nofun

theorem ToneInv.toneStep {w : Work} (h : ToneInv w.blk.tone) (p : Params) (now : Word) (q : BitVec 4) :
    ToneInv (toneStep p now q w).blk.tone := by
  obtain ⟨hactive, hoff, hpending⟩ := toneStep_tone p now q w
  exact {
    inactive := fun ha => by
      have ha : w.blk.tone.active = false := hactive ▸ ha
      rw [hoff ha]
      exact h.inactive ha
    pending_high := hpending h.pending_high }

/-! The block. -/

theorem SharedSame.conn {b b' : Block} (h : SharedSame b b') (x y : Line) : b'.conn x y = b.conn x y := by
  simp only [Block.conn, h.xb]

/-- A CYCLE keeps the invariants (R296). -/
theorem BlockInv.afterCycle {s : State} (h : BlockInv s.params s.blk) : BlockInv s.params (afterCycle s).blk := by
  obtain ⟨-, hready, hxb, -, -, htone, hevq⟩ := afterCycle_shared s
  have pulsed : ∀ m, LineInv s.params ((afterPulse s).blk.line m) := fun m => by
    rw [afterPulse_line]
    exact (h.lines m).lineRec2 ..
  have toned := (afterTone_effect s).lineInv pulsed
  have named := (afterTone_effect s).readyNamed (afterPulse_readyNamed h.last_ready)
  have hconn : ∀ x y, (Machine.afterCycle s).blk.conn x y = s.blk.conn x y := fun x y => by simp only [Block.conn, hxb]
  exact {
    lines := fun m => by
      rw [afterCycle_line]
      exact ((toned m).ringUpdate ..).timerExpiry s.now
    last_ready := named.of_same hready fun m => by
      rw [afterCycle_line]
      exact congrArg Prod.fst ((timerExpiry_registry ..).trans (ringUpdate_registry ..))
    xb_symm := fun x y => by rw [hconn, hconn, h.xb_symm]
    xb_diag := fun x => by rw [hconn, h.xb_diag]
    evq_le := by
      rw [hevq, drainStep_evq]
      exact (List.eraseP_sublist.trans List.filter_sublist).length_le.trans h.evq_le
    tone := by
      rw [htone]
      refine ToneInv.toneStep ?_ ..
      rw [(afterPulse_shared s).2.2.2.1]
      exact h.tone }

theorem OnlyMatrix.setConn {b b' : Block} (h : OnlyMatrix b b') (x y : Line) (c : ConnState) :
    OnlyMatrix b (b'.setConn x y c) where
  lines := fun l => (line_setConn b' x y l c).trans (h.lines l)
  lastReady := h.lastReady
  evq := h.evq
  evqDrops := h.evqDrops
  tone := h.tone
  cfg := h.cfg

theorem setPair_onlyMatrix (x y : Line) (c : ConnState) (b : Block) : OnlyMatrix b (setPair x y c b) :=
  (OnlyMatrix.setConn ⟨fun _ => rfl, rfl, rfl, rfl, rfl, rfl⟩ x y c).setConn y x c

theorem disconnectLine_onlyMatrix (x : Line) (b : Block) : OnlyMatrix b (disconnectLine x b) :=
  forLines_induct (OnlyMatrix b) _ b ⟨fun _ => rfl, rfl, rfl, rfl, rfl, rfl⟩
    fun y _ h => (h.setConn x y .none).setConn y x .none

/-- A write to the matrix keeps what is not about the matrix. -/
theorem BlockInv.of_onlyMatrix {p : Params} {b b' : Block} (h : BlockInv p b) (hm : OnlyMatrix b b')
    (hsymm : ∀ x y, b'.conn x y = b'.conn y x) (hdiag : ∀ x, b'.conn x x = .none) : BlockInv p b' where
  lines := fun l => hm.lines l ▸ h.lines l
  last_ready := ReadyNamed.of_same h.last_ready hm.lastReady fun l => congrArg LineRec.status (hm.lines l)
  xb_symm := hsymm
  xb_diag := hdiag
  evq_le := hm.evq ▸ h.evq_le
  tone := hm.tone ▸ h.tone

/-- Both entries of a pair of two lines are written (R271). -/
theorem BlockInv.setPair {p : Params} {b : Block} (h : BlockInv p b) {x y : Line} (hxy : x ≠ y) (c : ConnState) :
    BlockInv p (setPair x y c b) := by
  refine h.of_onlyMatrix (setPair_onlyMatrix x y c b) (fun u v => ?_) fun u => ?_
  · rw [conn_setPair, conn_setPair, h.xb_symm u v]
    exact if_congr (by tauto) rfl rfl
  · have hne : ¬ ((u = x ∧ u = y) ∨ (u = y ∧ u = x)) := by
      rintro (⟨hx, hy⟩ | ⟨hy, hx⟩)
      · exact hxy (hx.symm.trans hy)
      · exact hxy (hx.symm.trans hy)
    rw [conn_setPair, if_neg hne, h.xb_diag]

/-- The row and the column are cleared (R276). -/
theorem BlockInv.disconnectLine {p : Params} {b : Block} (h : BlockInv p b) (x : Line) : BlockInv p (disconnectLine x b) := by
  refine h.of_onlyMatrix (disconnectLine_onlyMatrix x b) (fun u v => ?_) fun u => ?_
  · rw [conn_disconnectLine, conn_disconnectLine, h.xb_symm u v]
    exact if_congr Or.comm rfl rfl
  · rw [conn_disconnectLine, h.xb_diag, ite_self]

theorem BlockInv.setStatus {p : Params} {w : Work} (h : BlockInv p w.blk) (l : Line) (st : LineStatus) :
    BlockInv p (setStatus l st w).blk where
  lines := fun m => by
    by_cases hm : m = l
    · rw [hm, setStatus_line_same]
      exact (h.lines l).applyStatus st
    · exact setStatus_line_ne st w hm ▸ h.lines m
  last_ready := ReadyNamed.setStatus h.last_ready l st
  xb_symm := fun x y => by simpa only [Block.conn, setStatus_xb] using h.xb_symm x y
  xb_diag := fun x => by simpa only [Block.conn, setStatus_xb] using h.xb_diag x
  evq_le := by simpa using h.evq_le
  tone := by simpa using h.tone

/-- A command that writes records but no status. -/
theorem BlockInv.of_lines {s : State} {p : Params} {i : Instr} {b : Block} (h : BlockInv p s.blk)
    (hl : ∀ m, b.line m = s.blk.line m ∨ LineWrite s i (s.blk.line m) (b.line m)) (hs : SharedSame s.blk b) :
    BlockInv p b where
  lines := fun m => by
    rcases hl m with hm | hm
    · exact hm ▸ h.lines m
    · exact hm.inv (h.lines m)
  last_ready := ReadyNamed.of_same h.last_ready hs.lastReady fun m => by
    rcases hl m with hm | hm
    · rw [hm]
    · exact hm.status_same
  xb_symm := fun x y => by rw [hs.conn, hs.conn, h.xb_symm]
  xb_diag := fun x => by rw [hs.conn, h.xb_diag]
  evq_le := hs.evq ▸ h.evq_le
  tone := hs.tone ▸ h.tone

/-- Every command that answers keeps the invariants. -/
theorem Wrote.inv {s : State} {i : Instr} {b : Block} (hw : Wrote s i b) (h : BlockInv s.params s.blk) :
    BlockInv s.params b := by
  cases hw with
  | nothing => exact h
  | pushed _ _ _ e hroom =>
    exact { h with
      evq_le := by
        rw [setEvq_evq, List.length_append, List.length_singleton]
        exact hroom }
  | dropped => exact { h with }
  | taken _ hq => exact { h with evq_le := hq.length_le.trans h.evq_le }
  | lines hl hs => exact h.of_lines hl hs
  | status _ _ l st => exact BlockInv.setStatus (w := s.work) h l st
  | toneOn => exact { h with tone := .switchTone s.blk.tone true }
  | toneOff => exact { h with tone := .switchTone s.blk.tone false }
  | pair _ _ _ _ _ hxy c => exact h.setPair hxy c
  | unpaired _ x => exact h.disconnectLine x
  | config => exact { h with }
  | cycle => exact h.afterCycle

/-- Every transaction's word keeps the invariants: a command, and a word that is none (R105). -/
theorem perform_keepsInv {cmd : Word} {s t : State} (h : Inv s) (ht : perform cmd s = .next t) : Inv t := by
  unfold perform at ht
  split at ht
  · obtain ⟨hparams, hw⟩ := exec_leaves _ s t ht
    unfold Inv
    rw [hparams]
    exact hw.inv h
  · cases ht
    exact h

/-- Settles O17: with a transaction pending its word is performed, with none the state stays. -/
theorem stepKeepsInv : Obligations.StepKeepsInv := by
  intro s t h ht
  cases hin : s.inputs with
  | nil =>
    rw [idleStepWaits s hin] at ht
    cases ht
    exact h
  | cons tr rest =>
    rw [step_of_inputs hin] at ht
    exact perform_keepsInv (s := s.take tr rest) h ht

/-- Settles O16: of any parameters, so of the default ones. -/
theorem invAtReset : Obligations.InvAtReset := by
  have hinit : ∀ p : Params, Inv (State.init p) := fun p => {
    lines := fun l => by
      have hl : Block.reset.line l = LineRec.reset := by simp [Block.line, Block.reset]
      exact hl ▸ LineInv.of_reset p
    last_ready := nofun
    xb_symm := fun x y => by simp [State.init, Block.reset, Block.conn]
    xb_diag := fun x => by simp [State.init, Block.reset, Block.conn]
    evq_le := Nat.zero_le _
    tone := ⟨fun _ => ⟨rfl, rfl⟩, nofun⟩ }
  exact ⟨hinit Params.default, hinit⟩

end Sys2Proof.Machine
end

section
/-! PROOFS. Which commands may change each piece of state (spec/10_state.md R34 to R47; spec/46_system.md R296), read off what each
command writes. -/

namespace Sys2Proof.Machine

/-! A CYCLE and the peers of a line (R37). -/

/-- The peer pointers of a record (R37). -/
def LineRec.peers (L : LineRec) : Option Line × Option Line := L.registry.2

theorem applyStatus_peers {st : LineStatus} (h : st ≠ .idle) (L : LineRec) : (applyStatus st L).peers = L.peers := by
  simp only [applyStatus_eq, if_neg h, LineRec.peers, LineRec.registry]

theorem edgeRec_peers (c : Cfg) (e : Option Edge) (L : LineRec) : (edgeRec c e L).peers = L.peers := by
  unfold edgeRec
  split
  · rfl
  · rfl
  · split <;> rfl
  · rfl

theorem gapRec_peers (p : Params) (c : Cfg) (now : Word) (L : LineRec) : (gapRec p c now L).peers = L.peers := by
  unfold gapRec emitRec
  split
  · dsimp only
    split
    · exact applyStatus_peers (by decide) _
    · rfl
  · split <;> rfl

theorem lineRec2_peers (p : Params) (c : Cfg) (now : Word) (shk : BitVec 8) (l : Line) (L : LineRec) :
    (lineRec2 p c now shk l L).peers = L.peers := by
  have filtered (r : Bool) : (filterLine c now r L).1.peers = L.peers :=
    congrArg Prod.snd (filterLine_registry ..)
  unfold lineRec2 hookPulseRec detectorRec
  split
  · split
    · rw [gapRec_peers, edgeRec_peers, filtered]
    · exact filtered _
  · rfl

theorem ToneEffect.peers {p : Params} {now : Word} {w w' : Work} (e : ToneEffect p now w w') (m : Line) :
    (w'.blk.line m).peers = (w.blk.line m).peers := by
  cases e with
  | nothing hl _ => rw [hl m]
  | timer l d _ hl ho _ =>
    by_cases hm : m = l
    · rw [hm, hl]
      rfl
    · rw [ho m hm]
  | digit l ch _ _ hl ho _ =>
    by_cases hm : m = l
    · rw [hm, hl]
      split
      · exact applyStatus_peers (by decide) _
      · rfl
    · rw [ho m hm]

/-- A CYCLE leaves every peer pointer alone (R296). -/
theorem afterCycle_peers (s : State) (m : Line) : ((afterCycle s).blk.line m).peers = (s.blk.line m).peers := by
  have stepped : ((afterCycle s).blk.line m).peers = ((afterTone s).blk.line m).peers := by
    rw [afterCycle_line]
    exact congrArg Prod.snd ((timerExpiry_registry ..).trans (ringUpdate_registry ..))
  rw [stepped, (afterTone_effect s).peers, afterPulse_line, lineRec2_peers]

/-! What each command may leave of the shared state and of a record. -/

/-- Outside the line records: each part that changed, changed by a command whose rules write it. -/
theorem Wrote.shared {s : State} {i : Instr} {b : Block} (hw : Wrote s i b) :
    (b.cfg ≠ s.blk.cfg → ∃ n, i = .regWrite n) ∧
    (b.xb ≠ s.blk.xb → (∃ a b c, i = .xbSet a b c) ∨ ∃ a, i = .xbDisconnect a) ∧
    (b.evqDrops ≠ s.blk.evqDrops → ∃ a p l, i = .eqPush a p l) ∧
    (b.tone ≠ s.blk.tone → i = .tdActivate ∨ i = .tdDeactivate ∨ i = .cycle) ∧
    (b.lastReady ≠ s.blk.lastReady → (∃ a b, i = .lrSetStatus a b) ∨ i = .cycle) := by
  cases hw with
  | nothing => simp
  | pushed => simp
  | dropped => simp
  | taken => simp
  | lines _ hs => simp [hs.cfg, hs.xb, hs.evqDrops, hs.tone, hs.lastReady]
  | status => simp
  | toneOn => simp
  | toneOff => simp
  | pair _ _ _ x y _ c =>
    have hm := setPair_onlyMatrix x y c s.blk
    simp [hm.cfg, hm.evqDrops, hm.tone, hm.lastReady]
  | unpaired _ x =>
    have hm := disconnectLine_onlyMatrix x s.blk
    simp [hm.cfg, hm.evqDrops, hm.tone, hm.lastReady]
  | config => simp [regWrite]
  | cycle =>
    obtain ⟨-, -, hxb, hdrops, hcfg, -, -⟩ := afterCycle_shared s
    simp [hxb, hdrops, hcfg]

/-- The record of a line after a command: as before, or written by one of the commands that write records. -/
theorem Wrote.line {s : State} {i : Instr} {b : Block} (hw : Wrote s i b) (l : Line) :
    b.line l = s.blk.line l ∨ LineWrite s i (s.blk.line l) (b.line l) ∨
    (∃ la sv st, i = .lrSetStatus la sv ∧ b.line l = applyStatus st (s.blk.line l)) ∨
    (i = .cycle ∧ (b.line l).peers = (s.blk.line l).peers) := by
  cases hw with
  | nothing => exact .inl rfl
  | pushed => exact .inl rfl
  | dropped => exact .inl rfl
  | taken => exact .inl rfl
  | lines hl _ => exact (hl l).imp_right .inl
  | status la sv m st =>
    by_cases hlm : l = m
    · subst hlm
      exact .inr (.inr (.inl ⟨la, sv, st, rfl, setStatus_line_same l st s.work⟩))
    · exact .inl (setStatus_line_ne st s.work hlm)
  | toneOn => exact .inl rfl
  | toneOff => exact .inl rfl
  | pair _ _ _ x y _ c => exact .inl ((setPair_onlyMatrix x y c s.blk).lines l)
  | unpaired _ x => exact .inl ((disconnectLine_onlyMatrix x s.blk).lines l)
  | config => exact .inl rfl
  | cycle => exact .inr (.inr (.inr ⟨rfl, afterCycle_peers s l⟩))

theorem stopRing_eq (L : LineRec) :
    stopRing L = { L with rPhase := (stopRing L).rPhase, fr := (stopRing L).fr, rm := (stopRing L).rm } := by
  unfold stopRing
  split <;> rfl

/-- Settles O60: the shared state by `Wrote.shared`, each record by the commands of `Wrote.line`. -/
theorem stateIsWrittenOnlyByItsCommands : Obligations.StateIsWrittenOnlyByItsCommands := by
  intro i s s' h
  obtain ⟨hparams, hw⟩ := exec_leaves i s s' h
  obtain ⟨hcfg, hxb, hdrops, htone, hready⟩ := hw.shared
  refine ⟨hparams, hcfg, hxb, hdrops, htone, hready, fun l => ?_⟩
  dsimp only
  have hline := hw.line l
  generalize s.blk.line l = L, s'.blk.line l = L' at hline
  rcases hline with rfl | written | ⟨la, sv, st, rfl, rfl⟩ | ⟨rfl, hpeers⟩
  · simp
  · cases written with
    | setTimer => simp [setLineTimer, LineRec.ring]
    | resetTimer => simp [cancelTimer, LineRec.ring]
    | takeChange => simp [LineRec.ring]
    | takeExpired => simp [LineRec.ring]
    | peer _ _ _ side => cases side <;> simp [setPeer, LineRec.ring]
    | startRing => simp [beginToggling]
    | stopRing =>
      rw [stopRing_eq]
      simp
    | stopAll =>
      rw [stopRing_eq]
      simp
  · simp [applyStatus_eq]
  · obtain ⟨hin, hout⟩ := Prod.mk.inj hpeers
    simp [hin, hout]

end Sys2Proof.Machine
end

section
/-! PROOFS. Fields of words: what a word of placed fields shows in each of them (spec/00_scope.md R9), the encoding of a command
by the row of its opcode (spec/30_encoding.md R103 to R106), and the record of a rejected command. -/

namespace Sys2Proof

/-! Placed fields. -/

/-- A placed field that fits in the word is read back. -/
theorem extractLsb'_place_same {n lo : Nat} (x : BitVec n) (h : lo + n ≤ 32) : (place lo x).extractLsb' lo n = x := by
  refine BitVec.eq_of_getLsbD_eq fun i hi => ?_
  have hword : lo + i < 32 := by omega
  simp only [BitVec.getLsbD_extractLsb', getLsbD_place, hi, hword, Nat.le_add_right, Nat.add_sub_cancel_left,
    decide_true, Bool.true_and]

/-- A placed field shows nothing below and above itself. -/
theorem extractLsb'_place_apart {n lo a m : Nat} (x : BitVec n) (h : a + m ≤ lo ∨ lo + n ≤ a) :
    (place lo x).extractLsb' a m = 0#m := by
  refine BitVec.eq_of_getLsbD_eq fun i hi => ?_
  rw [BitVec.getLsbD_extractLsb', getLsbD_place, BitVec.getLsbD_zero]
  rcases h with below | above
  · have : ¬ lo ≤ a + i := by omega
    simp [this]
  · have : n ≤ a + i - lo := by omega
    simp [BitVec.getLsbD_of_ge x _ this]

/-- A mask that shows the field keeps a placed field. -/
theorem place_and_eq_self {n lo : Nat} (x : BitVec n) {m : Word} (hm : ∀ i, i < n → m.getLsbD (lo + i) = true) :
    place lo x &&& m = place lo x := by
  refine word_ext fun i _ => ?_
  rw [BitVec.getLsbD_and, getLsbD_place]
  by_cases hlo : lo ≤ i
  · by_cases hn : i - lo < n
    · have hbit := hm (i - lo) hn
      rw [Nat.add_sub_cancel' hlo] at hbit
      simp [hbit]
    · simp [BitVec.getLsbD_of_ge x _ (Nat.not_lt.mp hn)]
  · simp [hlo]

/-- The bits above a narrower word are 0. -/
theorem extractLsb'_setWidth_above {n a m : Nat} (x : BitVec n) (h : n ≤ a) : (x.setWidth 32).extractLsb' a m = 0#m := by
  refine BitVec.eq_of_getLsbD_eq fun i hi => ?_
  simp [BitVec.getLsbD_of_ge x (a + i) (by omega)]

/-! The encoding of a command by its row. -/

/-- The bits of OP alone are the opcode's place (R103). -/
theorem fieldOP_of_and_eq {w : Word} {op : BitVec 6} (h : w &&& 0xFC000000 = place 26 op) : fieldOP w = op := by
  refine BitVec.eq_of_getLsbD_eq fun i hi => ?_
  have hbit := congrArg (·.getLsbD (26 + i)) h
  rw [fieldOP, BitVec.getLsbD_extractLsb']
  simp only [BitVec.getLsbD_and, getLsbD_place] at hbit
  interval_cases i <;> simpa using hbit

/-- A command of format R has no bit outside OP and REG. -/
theorem encodeR_and_mask (op : BitVec 6) (reg : BitVec 8) : encodeR op reg &&& 0xFC03FFFF = place 26 op := by
  refine word_ext fun i hi => ?_
  simp only [encodeR, BitVec.getLsbD_and, BitVec.getLsbD_or, getLsbD_place]
  interval_cases i <;> simp

/-- A command of format L that uses LA alone has no bit outside OP and LA. -/
theorem encodeL_la_and_mask (op : BitVec 6) (la : BitVec 4) : encodeL op la 0 0 &&& 0xFC3FFFFF = place 26 op := by
  refine word_ext fun i hi => ?_
  simp only [encodeL, BitVec.getLsbD_and, BitVec.getLsbD_or, getLsbD_place]
  interval_cases i <;> simp

namespace Machine

/-- A command is encoded as its row says when the row makes it of its own word and the word has no bit outside the row's fields. -/
theorem encoded_of_row {i : Instr} {mtch mask : Word} {command : Word → Instr}
    (hrow : opcodeRow i.opcode.toNat = some ⟨mask, command⟩) (hcommand : command (encode i) = i)
    (hmask : encode i &&& mask = place 26 i.opcode) (hmtch : place 26 i.opcode = mtch) : Encoded i mtch mask := by
  subst hmtch
  refine ⟨?_, hmask, fun w hop hw => ?_⟩
  · simp only [decode, fieldOP_encode, hrow, hmask, if_true, hcommand]
  · simp only [decode, fieldOP_of_and_eq hop, hrow, hw, if_false]

/-! Rejections. -/

/-- OP of a command's word, as the CMD_ERROR record shows it (R311). -/
theorem encode_shiftRight_opcode (i : Instr) : (encode i >>> 26).setWidth 16 = i.opcode.setWidth 16 := by
  rw [← fieldOP_encode i]
  refine BitVec.eq_of_getLsbD_eq fun j hj => ?_
  simp only [fieldOP, BitVec.getLsbD_setWidth, BitVec.getLsbD_ushiftRight, BitVec.getLsbD_extractLsb']
  by_cases h6 : j < 6
  · simp [h6, hj]
  · simp [h6, BitVec.getLsbD_of_ge (encode i) (26 + j) (by omega)]

/-- A command that raises e is rejected with e's code. -/
theorem rejects_of_error {i : Instr} {s : State} {e : Err} (h : exec i s = .next (s.rejected e i.opcode)) :
    Rejects i s e.code := by
  unfold Rejects
  rw [h, encode_shiftRight_opcode]
  rfl

end Machine

end Sys2Proof
end

section
/-! PROOFS. The register space (spec/10_state.md R49 to R58), the line word (R55), and the codes of the enumerations. -/

namespace Sys2Proof.Machine

/-! The numbers of the registers. -/

/-- The number of an assigned register (R49). -/
def Reg.number : Reg → BitVec 8
  | .rw r => r.number
  | .ro r => r.number

theorem regOfNumber_number (r : Reg) : regOfNumber r.number = some r := by
  rcases r with r | r
  · cases r with
    | pinMap l => revert l; decide
    | _ => rfl
  · cases r with
    | timerEnd l => revert l; decide
    | ring l => revert l; decide
    | ringT0 l => revert l; decide
    | ringTT l => revert l; decide
    | _ => rfl

/-- A number and the register it names fit together: the register has that number, and the number is in the range of the
register's kind (R50 to R54), or in R58's. -/
def fitsNumber (n : BitVec 8) : Option Reg → Bool
  | some (.rw r) => decide (isRW n) && r.number == n
  | some (.ro r) => decide (isRO n) && r.number == n
  | none => decide (isUnassigned n)

theorem fitsNumber_regOfNumber : ∀ n : BitVec 8, fitsNumber n (regOfNumber n) = true := by decide

/-- What a number names: an RW register, an RO register, or none (R49, R58). -/
theorem regOfNumber_cases (n : BitVec 8) :
    (∃ r, regOfNumber n = some (.rw r) ∧ isRW n ∧ r.number = n) ∨
    (∃ r, regOfNumber n = some (.ro r) ∧ isRO n ∧ r.number = n) ∨ (regOfNumber n = none ∧ isUnassigned n) := by
  have fits := fitsNumber_regOfNumber n
  cases hreg : regOfNumber n with
  | none => exact .inr (.inr ⟨rfl, by simpa [hreg, fitsNumber] using fits⟩)
  | some r =>
    cases r with
    | rw r => exact .inl ⟨r, rfl, by simpa [hreg, fitsNumber] using fits⟩
    | ro r => exact .inr (.inl ⟨r, rfl, by simpa [hreg, fitsNumber] using fits⟩)

theorem number_of_regOfNumber {n : BitVec 8} {r : Reg} (h : regOfNumber n = some r) : r.number = n := by
  rcases regOfNumber_cases n with ⟨q, hreg, -, hn⟩ | ⟨q, hreg, -, hn⟩ | ⟨hreg, -⟩
  · cases Option.some.inj (h.symm.trans hreg)
    exact hn
  · cases Option.some.inj (h.symm.trans hreg)
    exact hn
  · cases h.symm.trans hreg

theorem exists_of_isRW {n : BitVec 8} (h : isRW n) : ∃ r : CfgReg, regOfNumber n = some (.rw r) := by
  rcases regOfNumber_cases n with ⟨r, hreg, -⟩ | ⟨-, -, hro, -⟩ | ⟨-, hun⟩
  · exact ⟨r, hreg⟩
  · omega
  · omega

theorem exists_of_isRO {n : BitVec 8} (h : isRO n) : ∃ r : StatReg, regOfNumber n = some (.ro r) := by
  rcases regOfNumber_cases n with ⟨-, -, hrw, -⟩ | ⟨r, hreg, -⟩ | ⟨-, hun⟩
  · omega
  · exact ⟨r, hreg⟩
  · omega

theorem regOfNumber_eq_none {n : BitVec 8} : regOfNumber n = none ↔ isUnassigned n := by
  rcases regOfNumber_cases n with ⟨r, hreg, hrw, -⟩ | ⟨r, hreg, hro, -⟩ | ⟨hreg, hun⟩
  · simp only [hreg, reduceCtorEq, false_iff]
    omega
  · simp only [hreg, reduceCtorEq, false_iff]
    omega
  · exact iff_of_true hreg hun

/-! REG_READ (R291). -/

theorem exec_regRead_some {n : BitVec 8} {r : Reg} (h : regOfNumber n = some r) (s : State) :
    Performs (.regRead n) s s.blk (regRead s.params s.blk r) [] := by
  simp only [Performs, exec, execRegRead, readableOperand, h, checked_ok, respond_eq, state_work_blk, state_work_out]

theorem exec_regRead_none {n : BitVec 8} (h : regOfNumber n = none) (s : State) :
    exec (.regRead n) s = .next (s.rejected .reg (Instr.regRead n).opcode) := by
  simp only [exec, execRegRead, readableOperand, h, checked_error]

/-- What a read shows: the number names a register, and its value has the property. -/
theorem reads_iff {s : State} {n : BitVec 8} {good : Word → Prop} :
    Reads s n good ↔ ∃ r, regOfNumber n = some r ∧ good (regRead s.params s.blk r) := by
  constructor
  · rintro ⟨v, hv, hperf⟩
    cases hreg : regOfNumber n with
    | none =>
      have hcode : (0 : BitVec 4) = Err.reg.code :=
        congrArg (fun t : State => t.resp.code) (Host.Outcome.next.inj (hperf.symm.trans (exec_regRead_none hreg s)))
      exact absurd hcode (by decide)
    | some r =>
      have hval : v = regRead s.params s.blk r :=
        congrArg (fun t : State => t.resp.val) (Host.Outcome.next.inj (hperf.symm.trans (exec_regRead_some hreg s)))
      exact ⟨r, rfl, hval ▸ hv⟩
  · rintro ⟨r, hreg, hgood⟩
    exact ⟨_, hgood, exec_regRead_some hreg s⟩

/-- A read of a register's own number shows the register. -/
theorem reads_register (r : Reg) {s : State} {good : Word → Prop} (h : good (regRead s.params s.blk r)) :
    Reads s r.number good := reads_iff.mpr ⟨r, regOfNumber_number r, h⟩

/-! Words of the configuration registers (R50 to R52). -/

theorem strobeWord_fields (addr : BitVec 7) (pin : BitVec 4) :
    (strobeWord addr pin).extractLsb' 0 7 = addr ∧ (strobeWord addr pin).extractLsb' 8 4 = pin ∧
    strobeWord addr pin &&& 0xF7F = strobeWord addr pin := by
  unfold strobeWord
  refine ⟨?_, ?_, ?_⟩
  · simp (disch := omega) only [BitVec.extractLsb'_or, extractLsb'_place_same, extractLsb'_place_apart, BitVec.zero_or]
  · simp (disch := omega) only [BitVec.extractLsb'_or, extractLsb'_place_same, extractLsb'_place_apart, BitVec.or_zero]
  · simp (disch := decide) only [BitVec.and_or_distrib_right, place_and_eq_self]

theorem PinMap.word_fields (m : PinMap) :
    m.word.extractLsb' 0 7 = m.addr ∧ m.word.extractLsb' 8 4 = m.hookPin ∧ m.word.extractLsb' 12 4 = m.frPin ∧
    m.word.extractLsb' 16 4 = m.rmPin ∧ m.word &&& 0xFFF7F = m.word := by
  unfold PinMap.word
  refine ⟨?_, ?_, ?_, ?_, ?_⟩
  case refine_5 => simp (disch := decide) only [BitVec.and_or_distrib_right, place_and_eq_self]
  all_goals
    simp (disch := omega) only [BitVec.extractLsb'_or, extractLsb'_place_same, extractLsb'_place_apart, BitVec.or_zero,
      BitVec.zero_or]

theorem ctrlWord_fields (on : Bool) :
    ((BitVec.ofBool on).setWidth 32 : Word).getLsbD 0 = on ∧
    ((BitVec.ofBool on).setWidth 32 : Word) &&& 0x1 = (BitVec.ofBool on).setWidth 32 := by
  cases on <;> decide

/-- Settles O45: each number is its register's, whose value is the field's word. -/
theorem configurationRegistersRead : Obligations.ConfigurationRegistersRead := by
  intro s c
  exact ⟨reads_register (.rw .activeMask) rfl, reads_register (.rw .hookStableMs) rfl,
    reads_register (.rw .hookStableConsec) rfl, reads_register (.rw .pulseGlitchMs) rfl,
    reads_register (.rw .pulseDebounceMs) rfl, reads_register (.rw .pulseLowMaxMs) rfl,
    reads_register (.rw .digitGapMinMs) rfl, reads_register (.rw .pulseTimeoutMs) rfl,
    reads_register (.rw .dtmfStableMs) rfl, reads_register (.rw .dtmfMinToneMs) rfl,
    reads_register (.rw .dtmfDebounceMs) rfl, reads_register (.rw .dtmfDoneMs) rfl,
    reads_register (.rw .ringLengthMs) rfl, reads_register (.rw .ringPauseMs) rfl,
    reads_register (.rw .ringIterations) rfl, reads_register (.rw .dtmfStrobe) (strobeWord_fields c.strobeAddr c.strobePin),
    reads_register (.rw .ctrl) (ctrlWord_fields c.notifyEn),
    fun l => reads_register (.rw (.pinMap l)) (PinMap.word_fields c.pinMap[l])⟩

/-! REG_WRITE (R292). -/

theorem exec_regWrite_rw {n : BitVec 8} {r : CfgReg} (h : regOfNumber n = some (.rw r)) (s : State) :
    Performs (.regWrite n) s (s.blk.setCfg (writeCfg s.blk.cfg r s.data)) (readCfg (writeCfg s.blk.cfg r s.data) r) [] := by
  simp only [Performs, exec, execRegWrite, writableOperand, h, checked_ok, respond_eq, onBlk_blk, onBlk_out, state_work_out]
  rfl

theorem exec_regWrite_not_rw {n : BitVec 8} (h : ∀ r, regOfNumber n ≠ some (.rw r)) (s : State) :
    exec (.regWrite n) s = .next (s.rejected .reg (Instr.regWrite n).opcode) := by
  have hop : writableOperand n = .error .reg := by
    unfold writableOperand
    split
    · exact absurd ‹_› (h _)
    · rfl
    · rfl
  simp only [exec, execRegWrite, hop, checked_error]

theorem encoded_regWrite (n : BitVec 8) : Encoded (.regWrite n) 0x84000000 0xFC03FFFF :=
  encoded_of_row (command := fun w => .regWrite (fieldREG w)) rfl (congrArg Instr.regWrite (fieldREG_encodeR _ n))
    (encodeR_and_mask _ n) (by decide : place 26 0x21#6 = 0x84000000)

/-- Settles O47: an unassigned number names no register, an RO number one that is not writable. -/
theorem unassignedAndReadOnlyRegisters : Obligations.UnassignedAndReadOnlyRegisters := by
  intro s n
  refine ⟨fun hun => ?_, fun hro => ?_, fun hassigned => ?_⟩
  · have hnone := regOfNumber_eq_none.mpr hun
    exact ⟨rejects_of_error (exec_regRead_none hnone s),
      rejects_of_error (exec_regWrite_not_rw (fun r => by simp [hnone]) s)⟩
  · obtain ⟨r, hreg⟩ := exists_of_isRO hro
    exact rejects_of_error (exec_regWrite_not_rw (fun r => by simp [hreg]) s)
  · obtain ⟨r, hreg⟩ := Option.ne_none_iff_exists'.mp (mt regOfNumber_eq_none.mp hassigned)
    exact reads_iff.mpr ⟨r, hreg, trivial⟩

theorem setWidth8_setWidth (v : Word) : (v.setWidth 8).setWidth 32 = v &&& 0xFF := by
  refine word_ext fun i hi => ?_
  simp only [BitVec.getLsbD_setWidth, BitVec.getLsbD_and]
  interval_cases i <;> simp

theorem setWidth16_setWidth (v : Word) : (v.setWidth 16).setWidth 32 = v &&& 0xFFFF := by
  refine word_ext fun i hi => ?_
  simp only [BitVec.getLsbD_setWidth, BitVec.getLsbD_and]
  interval_cases i <;> simp

theorem ofBool_getLsbD_zero (v : Word) : (BitVec.ofBool (v.getLsbD 0)).setWidth 32 = v &&& 0x1 := by
  refine word_ext fun i hi => ?_
  simp only [BitVec.getLsbD_setWidth, BitVec.getLsbD_and, BitVec.getLsbD_ofBool]
  interval_cases i <;> simp

theorem strobeWord_extract (v : Word) : strobeWord (v.extractLsb' 0 7) (v.extractLsb' 8 4) = v &&& 0xF7F := by
  refine word_ext fun i hi => ?_
  simp only [strobeWord, BitVec.getLsbD_or, getLsbD_place, BitVec.getLsbD_extractLsb', BitVec.getLsbD_and]
  interval_cases i <;> simp

theorem PinMap.word_ofWord (v : Word) : (PinMap.ofWord v).word = v &&& 0xFFF7F := by
  refine word_ext fun i hi => ?_
  simp only [PinMap.word, PinMap.ofWord, BitVec.getLsbD_or, getLsbD_place, BitVec.getLsbD_extractLsb', BitVec.getLsbD_and]
  interval_cases i <;> simp

theorem regMask_pinMap (l : Line) : regMask (CfgReg.pinMap l).number = 0xFFF7F := by revert l; decide

/-- A register written reads back the word masked to its fields (R57). -/
theorem readCfg_writeCfg_same (c : Cfg) (r : CfgReg) (v : Word) : readCfg (writeCfg c r v) r = v &&& regMask r.number := by
  cases r with
  | activeMask => exact setWidth8_setWidth v
  | hookStableConsec => exact setWidth16_setWidth v
  | ringIterations => exact setWidth8_setWidth v
  | dtmfStrobe => exact strobeWord_extract v
  | ctrl => exact ofBool_getLsbD_zero v
  | pinMap l =>
    rw [regMask_pinMap, ← PinMap.word_ofWord]
    simp [readCfg, writeCfg]
  | _ => exact BitVec.and_allOnes.symm

/-- Every other register reads as before. -/
theorem readCfg_writeCfg_ne (c : Cfg) {r q : CfgReg} (h : q ≠ r) (v : Word) : readCfg (writeCfg c r v) q = readCfg c q := by
  cases r with
  | pinMap l =>
    cases q with
    | pinMap m =>
      have hne : l.val ≠ m.val := fun hlm => h (congrArg CfgReg.pinMap (Fin.ext hlm.symm))
      simp [readCfg, writeCfg, Vector.getElem_set_ne _ _ hne]
    | _ => rfl
  | _ =>
    cases q <;> try rfl
    exact absurd rfl h

theorem readStat_setCfg (p : Params) (b : Block) (c : Cfg) (r : StatReg) : readStat p (b.setCfg c) r = readStat p b r := by
  cases r <;> rfl

/-- Settles O44: the register written reads back its masked word, and the others read as before. -/
theorem regWriteStoresTheMaskedValue : Obligations.RegWriteStoresTheMaskedValue := by
  intro s n
  refine ⟨encoded_regWrite n, fun hrw => ?_⟩
  obtain ⟨r, hreg⟩ := exists_of_isRW hrw
  have stored : readCfg (writeCfg s.blk.cfg r s.data) r = s.data &&& regMask n := by
    rw [readCfg_writeCfg_same, ← number_of_regOfNumber hreg]
    rfl
  refine ⟨writeCfg s.blk.cfg r s.data, stored ▸ exec_regWrite_rw hreg s, reads_iff.mpr ⟨.rw r, hreg, stored⟩, ?_⟩
  intro m v hm hreads
  obtain ⟨q, hq, hv⟩ := reads_iff.mp hreads
  refine reads_iff.mpr ⟨q, hq, Eq.trans ?_ hv⟩
  cases q with
  | ro q => exact readStat_setCfg ..
  | rw q =>
    refine readCfg_writeCfg_ne _ (fun hqr => hm ?_) _
    rw [← number_of_regOfNumber hq, ← number_of_regOfNumber hreg, hqr]

/-! Words of the status registers (R53, R54). -/

theorem encoded_regRead (n : BitVec 8) : Encoded (.regRead n) 0x80000000 0xFC03FFFF :=
  encoded_of_row (command := fun w => .regRead (fieldREG w)) rfl (congrArg Instr.regRead (fieldREG_encodeR _ n))
    (encodeR_and_mask _ n) (by decide : place 26 0x20#6 = 0x80000000)

/-- The code of an optional line is its number of R9. -/
theorem optLineCode_toNat (o : Option Line) : (optLineCode o).toNat = optLineNat o := by
  cases o with
  | none => rfl
  | some l => exact lineCode_toNat l

theorem lastReadyWord_toNat (o : Option Line) : ((optLineCode o).setWidth 32 : Word).toNat = optLineNat o := by
  rw [BitVec.toNat_setWidth_of_le (by decide), optLineCode_toNat]

theorem isLineBits_lineMask {f g : Line → Bool} (h : ∀ l, f l = g l) : IsLineBits ((lineMask f).setWidth 32) g := by
  refine ⟨fun l => ?_, extractLsb'_setWidth_above _ (Nat.le_refl 8)⟩
  have hl : l.val < 32 := by omega
  rw [BitVec.getLsbD_setWidth, getLsbD_lineMask, h]
  simp [hl]

/-- The loop that places a 2-bit code per line shows line l's code in the bits 2l and 2l + 1, and nothing above bit 15. -/
theorem foldl_place_codes (code : Line → BitVec 2) (ls : List Line) (w : Word) :
    let v := ls.foldl (fun w m => w ||| place (2 * m.val) (code m)) w
    (∀ l : Line, v.extractLsb' (2 * l.val) 2 = w.extractLsb' (2 * l.val) 2 ||| if l ∈ ls then code l else 0#2) ∧
    v.extractLsb' 16 16 = w.extractLsb' 16 16 := by
  induction ls generalizing w with
  | nil => simp
  | cons m ls ih =>
    obtain ⟨field, above⟩ := ih (w ||| place (2 * m.val) (code m))
    refine ⟨fun l => ?_, ?_⟩
    · rw [List.foldl_cons, field, BitVec.extractLsb'_or]
      by_cases hlm : l = m
      · subst hlm
        rw [extractLsb'_place_same _ (by omega)]
        by_cases hmem : l ∈ ls <;> simp [hmem, BitVec.or_assoc]
      · have hne : l.val ≠ m.val := fun h => hlm (Fin.ext h)
        rw [extractLsb'_place_apart _ (by omega)]
        simp [hlm]
    · rw [List.foldl_cons, above, BitVec.extractLsb'_or, extractLsb'_place_apart _ (by omega), BitVec.or_zero]

/-- Line l's hook code stands in the bits 2l and 2l + 1 (R53). -/
theorem hookStateWord_fields (b : Block) :
    (∀ l : Line, (hookStateWord b).extractLsb' (2 * l.val) 2 = (b.line l).hook.code) ∧
    (hookStateWord b).extractLsb' 16 16 = 0 := by
  obtain ⟨field, above⟩ := foldl_place_codes (fun l => (b.line l).hook.code) allLines 0
  refine ⟨fun l => ?_, above.trans (by decide)⟩
  rw [hookStateWord, field, if_pos (mem_allLines l)]
  simp

/-- RING_OUT shows both output words (R53, R324). -/
theorem ringOutWord_fields (b : Block) :
    let v := place 8 (ringRM b) ||| place 0 (ringFR b)
    (∀ l : Line, v.getLsbD l.val = (b.line l).fr ∧ v.getLsbD (8 + l.val) = (b.line l).rm) ∧
    v.extractLsb' 16 16 = 0 ∧ v.extractLsb' 0 8 = ringFR b ∧ v.extractLsb' 8 8 = ringRM b := by
  intro v
  have low : v.extractLsb' 0 8 = ringFR b := by
    simp (disch := decide) only [v, BitVec.extractLsb'_or, extractLsb'_place_same, extractLsb'_place_apart, BitVec.zero_or]
  have high : v.extractLsb' 8 8 = ringRM b := by
    simp (disch := decide) only [v, BitVec.extractLsb'_or, extractLsb'_place_same, extractLsb'_place_apart, BitVec.or_zero]
  refine ⟨fun l => ⟨?_, ?_⟩, ?_, low, high⟩
  · have hbit := congrArg (·.getLsbD l.val) low
    rw [ringFR, getLsbD_lineMask] at hbit
    simpa using hbit
  · have hbit := congrArg (·.getLsbD l.val) high
    rw [ringRM, getLsbD_lineMask] at hbit
    simpa using hbit
  · simp (disch := decide) only [v, BitVec.extractLsb'_or, extractLsb'_place_apart, BitVec.or_zero, BitVec.ofNat_eq_ofNat]

/-- TD_STATUS shows every field of the tone decoder but its times (R53). -/
theorem toneStatusWord_fields (t : ToneState) :
    let v := toneStatusWord t
    v.getLsbD 0 = t.active ∧ v.getLsbD 1 = t.pending ∧ v.getLsbD 2 = t.high ∧ v.getLsbD 3 = t.lastNib.isSome ∧
    v.extractLsb' 4 4 = t.lastNib.getD 0 ∧ (v.extractLsb' 8 4).toNat = optLineNat t.line ∧ v.extractLsb' 12 20 = 0 := by
  intro v
  rw [← optLineCode_toNat]
  simp only [v, toneStatusWord, BitVec.getLsbD_or, getLsbD_place, BitVec.getLsbD_ofBool]
  refine ⟨by simp, by simp, by simp, by simp, ?_, congrArg BitVec.toNat ?_, ?_⟩ <;>
    simp (disch := decide) only [BitVec.extractLsb'_or, extractLsb'_place_same, extractLsb'_place_apart, BitVec.or_zero,
      BitVec.zero_or, BitVec.ofNat_eq_ofNat]

/-- PARAMS shows the number of lines and, within the constraints of R8, the two capacities (R56). -/
theorem paramsWord_fields (p : Params) :
    ((paramsWord p).extractLsb' 0 8).toNat = 8 ∧
    (p.wf → ((paramsWord p).extractLsb' 8 8).toNat = p.digitsMax ∧ ((paramsWord p).extractLsb' 16 16).toNat = p.evqCap) := by
  simp (disch := decide) only [paramsWord, BitVec.extractLsb'_or, extractLsb'_place_same, extractLsb'_place_apart,
    BitVec.or_zero, BitVec.zero_or, BitVec.toNat_ofNat]
  refine ⟨rfl, fun ⟨_, hcap, _, hdigits⟩ => ?_⟩
  omega

/-- RING_l shows the cadence of the line but its times (R54). -/
theorem ringWord_fields (L : LineRec) :
    let v := ringWord L
    v.extractLsb' 0 2 = L.rPhase.code ∧ v.getLsbD 2 = L.fr ∧ v.getLsbD 3 = L.rm ∧ v.extractLsb' 4 4 = 0 ∧
    v.extractLsb' 8 8 = L.rIter ∧ v.extractLsb' 16 16 = 0 := by
  intro v
  simp only [v, ringWord, BitVec.getLsbD_or, getLsbD_place, BitVec.getLsbD_ofBool]
  refine ⟨?_, by simp, by simp, ?_, ?_, ?_⟩ <;>
    simp (disch := decide) only [BitVec.extractLsb'_or, extractLsb'_place_same, extractLsb'_place_apart, BitVec.or_zero,
      BitVec.zero_or, BitVec.ofNat_eq_ofNat]

/-- EVQ_COUNT is the number of events, within the constraints of R8. -/
theorem evqCountWord_toNat {p : Params} {n : Nat} (hp : p.wf) (hn : n ≤ p.evqCap) :
    ((BitVec.ofNat 16 n).setWidth 32 : Word).toNat = n := by
  obtain ⟨-, hcap, -, -⟩ := hp
  rw [BitVec.toNat_setWidth_of_le (by decide), BitVec.toNat_ofNat]
  omega

/-- Settles O46: each number is its register's, whose word shows the fields. -/
theorem statusRegistersRead : Obligations.StatusRegistersRead := by
  intro s
  have tone := toneStatusWord_fields s.blk.tone
  exact ⟨encoded_regRead, reads_register (.ro .ringHalf) rfl,
    reads_register (.ro .lastReady) (lastReadyWord_toNat s.blk.lastReady),
    reads_register (.ro .notIdle) (isLineBits_lineMask fun l => by simp [Block.notIdle, bne, beq_eq_decide]),
    reads_register (.ro .change) (isLineBits_lineMask fun _ => rfl),
    reads_register (.ro .expired) (isLineBits_lineMask fun _ => rfl),
    reads_register (.ro .timerArmed) (isLineBits_lineMask fun _ => rfl),
    reads_register (.ro .hookState) (hookStateWord_fields s.blk),
    reads_register (.ro .ringOut) (ringOutWord_fields s.blk),
    reads_register (.ro .evqCount) evqCountWord_toNat,
    reads_register (.ro .evqDrops) rfl,
    reads_register (.ro .tdStatus) ⟨tone.1, tone.1, tone.2⟩,
    reads_register (.ro .params) (paramsWord_fields s.params),
    fun l => ⟨reads_register (.ro (.timerEnd l)) rfl, reads_register (.ro (.ring l)) (ringWord_fields (s.blk.line l)),
      reads_register (.ro (.ringT0 l)) rfl, reads_register (.ro (.ringTT l)) rfl⟩⟩

/-! The line word (R55, R172). -/

theorem encoded_lrReadLine (la : BitVec 4) : Encoded (.lrReadLine la) 0x3C000000 0xFC3FFFFF :=
  encoded_of_row (command := fun w => .lrReadLine (fieldLA w)) rfl (congrArg Instr.lrReadLine (fieldLA_encodeL _ la 0 0))
    (encodeL_la_and_mask _ la) (by decide : place 26 0x0F#6 = 0x3C000000)

/-- The fields of the line word that are not one bit (R55). -/
theorem lineWord_fields (b : Block) (l : Line) :
    let v := lineWord b l
    v.extractLsb' 0 4 = (b.line l).status.code ∧ v.extractLsb' 4 4 = (b.line l).prevStatus.code ∧
    v.extractLsb' 8 2 = (b.line l).hook.code ∧ v.extractLsb' 10 2 = (b.line l).prevHook.code ∧
    v.extractLsb' 16 6 = BitVec.ofNat 6 (b.line l).digits.length ∧ v.extractLsb' 22 2 = (b.line l).rPhase.code ∧
    v.extractLsb' 24 4 = optLineCode (b.line l).incomingFrom ∧ v.extractLsb' 28 4 = optLineCode (b.line l).outgoingTo := by
  refine ⟨?_, ?_, ?_, ?_, ?_, ?_, ?_, ?_⟩ <;>
    simp (disch := decide) only [lineWord, BitVec.extractLsb'_or, extractLsb'_place_same, extractLsb'_place_apart,
      BitVec.or_zero, BitVec.zero_or]

/-- The one-bit fields of the line word (R55). -/
theorem lineWord_bits (b : Block) (l : Line) :
    let v := lineWord b l
    v.getLsbD 12 = b.active l ∧ v.getLsbD 13 = (b.line l).tArmed ∧ v.getLsbD 14 = (b.line l).change ∧
    v.getLsbD 15 = (b.line l).expired := by
  simp only [lineWord, BitVec.getLsbD_or, getLsbD_place, BitVec.getLsbD_ofBool]
  simp

/-- Settles O30: the answer is the line word, whose fields are those of the record. -/
theorem readLineAnswersTheLineWord : Obligations.ReadLineAnswersTheLineWord := by
  refine fun s => ⟨fun l => ?_, fun la => ⟨encoded_lrReadLine la, fun hla => ?_⟩⟩
  · have answered : Performs (.lrReadLine (lineCode l)) s s.blk (lineWord s.blk l) [] := by
      simp only [Performs, exec, execLrReadLine, lineOperand_lineCode, checked_ok, respond_eq, state_work_blk, state_work_out]
    obtain ⟨status, prevStatus, hook, prevHook, digits, rPhase, incoming, outgoing⟩ := lineWord_fields s.blk l
    obtain ⟨active, armed, change, expired⟩ := lineWord_bits s.blk l
    refine ⟨lineWord s.blk l, answered, status, prevStatus, hook, prevHook, active, armed, change, expired,
      fun ⟨_, _, _, hmax⟩ hlen => ?_, rPhase, ?_, ?_⟩
    · rw [digits, BitVec.toNat_ofNat]
      omega
    · rw [incoming, optLineCode_toNat]
    · rw [outgoing, optLineCode_toNat]
  · refine rejects_of_error (e := .line) ?_
    simp only [exec, execLrReadLine, lineOperand_error.mpr ⟨rfl, hla⟩, checked_error]

/-! The codes of the enumerations. -/

/-- Settles O5: each enumeration's codes are listed. -/
theorem codesOfTheEnumerations : Obligations.CodesOfTheEnumerations := by
  unfold Obligations.CodesOfTheEnumerations
  decide

end Sys2Proof.Machine
end

section
/-! PROOFS. The command words (spec/30_encoding.md R101 to R107): the opcode map against the table of R104, the decoder's answers,
and the round trips between words and commands. -/

namespace Sys2Proof

/-! Parts of a word. -/

/-- A mask that clears the field hides a placed field. -/
theorem place_and_eq_zero {n lo : Nat} (x : BitVec n) {m : Word} (hm : ∀ i, i < n → m.getLsbD (lo + i) = false) :
    place lo x &&& m = 0 := by
  refine word_ext fun i _ => ?_
  rw [BitVec.getLsbD_and, getLsbD_place]
  by_cases hlo : lo ≤ i
  · by_cases hn : i - lo < n
    · have hbit := hm (i - lo) hn
      rw [Nat.add_sub_cancel' hlo] at hbit
      simp [hbit]
    · simp [BitVec.getLsbD_of_ge x _ (Nat.not_lt.mp hn)]
  · simp [hlo]

theorem place_zero (n lo : Nat) : place lo 0#n = 0#32 := by simp [place]

/-- A field of a word, placed where it was read, is the word under the mask that shows the field alone. -/
theorem place_extractLsb' {w m : Word} {lo n : Nat} (hin : ∀ i, i < n → m.getLsbD (lo + i) = true)
    (hout : ∀ i, i < 32 → i < lo ∨ lo + n ≤ i → m.getLsbD i = false) : place lo (w.extractLsb' lo n) = w &&& m := by
  refine word_ext fun i hi => ?_
  rw [getLsbD_place, BitVec.getLsbD_extractLsb', BitVec.getLsbD_and]
  by_cases hfield : lo ≤ i ∧ i - lo < n
  · obtain ⟨hlo, hn⟩ := hfield
    have hbit := hin (i - lo) hn
    rw [Nat.add_sub_cancel' hlo] at hbit
    simp [hbit, hi, hlo, hn]
  · have hbit := hout i hi (by omega)
    rw [hbit]
    by_cases hlo : lo ≤ i
    · have hn : ¬ i - lo < n := fun hn => hfield ⟨hlo, hn⟩
      simp [hn]
    · simp [hlo]

/-! Each operand field, placed again, is the word under the field's mask of R103. -/

theorem place_fieldLA (w : Word) : place 22 (fieldLA w) = w &&& 0x03C00000 := place_extractLsb' (by decide) (by decide)
theorem place_fieldLB (w : Word) : place 18 (fieldLB w) = w &&& 0x003C0000 := place_extractLsb' (by decide) (by decide)
theorem place_fieldSV (w : Word) : place 14 (fieldSV w) = w &&& 0x0003C000 := place_extractLsb' (by decide) (by decide)
theorem place_fieldADDR (w : Word) : place 7 (fieldADDR w) = w &&& 0x00003F80 := place_extractLsb' (by decide) (by decide)
theorem place_fieldPIN (w : Word) : place 3 (fieldPIN w) = w &&& 0x00000078 := place_extractLsb' (by decide) (by decide)
theorem place_fieldREG (w : Word) : place 18 (fieldREG w) = w &&& 0x03FC0000 := place_extractLsb' (by decide) (by decide)

theorem place_fieldLVL (w : Word) : place 2 (BitVec.ofBool (fieldLVL w)) = w &&& 0x00000004 := by
  rw [← place_extractLsb' (lo := 2) (n := 1) (by decide) (by decide)]
  congr 1
  refine BitVec.eq_of_getLsbD_eq fun i hi => ?_
  obtain rfl : i = 0 := by omega
  simp [fieldLVL]

/-- A word is its part under a mask and its part outside the mask. -/
theorem and_or_and_not (w m : Word) : w &&& m ||| w &&& ~~~m = w := by
  rw [← BitVec.and_or_distrib_left, BitVec.or_not_self, BitVec.and_allOnes]

/-! The opcode map (R104). -/

/-- The command that a row makes of a word has the row's opcode and, in the row's fields, the word's bits. -/
theorem encode_command {n : Nat} {row : OpcodeRow} (hrow : opcodeRow n = some row) (w : Word) :
    encode (row.command w) = place 26 (BitVec.ofNat 6 n) ||| w &&& ~~~row.mask := by
  unfold opcodeRow at hrow
  split at hrow
  case h_29 => cases hrow
  all_goals
    cases hrow
    simp [encode, Instr.opcode, encodeN, encodeL, encodeE, encodeR, place_fieldLA, place_fieldLB, place_fieldSV,
      place_fieldADDR, place_fieldPIN, place_fieldREG, place_fieldLVL, place_zero, BitVec.or_assoc,
      ← BitVec.and_or_distrib_left]

/-- The row of a command's opcode makes the command of its word. -/
theorem opcodeRow_opcode (i : Instr) : ∃ row, opcodeRow i.opcode.toNat = some row ∧ row.command (encode i) = i := by
  cases i <;> exact ⟨_, rfl, by simp [encode]⟩

/-! The decoder's three answers (R105). -/

section Decoder

variable {w : Word} {row : OpcodeRow}

theorem decode_of_row (hrow : opcodeRow (fieldOP w).toNat = some row) (hmask : w &&& row.mask = place 26 (fieldOP w)) :
    decode w = .ok (row.command w) := by
  simp only [decode, hrow, if_pos hmask]

theorem decode_reserved (hrow : opcodeRow (fieldOP w).toNat = some row) (hmask : w &&& row.mask ≠ place 26 (fieldOP w)) :
    decode w = .error .reserved := by
  simp only [decode, hrow, if_neg hmask]

theorem decode_illegal (hrow : opcodeRow (fieldOP w).toNat = none) : decode w = .error .illegal := by
  simp only [decode, hrow]

/-- A word that decodes has a row, its bits outside the row's fields are those of OP, and the row makes the command of it. -/
theorem row_of_decode {i : Instr} (h : decode w = .ok i) :
    ∃ row, opcodeRow (fieldOP w).toNat = some row ∧ w &&& row.mask = place 26 (fieldOP w) ∧ row.command w = i := by
  cases hrow : opcodeRow (fieldOP w).toNat with
  | none => simp [decode_illegal hrow] at h
  | some row =>
    by_cases hmask : w &&& row.mask = place 26 (fieldOP w)
    · rw [decode_of_row hrow hmask] at h
      exact ⟨row, rfl, hmask, Except.ok.inj h⟩
    · simp [decode_reserved hrow hmask] at h

end Decoder

/-- Settles O2: the word's bits outside its row's fields are OP's, and the command keeps the bits inside them. -/
theorem encodeOfDecoded : Obligations.EncodeOfDecoded := by
  intro w i h
  obtain ⟨row, hrow, hmask, rfl⟩ := row_of_decode h
  rw [encode_command hrow, BitVec.ofNat_toNat, BitVec.setWidth_eq, ← hmask, and_or_and_not]

namespace Machine

/-! The opcode map is the table of R104. -/

/-- An opcode has a row in the map exactly when it has one in the table, with the same mask. -/
theorem opcodeRow_mask : ∀ op : BitVec 6,
    (opcodeRow op.toNat).map OpcodeRow.mask = (specRows.find? (·.op == op)).map SpecRow.mask := by decide

theorem opcodeRow_isNone : ∀ op : BitVec 6, unassignedOpcode op.toNat → (opcodeRow op.toNat).isNone := by decide

/-- A row of the table is a row of the map. -/
theorem opcodeRow_of_mem {r : SpecRow} (hr : r ∈ specRows) : ∃ row, opcodeRow r.op.toNat = some row ∧ row.mask = r.mask := by
  have hmasks : ∀ r ∈ specRows, (opcodeRow r.op.toNat).map OpcodeRow.mask = some r.mask := by decide
  exact Option.map_eq_some_iff.mp (hmasks r hr)

/-- A row of the map is a row of the table. -/
theorem mem_of_opcodeRow {op : BitVec 6} {row : OpcodeRow} (h : opcodeRow op.toNat = some row) :
    ∃ r ∈ specRows, r.op = op ∧ r.mask = row.mask := by
  have hmask := opcodeRow_mask op
  rw [h, Option.map_some, eq_comm, Option.map_eq_some_iff] at hmask
  obtain ⟨r, hfind, hr⟩ := hmask
  exact ⟨r, List.mem_of_find?_eq_some hfind, by simpa using List.find?_some hfind, hr⟩

/-- Every mask shows OP whole (R103). -/
theorem specRow_mask_shows_op : ∀ r ∈ specRows, ∀ i, i < 6 → r.mask.getLsbD (26 + i) = true := by decide

theorem place_op_and_mask {r : SpecRow} (hr : r ∈ specRows) (op : BitVec 6) : place 26 op &&& r.mask = place 26 op :=
  place_and_eq_self op (specRow_mask_shows_op r hr)

/-- A word that is an opcode's place under a row's mask has that opcode. -/
theorem fieldOP_of_and_mask {r : SpecRow} (hr : r ∈ specRows) {w : Word} {op : BitVec 6}
    (hw : w &&& r.mask = place 26 op) : fieldOP w = op := by
  have hshows : ∀ r ∈ specRows, r.mask &&& 0xFC000000 = 0xFC000000 := by decide
  refine fieldOP_of_and_eq ?_
  calc w &&& 0xFC000000 = w &&& r.mask &&& 0xFC000000 := by rw [BitVec.and_assoc, hshows r hr]
    _ = place 26 op := by rw [hw, place_and_eq_self op (by decide)]

/-- Match and mask of a row are OP's place and the complement of the fields (R103). -/
theorem specRow_mtch_mask : ∀ r ∈ specRows, r.mtch = r.op.setWidth 32 <<< 26 ∧
    r.mask = 0xFFFFFFFF &&& ~~~ (r.fields.foldl (fun m f => m ||| f.mask) 0) := by decide

/-- A command's word has no bit outside OP and the fields of its row. -/
theorem encode_and_mask {i : Instr} {row : OpcodeRow} (hrow : opcodeRow i.opcode.toNat = some row)
    (hcommand : row.command (encode i) = i) : encode i &&& row.mask = place 26 i.opcode := by
  obtain ⟨r, hr, -, hmask⟩ := mem_of_opcodeRow hrow
  have hword : encode i = place 26 i.opcode ||| encode i &&& ~~~row.mask := by
    have h := encode_command hrow (encode i)
    rwa [hcommand, BitVec.ofNat_toNat, BitVec.setWidth_eq] at h
  calc encode i &&& row.mask
      = (place 26 i.opcode ||| encode i &&& ~~~row.mask) &&& row.mask := congrArg (· &&& row.mask) hword
    _ = place 26 i.opcode := by
      simp [BitVec.and_or_distrib_right, BitVec.and_assoc, ← hmask, place_op_and_mask hr]

/-- Settles O1: the row of the command's opcode makes the command of its word, and the word passes the row's mask. -/
theorem decodeOfEncode : Obligations.DecodeOfEncode := by
  intro i
  obtain ⟨row, hrow, hcommand⟩ := opcodeRow_opcode i
  have hmask := encode_and_mask hrow hcommand
  rw [← fieldOP_encode i] at hrow hmask
  rw [decode_of_row hrow hmask, hcommand]

/-- Settles O3: a word under a row's mask shows the row's OP, so the map's row decides it. -/
theorem matchAndMaskDecide : Obligations.MatchAndMaskDecide := by
  refine ⟨rfl, fun r hr => ?_⟩
  obtain ⟨hmtch, hfields⟩ := specRow_mtch_mask r hr
  refine ⟨hmtch, hfields, fun w => ?_⟩
  obtain ⟨row, hrow, hmask⟩ := opcodeRow_of_mem hr
  have hplace : r.mtch = place 26 r.op := hmtch
  rw [hplace]
  constructor
  · rintro ⟨i, hdec, hop⟩
    have hfield : fieldOP w = r.op := by rw [← encodeOfDecoded w i hdec, fieldOP_encode, hop]
    obtain ⟨row', hrow', hw, -⟩ := row_of_decode hdec
    rw [hfield] at hrow' hw
    cases hrow.symm.trans hrow'
    rwa [← hmask]
  · intro hw
    have hfield := fieldOP_of_and_mask hr hw
    rw [← hfield] at hrow hw
    have hdec := decode_of_row hrow (hmask ▸ hw)
    refine ⟨_, hdec, ?_⟩
    rw [← fieldOP_encode, encodeOfDecoded w _ hdec, hfield]

/-! Words that are no command (R106, R107). -/

theorem fieldOP_toNat (w : Word) : (fieldOP w).toNat = w.toNat / 2 ^ 26 := by
  have := w.isLt
  rw [fieldOP, BitVec.extractLsb'_toNat, Nat.shiftRight_eq_div_pow]
  omega

/-- OP as the CMD_ERROR record shows it (R311). -/
theorem shiftRight_setWidth (w : Word) : (w >>> 26).setWidth 16 = (fieldOP w).setWidth 16 := by
  have := w.isLt
  refine BitVec.eq_of_toNat_eq ?_
  rw [BitVec.toNat_setWidth, BitVec.toNat_setWidth, fieldOP_toNat, BitVec.toNat_ushiftRight, Nat.shiftRight_eq_div_pow]

/-- A step on a word that is no command rejects it with the decoder's error. -/
theorem step_of_not_command {s : State} {t : Transaction} {rest : List Transaction} {e : DecodeError}
    (hin : s.inputs = t :: rest) (hdec : decode t.cmd = .error e) :
    step s = .next ((s.take t rest).rejected (errOfDecode e) (fieldOP t.cmd)) := by
  simp only [step_of_inputs hin, perform, hdec]

/-- A 1 in a bit that is neither OP's nor a used field's breaks the row's match. -/
theorem and_mask_ne_of_reserved {r : SpecRow} (hr : r ∈ specRows) {w : Word}
    (hw : w &&& ~~~ (0xFC000000 ||| r.fields.foldl (fun m f => m ||| f.mask) 0) ≠ 0) (op : BitVec 6) :
    w &&& r.mask ≠ place 26 op := by
  have hreserved : ∀ r ∈ specRows,
      ~~~ (0xFC000000 ||| r.fields.foldl (fun m f => m ||| f.mask) 0) = r.mask &&& 0x03FFFFFF := by decide
  intro hmatch
  apply hw
  rw [hreserved r hr, ← BitVec.and_assoc, hmatch, place_and_eq_zero op (by decide)]

/-- Settles O7: the decoder finds no row, or a row whose mask shows the reserved bit; the step rejects with its error. -/
theorem nonCommandWordsRejected : Obligations.NonCommandWordsRejected := by
  intro s t rest hin
  rw [← fieldOP_toNat, shiftRight_setWidth]
  refine ⟨fun hop => ?_, fun r hr hop hbits => ?_⟩
  · have hrow := Option.isNone_iff_eq_none.mp (opcodeRow_isNone _ hop)
    exact step_of_not_command hin (decode_illegal hrow)
  · obtain ⟨row, hrow, hmask⟩ := opcodeRow_of_mem hr
    rw [hop] at hrow
    exact step_of_not_command hin (decode_reserved hrow (hmask ▸ and_mask_ne_of_reserved hr hbits _))

/-- Settles O4: the decoder computes each command. -/
theorem specWordsDecode : Obligations.SpecWordsDecode := by
  unfold Obligations.SpecWordsDecode
  decide

/-! The event value (R110). -/

/-- The event value shows each field of R110, and 0 elsewhere. -/
theorem isEventValue_eventValue (e : Event) : IsEventValue e (eventValue e) := by
  constructor
  case lvl =>
    simp only [eventValue, BitVec.getLsbD_or, getLsbD_place]
    simp
  all_goals
    simp (disch := omega) [eventValue, BitVec.extractLsb'_or, extractLsb'_place_same, extractLsb'_place_apart,
      ← optLineCode_toNat]

/-- Under the mask that clears bits [31] and [17:14], the event value keeps ADDR, PIN and LVL. -/
theorem eventValue_and_mask (e : Event) :
    eventValue e &&& 0x7FFC3FFF = place 7 e.addr ||| place 3 e.pin ||| place 2 (BitVec.ofBool e.lvl) := by
  simp (disch := decide) only [eventValue, BitVec.and_or_distrib_right, place_and_eq_self, place_and_eq_zero]
  simp

/-- Settles O21: EQ_PUSH's OP beside the fields that the mask keeps is the push word. -/
theorem eventValueIsItsPushWord : Obligations.EventValueIsItsPushWord := by
  refine fun e => ⟨isEventValue_eventValue e, ?_⟩
  have hop : place 26 (0x01#6) = (0x04000000 : Word) := by decide
  rw [eventValue_and_mask, ← hop, BitVec.or_comm, ← BitVec.or_assoc, ← BitVec.or_assoc]
  rfl

end Machine

end Sys2Proof
end

section
/-! PROOFS. The port's words (spec/30_encoding.md R100, R108): which commands read DATA and NOW. -/

namespace Sys2Proof.Machine

/-- The machine with other words at the port (R100). -/
def State.withPort (d n : Word) (s : State) : State := { s with data := d, now := n }

/-- The command reads the same from both DATA words: three commands read the whole word, CYCLE its low 12 bits (R108, R295). -/
def SameData (d e : Word) : Instr → Prop
  | .lrSetTimer _ | .lrReadDigit _ | .regWrite _ => d = e
  | .cycle => d.setWidth 12 = e.setWidth 12
  | _ => True

/-- The command reads the same from both NOW words: three commands read it (R164, R252, R296). -/
def SameTime (m n : Word) : Instr → Prop
  | .lrSetTimer _ | .rgStart _ | .cycle => m = n
  | _ => True

theorem sameData_of_not_readsData {i : Instr} (h : ¬ readsData i) (d e : Word) : SameData d e i := by
  cases i
  case lrSetTimer | lrReadDigit | regWrite | cycle => exact absurd trivial h
  all_goals trivial

theorem SameData.refl (d : Word) (i : Instr) : SameData d d i := by
  cases i
  case lrSetTimer | lrReadDigit | regWrite | cycle => rfl
  all_goals trivial

theorem SameTime.refl (n : Word) (i : Instr) : SameTime n n i := by
  cases i
  case lrSetTimer | rgStart | cycle => rfl
  all_goals trivial

theorem sameTime_of_ne {i : Instr} (h : ∀ la, i ≠ .lrSetTimer la ∧ i ≠ .rgStart la) (hc : i ≠ .cycle) (m n : Word) :
    SameTime m n i := by
  cases i
  case lrSetTimer la => exact absurd rfl (h la).1
  case rgStart la => exact absurd rfl (h la).2
  case cycle => exact absurd rfl hc
  all_goals trivial

/-- SHK lies in the low 12 bits of DATA (R295). -/
theorem shkOf_setWidth (d : Word) : shkOf d = (d.setWidth 12).extractLsb' 0 8 := by
  refine BitVec.eq_of_getLsbD_eq fun i hi => ?_
  have : i < 12 := by omega
  simp [shkOf, hi, this]

/-- Q lies in the low 12 bits of DATA (R295). -/
theorem qOf_setWidth (d : Word) : qOf d = (d.setWidth 12).extractLsb' 8 4 := by
  refine BitVec.eq_of_getLsbD_eq fun i hi => ?_
  have : 8 + i < 12 := by omega
  simp [qOf, hi, this]

section Port

variable {s : State} {d n : Word}

@[simp] theorem withPort_blk (d n : Word) (s : State) : (s.withPort d n).blk = s.blk := rfl
@[simp] theorem withPort_data (d n : Word) (s : State) : (s.withPort d n).data = d := rfl
@[simp] theorem withPort_now (d n : Word) (s : State) : (s.withPort d n).now = n := rfl

theorem withPort_of_now (h : s.now = n) : s.withPort d n = { s with data := d } := by
  subst h
  rfl

theorem withPort_of_data (h : s.data = d) : s.withPort d n = { s with now := n } := by
  subst h
  rfl

theorem respond_withPort (w : Work) (v : Word) :
    respond (s.withPort d n) w v = mapNext (State.withPort d n) (respond s w v) := rfl

theorem raiseErr_withPort (e : Err) (i : Instr) :
    raiseErr e i (s.withPort d n) = mapNext (State.withPort d n) (raiseErr e i s) := rfl

theorem checked_withPort {α : Type} {i : Instr} {ops : Except Err α} {k k' : α → Result}
    (hk : ∀ a, k' a = mapNext (State.withPort d n) (k a)) :
    checked i (s.withPort d n) ops k' = mapNext (State.withPort d n) (checked i s ops k) :=
  checked_mapNext (State.withPort d n) (fun _ _ => rfl) hk

theorem execEqPush_withPort (addr : BitVec 7) (pin : BitVec 4) (lvl : Bool) :
    execEqPush addr pin lvl (s.withPort d n) = mapNext (State.withPort d n) (execEqPush addr pin lvl s) := by
  by_cases hroom : s.blk.evq.length < s.params.evqCap
  · rw [execEqPush_of_room hroom, execEqPush_of_room (s := s.withPort d n) hroom]
    exact respond_withPort ..
  · rw [execEqPush_of_full hroom, execEqPush_of_full (s := s.withPort d n) hroom]
    exact respond_withPort ..

theorem execLrReadDigit_withPort (la : BitVec 4) :
    execLrReadDigit la (s.withPort s.data n) = mapNext (State.withPort s.data n) (execLrReadDigit la s) := by
  refine checked_withPort fun l => ?_
  rw [withPort_blk, withPort_data]
  cases (s.blk.line l).digits[s.data.toNat]? with
  | none => exact raiseErr_withPort ..
  | some ch => exact respond_withPort ..

theorem execRgStart_withPort (la : BitVec 4) :
    execRgStart la (s.withPort d s.now) = mapNext (State.withPort d s.now) (execRgStart la s) := by
  refine checked_withPort fun l => ?_
  rw [withPort_blk]
  split
  · exact respond_withPort ..
  · exact raiseErr_withPort ..

/-- A CYCLE reads SHK and Q of DATA (R295). -/
theorem execCycle_withPort (h : d.setWidth 12 = s.data.setWidth 12) :
    execCycle (s.withPort d s.now) = mapNext (State.withPort d s.now) (execCycle s) := by
  have hshk : shkOf d = shkOf s.data := by rw [shkOf_setWidth, shkOf_setWidth, h]
  have hq : qOf d = qOf s.data := by rw [qOf_setWidth, qOf_setWidth, h]
  rw [execCycle, withPort_data, withPort_now, hshk, hq]
  exact respond_withPort ..

/-- A command that reads the same from other words at the port does the same. -/
theorem exec_withPort (i : Instr) (hd : SameData d s.data i) (hn : SameTime n s.now i) :
    exec i (s.withPort d n) = mapNext (State.withPort d n) (exec i s) := by
  cases i with
  | nop => exact respond_withPort ..
  | eqPush addr pin lvl => exact execEqPush_withPort addr pin lvl
  | eqPollMatch => exact respond_withPort ..
  | eqPollAddr => exact respond_withPort ..
  | eqPollAny => exact respond_withPort ..
  | eqClear => exact respond_withPort ..
  | lrSetStatus => exact checked_withPort fun _ => rfl
  | lrSetTimer =>
    obtain rfl : d = s.data := hd
    obtain rfl : n = s.now := hn
    exact checked_withPort fun _ => rfl
  | lrResetTimer => exact checked_withPort fun _ => rfl
  | lrTakeChanges => exact respond_withPort ..
  | lrTakeExpired => exact respond_withPort ..
  | lrSetPeer => exact checked_withPort fun _ => rfl
  | lrReadDigit la =>
    obtain rfl : d = s.data := hd
    exact execLrReadDigit_withPort la
  | lrReadLine => exact checked_withPort fun _ => rfl
  | tdActivate => exact respond_withPort ..
  | tdDeactivate => exact respond_withPort ..
  | rgStart la =>
    obtain rfl : n = s.now := hn
    exact execRgStart_withPort la
  | rgStop => exact checked_withPort fun _ => rfl
  | rgStopAll => exact respond_withPort ..
  | xbSet => exact checked_withPort fun _ => rfl
  | xbGet => exact checked_withPort fun _ => rfl
  | xbAreConnected => exact checked_withPort fun _ => rfl
  | xbGetConnected => exact checked_withPort fun _ => rfl
  | xbGetAll => exact checked_withPort fun _ => rfl
  | xbDisconnect => exact checked_withPort fun _ => rfl
  | regRead => exact checked_withPort fun _ => rfl
  | regWrite =>
    obtain rfl : d = s.data := hd
    exact checked_withPort fun _ => rfl
  | cycle =>
    obtain rfl : n = s.now := hn
    exact execCycle_withPort hd

/-- No command writes the port's words. -/
theorem exec_keeps_port {i : Instr} {s' : State} (h : exec i s = .next s') : s'.data = s.data ∧ s'.now = s.now := by
  obtain ⟨b, r, hnext, -, -⟩ := (exec_answers i s).completes
  cases h.symm.trans hnext
  exact ⟨rfl, rfl⟩

end Port

/-- Settles O13: with only the words changed that the command does not read, `exec_withPort` gives its answer. -/
theorem unreadDataAndTimeIgnored : Obligations.UnreadDataAndTimeIgnored := by
  intro i s s' d n h
  obtain ⟨hdata, hnow⟩ := exec_keeps_port h
  have hport (e m : Word) (he : SameData e s.data i) (hm : SameTime m s.now i) :
      exec i (s.withPort e m) = .next (s'.withPort e m) := by
    rw [exec_withPort i he hm, h, mapNext_next]
  have hdataOnly (hd : SameData d s.data i) : exec i { s with data := d } = .next { s' with data := d } := by
    rw [← withPort_of_now rfl, ← withPort_of_now hnow]
    exact hport d s.now hd (SameTime.refl _ i)
  refine ⟨fun hreads => ?_, fun hcycle hlow => ?_, fun hne hcycle => ?_⟩
  · exact hdataOnly (sameData_of_not_readsData hreads d s.data)
  · subst hcycle
    exact hdataOnly hlow
  · rw [← withPort_of_data rfl, ← withPort_of_data hdata]
    exact hport s.data n (SameData.refl _ i) (sameTime_of_ne hne hcycle n s.now)

end Sys2Proof.Machine
end

section
/-! PROOFS. The interrupt event queue (spec/40_event_queue.md R140 to R148): what each of its commands leaves and answers, what
any command may leave of the queue, and what a CYCLE drains. -/

namespace Sys2Proof.Machine

/-- A command is encoded as the row of its opcode in the table of R104 prints it. -/
theorem encoded_of_mem {i : Instr} {r : SpecRow} (hr : r ∈ specRows) (hop : r.op = i.opcode) : Encoded i r.mtch r.mask := by
  obtain ⟨row, hrow, hcommand⟩ := opcodeRow_opcode i
  obtain ⟨row', hrow', hmask⟩ := opcodeRow_of_mem hr
  obtain rfl : row' = row := Option.some.inj (hrow'.symm.trans (hop ▸ hrow))
  rw [← hmask]
  exact encoded_of_row hrow hcommand (encode_and_mask hrow hcommand) (hop ▸ (specRow_mtch_mask r hr).1.symm)

/-! EQ_PUSH (R141, R142). -/

/-- In a list in ascending order, find? finds the least element that satisfies the predicate. -/
theorem not_of_lt_find? {α : Type} [LinearOrder α] {p : α → Bool} {ls : List α} (hls : ls.Pairwise (· < ·)) {x y : α}
    (hx : ls.find? p = some x) (hy : y ∈ ls) (hlt : y < x) : p y = false := by
  obtain ⟨-, before, after, rfl, hbefore⟩ := List.find?_eq_some_iff_append.mp hx
  rcases List.mem_append.mp hy with hy | hy
  · simpa using hbefore y hy
  · have hle : ∀ z ∈ x :: after, x ≤ z := by
      have hsorted := (List.pairwise_append.mp hls).2.1
      simpa using fun z hz => (List.rel_of_pairwise_cons hsorted hz).le
    exact absurd hlt (hle y hy).not_gt

theorem allLines_ascending : allLines.Pairwise (· < ·) := by decide

/-- deriveLine finds the derived line of R141. -/
theorem isDerivedLine_deriveLine (b : Block) (addr : BitVec 7) (pin : BitVec 4) :
    IsDerivedLine b addr pin (deriveLine b addr pin) := by
  cases hline : deriveLine b addr pin with
  | none => exact fun m => by simpa [Block.pinMap] using List.find?_eq_none.mp hline m (mem_allLines m)
  | some l =>
    refine ⟨by simpa [Block.pinMap] using List.find?_some hline, fun m hlt => ?_⟩
    simpa [Block.pinMap] using not_of_lt_find? allLines_ascending hline (mem_allLines m) hlt

/-- A saturating counter as a number: min(x + 1, cap) (R46). -/
theorem satInc_eq_ofNat {n : Nat} (cap x : BitVec n) : satInc cap x = BitVec.ofNat n (min (x.toNat + 1) cap.toNat) := by
  unfold satInc
  split
  case isTrue hcap =>
    have : cap.toNat ≤ x.toNat + 1 := Nat.le_succ_of_le hcap
    rw [Nat.min_eq_right this, BitVec.ofNat_toNat, BitVec.setWidth_eq]
  case isFalse hcap =>
    have : x.toNat + 1 ≤ cap.toNat := by simpa [BitVec.le_def] using hcap
    rw [Nat.min_eq_left this, BitVec.ofNat_add, BitVec.ofNat_toNat, BitVec.setWidth_eq]
    rfl

/-- Settles O19: the line is deriveLine's in a queue with room, and the counter saturates in a full one. -/
theorem pushAppendsOrCountsTheDrop : Obligations.PushAppendsOrCountsTheDrop := by
  intro s addr pin lvl
  refine ⟨encoded_of_mem (r := ⟨0x01, [.ADDR, .PIN, .LVL], 0x04000000, 0xFFFFC003⟩) (by decide) rfl, fun hroom => ?_,
    fun hfull => ?_⟩
  · exact ⟨_, isDerivedLine_deriveLine s.blk addr pin, execEqPush_of_room hroom⟩
  · have hdrops : satInc 0xFFFFFFFF s.blk.evqDrops = BitVec.ofNat 32 (min (s.blk.evqDrops.toNat + 1) 0xFFFFFFFF) :=
      satInc_eq_ofNat 0xFFFFFFFF s.blk.evqDrops
    rw [← hdrops]
    exact execEqPush_of_full hfull.not_gt

/-! The polls (R143 to R145). -/

/-- A poll answers the event value of what removeFirst removes, and leaves the queue that it leaves. -/
theorem poll_of_removeFirst {pred : Event → Bool} {s : State} {o : Option Event} {q : List Event}
    (h : removeFirst pred s.blk.evq = (o, q)) :
    poll pred s = .next { s with blk := s.blk.setEvq q, resp := { code := 0, val := pollValue o, trace := [] } } := by
  simp only [poll, h]
  rfl

/-- A command whose meaning is a poll meets the polls' contract for the events that the filter takes. -/
theorem polls_of_poll {i : Instr} {s : State} {pred : Event → Bool} {hit : Event → Prop} (hexec : exec i s = poll pred s)
    (hhit : ∀ e, pred e = true ↔ hit e) : Polls i hit s := by
  have hmiss : ∀ {e}, ¬ hit e → pred e = false := fun {e} he => by simpa using mt (hhit e).mp he
  refine ⟨fun pre e post hq hpre he => ⟨eventValue e, isEventValue_eventValue e, ?_⟩, fun hnone => ?_⟩
  · have hfirst := removeFirst_append (post := post) (fun x hx => hmiss (hpre x hx)) ((hhit e).mpr he)
    exact hexec.trans (poll_of_removeFirst (hq ▸ hfirst))
  · exact hexec.trans (poll_of_removeFirst (removeFirst_none fun x hx => hmiss (hnone x hx)))

/-- Settles O20: each poll command is `poll` with its filter. -/
theorem pollsTakeTheFirstMatch : Obligations.PollsTakeTheFirstMatch := fun s addr pin =>
  ⟨encoded_of_mem (r := ⟨0x02, [.ADDR, .PIN], 0x08000000, 0xFFFFC007⟩) (by decide) rfl,
    polls_of_poll (pred := Event.isAt addr pin) rfl fun e => by simp [Event.isAt],
    encoded_of_mem (r := ⟨0x03, [.ADDR], 0x0C000000, 0xFFFFC07F⟩) (by decide) rfl,
    polls_of_poll (pred := Event.isOf addr) rfl fun e => by simp [Event.isOf],
    encoded_of_mem (r := ⟨0x04, [], 0x10000000, 0xFFFFFFFF⟩) (by decide) rfl,
    polls_of_poll (pred := fun _ => true) rfl fun e => by simp⟩

/-! EQ_CLEAR (R146). -/

/-- Settles O22: the count fits the word, since the invariants bound it by EVQ_CAP. -/
theorem clearRemovesEveryEvent : Obligations.ClearRemovesEveryEvent := by
  refine fun s => ⟨encoded_of_mem (r := ⟨0x05, [], 0x14000000, 0xFFFFFFFF⟩) (by decide) rfl,
    BitVec.ofNat 32 s.blk.evq.length, s.blk.setEvq [], rfl, rfl, rfl, rfl, rfl, rfl, rfl, rfl, fun hp hinv => ?_⟩
  obtain ⟨-, hcap, -, -⟩ := hp
  have hle := hinv.evq_le
  rw [BitVec.toNat_ofNat]
  omega

/-! What a command may leave of the queue (R147). -/

/-- From queue q, what a command that answers may leave as the queue. -/
inductive QueueWrite (q : List Event) : Instr → List Event → Prop where
  | kept (i : Instr) : QueueWrite q i q
  | appended (addr : BitVec 7) (pin : BitVec 4) (lvl : Bool) (e : Event) : QueueWrite q (.eqPush addr pin lvl) (q ++ [e])
  | taken {i : Instr} (hi : TakesEvents i) {q' : List Event} (hq : q'.Sublist q) : QueueWrite q i q'
  | drained {q' : List Event} (hq : q'.Sublist q) : QueueWrite q .cycle q'

section QueueWrite

variable {q q' : List Event} {i : Instr}

theorem QueueWrite.of_eq (h : q' = q) : QueueWrite q i q' := h ▸ .kept i

/-- One event is appended, by EQ_PUSH, or the events that stay keep their order. -/
theorem QueueWrite.appended_or_sublist (h : QueueWrite q i q') :
    (∃ e, (∃ a p l, i = .eqPush a p l) ∧ q' = q ++ [e]) ∨ q'.Sublist q := by
  cases h with
  | kept => exact .inr (List.Sublist.refl q)
  | appended addr pin lvl e => exact .inl ⟨e, ⟨addr, pin, lvl, rfl⟩, rfl⟩
  | taken _ hq => exact .inr hq
  | drained hq => exact .inr hq

/-- Without a taking command and a CYCLE every event stays in its place. -/
theorem QueueWrite.isPrefix (h : QueueWrite q i q') (htakes : ¬ TakesEvents i) (hcycle : i ≠ .cycle) : q <+: q' := by
  cases h with
  | kept => exact List.prefix_rfl
  | appended _ _ _ e => exact List.prefix_append q [e]
  | taken hi => exact absurd hi htakes
  | drained => exact absurd rfl hcycle

end QueueWrite

theorem afterCycle_evq_sublist (s : State) : (afterCycle s).blk.evq.Sublist s.blk.evq := by
  obtain ⟨-, -, -, -, -, -, hevq⟩ := afterCycle_shared s
  rw [hevq, drainStep_evq]
  exact List.eraseP_sublist.trans List.filter_sublist

/-- The queue's part of what a command writes. -/
theorem Wrote.evq {s : State} {i : Instr} {b : Block} (hw : Wrote s i b) : QueueWrite s.blk.evq i b.evq := by
  cases hw with
  | nothing => exact .kept i
  | pushed addr pin lvl e => exact .appended addr pin lvl e
  | dropped => exact .of_eq rfl
  | taken hi hq => exact .taken hi hq
  | lines _ hs => exact .of_eq hs.evq
  | status la sv l st => exact .of_eq (setStatus_evq l st s.work)
  | toneOn => exact .of_eq rfl
  | toneOff => exact .of_eq rfl
  | pair _ _ _ x y _ c => exact .of_eq (setPair_onlyMatrix x y c s.blk).evq
  | unpaired _ x => exact .of_eq (disconnectLine_onlyMatrix x s.blk).evq
  | config => exact .of_eq rfl
  | cycle => exact .drained (afterCycle_evq_sublist s)

/-- A poll takes at most one event out of the queue. -/
theorem poll_evq_length {pred : Event → Bool} {s s' : State} (h : poll pred s = .next s') :
    s.blk.evq.length ≤ s'.blk.evq.length + 1 := by
  cases (poll_of_removeFirst rfl).symm.trans h
  exact Nat.sub_le_iff_le_add.mp List.le_length_eraseP

/-- Of the commands that take events out of the queue, EQ_CLEAR alone may take more than one. -/
theorem TakesEvents.evq_length {i : Instr} {s s' : State} (hi : TakesEvents i) (hclear : i ≠ .eqClear)
    (h : exec i s = .next s') : s.blk.evq.length ≤ s'.blk.evq.length + 1 := by
  cases hi with
  | pollMatch => exact poll_evq_length h
  | pollAddr => exact poll_evq_length h
  | pollAny => exact poll_evq_length h
  | clear => exact absurd rfl hclear

/-- Settles O23: the polls and EQ_CLEAR apart, and a CYCLE, a command keeps every event in its place. -/
theorem eventsLeaveOnlyByTheirConsumers : Obligations.EventsLeaveOnlyByTheirConsumers := by
  intro i s s' h
  have hqueue := (exec_leaves i s s' h).2.evq
  refine ⟨hqueue.appended_or_sublist, fun hclear hcycle => ?_, fun hmatch haddr hany hclear hcycle => ?_⟩
  · by_cases htakes : TakesEvents i
    · exact htakes.evq_length hclear h
    · exact (hqueue.isPrefix htakes hcycle).length_le.trans (Nat.le_succ _)
  · refine hqueue.isPrefix (fun htakes => ?_) hcycle
    cases htakes with
    | pollMatch addr pin => exact hmatch addr pin rfl
    | pollAddr addr => exact haddr addr rfl
    | pollAny => exact hany rfl
    | clear => exact hclear rfl

/-! What a CYCLE drains (R148, R198, R225). -/

theorem isAt_strobe_eq_ofStrobe (c : Cfg) : Event.isAt c.strobeAddr c.strobePin = ofStrobe c := by
  funext e
  simp only [Event.isAt, ofStrobe, Bool.beq_comm]

/-- Step 1 leaves the events that are of no hook pin. -/
theorem drainStep_evq_eq_filter (w : Work) :
    (drainStep w).blk.evq = w.blk.evq.filter fun e => !ofHookPin w.blk.cfg e := by
  have hpin : ∀ e l, Event.isAt (w.blk.pinMap l).addr (w.blk.pinMap l).hookPin e =
      (w.blk.cfg.pinMap[l].addr == e.addr && w.blk.cfg.pinMap[l].hookPin == e.pin) := fun e l => by
    simp only [Event.isAt, Block.pinMap, Bool.beq_comm]
  rw [drainStep_evq]
  simp only [hpin, ofHookPin]

/-- Step 1 writes the queue and nothing else. -/
theorem drainStep_eq_setEvq (w : Work) : drainStep w = { w with blk := w.blk.setEvq (drainStep w).blk.evq } := rfl

/-- Settles O24: of the five steps, step 1 and step 3 write the queue. -/
theorem cycleDrainsHookPinsAndOneStrobe : Obligations.CycleDrainsHookPinsAndOneStrobe := by
  refine ⟨fun s => ⟨_, execCycle_eq s, ?_⟩, fun w => ?_⟩
  · obtain ⟨-, -, -, -, -, -, hevq⟩ := afterCycle_shared s
    rw [hevq, drainStep_evq_eq_filter, isAt_strobe_eq_ofStrobe]
    rfl
  · rw [drainStep_eq_setEvq, drainStep_evq_eq_filter]

end Sys2Proof.Machine
end

section
/-! PROOFS. The line registry's commands (spec/41_line_registry.md R160 to R171): what each writes in the record of its line, what
it answers, and its rejections. -/

namespace Sys2Proof.Machine

/-! Commands that check their operands first (R313). -/

section Checked

variable {α : Type} {i : Instr} {s : State} {ops : Except Err α} {k : α → Result}

/-- A command whose operand check raises e is rejected with e's code. -/
theorem rejects_of_operands {e : Err} (hexec : exec i s = checked i s ops k) (hops : ops = .error e) : Rejects i s e.code :=
  rejects_of_error (by rw [hexec, hops, checked_error])

/-- A command whose operands pass and that then responds is performed. -/
theorem performs_of_operands {a : α} {w : Work} {v : Word} (hexec : exec i s = checked i s ops k) (hops : ops = .ok a)
    (hk : k a = respond s w v) : Performs i s w.blk v w.out := by
  rw [Performs, hexec, hops, checked_ok, hk, respond_eq]

/-- A command whose operands pass and that then raises e is rejected with e's code. -/
theorem rejects_of_perform {a : α} {e : Err} (hexec : exec i s = checked i s ops k) (hops : ops = .ok a)
    (hk : k a = raiseErr e i s) : Rejects i s e.code :=
  rejects_of_error (by rw [hexec, hops, checked_ok, hk, raiseErr_eq])

end Checked

theorem exists_lineCode {f : BitVec 4} (h : f.toNat < 8) : ∃ l, f = lineCode l :=
  ⟨⟨f.toNat, h⟩, BitVec.eq_of_toNat_eq (lineCode_toNat ⟨f.toNat, h⟩).symm⟩

/-! Updates of the records. -/

theorem onlyLine_modifyLine (b : Block) (l : Line) (f : LineRec → LineRec) :
    OnlyLine b (b.modifyLine l f) l (f (b.line l)) where
  line := line_modifyLine_same b l f
  others := fun _ hm => line_modifyLine_ne b f hm
  shared := ⟨rfl, rfl, rfl, rfl, rfl, rfl⟩

/-- A command that checks a line operand alone and then updates that line's record. -/
theorem performs_modifyLine {i : Instr} {s : State} {l : Line} {f : LineRec → LineRec}
    (hexec : exec i s = checked i s (lineOperand (lineCode l)) fun l => respond s (s.work.modifyLine l f) 0) :
    ∃ b, Performs i s b 0 [] ∧ OnlyLine s.blk b l (f (s.blk.line l)) :=
  ⟨_, performs_of_operands hexec (lineOperand_lineCode l) rfl, onlyLine_modifyLine s.blk l f⟩

theorem sharedSame_forLines_modifyLine (f : Line → LineRec → LineRec) (b : Block) :
    SharedSame b (forLines (fun l b => b.modifyLine l (f l)) b) := by
  obtain ⟨hready, hxb, hevq, hdrops, htone, hcfg⟩ := forLines_modifyLine_shared f b
  exact ⟨hready, hxb, hevq, hdrops, htone, hcfg⟩

/-! LR_SET_STATUS (R160 to R162). -/

/-- Apart from the last-ready pointer, setStatus writes the record of its line alone (R160). -/
theorem onlyLine_setStatus (l : Line) (st : LineStatus) (w : Work) :
    OnlyLine (w.blk.setLastReady (nextLastReady l st w.blk.lastReady)) (setStatus l st w).blk l
      (applyStatus st (w.blk.line l)) where
  line := setStatus_line_same l st w
  others := fun _ hm => setStatus_line_ne st w hm
  shared := ⟨setStatus_lastReady .., setStatus_xb .., setStatus_evq .., setStatus_evqDrops .., setStatus_tone ..,
    setStatus_cfg ..⟩

theorem setStatusOperands_codes (l : Line) (st : LineStatus) : setStatusOperands (lineCode l) st.code = .ok (l, st) := by
  simp [setStatusOperands, bind, Except.bind]

theorem setStatusOperands_line_error {la : BitVec 4} (sv : BitVec 4) (hla : 8 ≤ la.toNat) :
    setStatusOperands la sv = .error .line := by
  simp [setStatusOperands, lineOperand_error.mpr ⟨rfl, hla⟩, bind, Except.bind]

theorem setStatusOperands_value_error {la sv : BitVec 4} (hla : la.toNat < 8) (hsv : 14 ≤ sv.toNat) :
    setStatusOperands la sv = .error .value := by
  obtain ⟨l, rfl⟩ := exists_lineCode hla
  simp [setStatusOperands, statusOperand_error.mpr ⟨rfl, hsv⟩, bind, Except.bind]

/-- Settles O25: the command is setStatus, whose record `applyStatus_eq` gives field by field. -/
theorem setStatusAppliesAndNotifies : Obligations.SetStatusAppliesAndNotifies := by
  refine fun s => ⟨fun l st => ?_, fun la sv =>
    ⟨encoded_of_mem (r := ⟨0x08, [.LA, .SV], 0x20000000, 0xFC3C3FFF⟩) (by decide) rfl, fun hla => ?_, fun hla hsv => ?_⟩⟩
  · refine ⟨(setStatus l st s.work).blk, ?_, ?_⟩
    · have trace := setStatus_out l st s.work
      rw [state_work_out, List.nil_append] at trace
      exact trace ▸ performs_of_operands rfl (setStatusOperands_codes l st) rfl
    · exact applyStatus_eq st (s.blk.line l) ▸ onlyLine_setStatus l st s.work
  · exact rejects_of_operands rfl (setStatusOperands_line_error sv hla)
  · exact rejects_of_operands rfl (setStatusOperands_value_error hla hsv)

/-! LR_SET_TIMER and LR_RESET_TIMER (R163 to R165). -/

/-- Settles O26: the two commands update the record of their line by setLineTimer and by cancelTimer. -/
theorem timersAreArmedAndCancelled : Obligations.TimersAreArmedAndCancelled := fun s =>
  ⟨fun _ => performs_modifyLine (f := setLineTimer s.now s.data) rfl, fun _ => performs_modifyLine (f := cancelTimer) rfl,
    fun _ => ⟨encoded_of_mem (r := ⟨0x09, [.LA], 0x24000000, 0xFC3FFFFF⟩) (by decide) rfl,
      encoded_of_mem (r := ⟨0x0A, [.LA], 0x28000000, 0xFC3FFFFF⟩) (by decide) rfl,
      fun hla => ⟨rejects_of_operands rfl (lineOperand_error.mpr ⟨rfl, hla⟩),
        rejects_of_operands rfl (lineOperand_error.mpr ⟨rfl, hla⟩)⟩⟩⟩

/-! LR_TAKE_CHANGES and LR_TAKE_EXPIRED (R167, R168). -/

/-- Settles O27: the answer is the mask of the bits, and the loop clears that bit of every record. -/
theorem takesReadAndClear : Obligations.TakesReadAndClear := fun s =>
  ⟨encoded_of_mem (r := ⟨0x0B, [], 0x2C000000, 0xFFFFFFFF⟩) (by decide) rfl,
    encoded_of_mem (r := ⟨0x0C, [], 0x30000000, 0xFFFFFFFF⟩) (by decide) rfl,
    ⟨_, _, rfl, isLineBits_lineMask fun _ => rfl, sharedSame_forLines_modifyLine (fun _ L => { L with change := false }) s.blk,
      clearChanges_line s.blk⟩,
    ⟨_, _, rfl, isLineBits_lineMask fun _ => rfl, sharedSame_forLines_modifyLine (fun _ L => { L with expired := false }) s.blk,
      clearExpired_line s.blk⟩⟩

/-! LR_SET_PEER (R169). -/

theorem exists_optLineCode {f : BitVec 4} (h : f.toNat < 8 ∨ f = 0xF) : ∃ o, f = optLineCode o := by
  rcases h with h | h
  · obtain ⟨l, rfl⟩ := exists_lineCode h
    exact ⟨some l, rfl⟩
  · exact ⟨none, h⟩

theorem peerOperand_error {f : BitVec 4} (hlow : 8 ≤ f.toNat) (hhigh : f.toNat ≤ 14) : peerOperand f = .error .line := by
  have hne : f ≠ 0xF := by rintro rfl; exact absurd hhigh (by decide)
  rw [peerOperand, if_neg hne, lineOperand_error.mpr ⟨rfl, hlow⟩]
  rfl

theorem setPeerOperands_ok {l : Line} {peer : Option Line} {sv : BitVec 4} {side : PeerSide} (hne : peer ≠ some l)
    (hside : sideOperand sv = .ok side) : setPeerOperands (lineCode l) (optLineCode peer) sv = .ok (l, peer, side) := by
  simp [setPeerOperands, hne, hside, bind, Except.bind]

theorem setPeerOperands_line_error {la : BitVec 4} (lb sv : BitVec 4) (hla : 8 ≤ la.toNat) :
    setPeerOperands la lb sv = .error .line := by
  simp [setPeerOperands, lineOperand_error.mpr ⟨rfl, hla⟩, bind, Except.bind]

theorem setPeerOperands_peer_error (l : Line) {lb : BitVec 4} (sv : BitVec 4) (hlow : 8 ≤ lb.toNat) (hhigh : lb.toNat ≤ 14) :
    setPeerOperands (lineCode l) lb sv = .error .line := by
  simp [setPeerOperands, peerOperand_error hlow hhigh, bind, Except.bind]

theorem setPeerOperands_same_error (l : Line) (sv : BitVec 4) :
    setPeerOperands (lineCode l) (lineCode l) sv = .error .same := by
  have hpeer : peerOperand (lineCode l) = .ok (some l) := peerOperand_code (some l)
  simp [setPeerOperands, hpeer, bind, Except.bind]

theorem setPeerOperands_value_error {l : Line} {peer : Option Line} {sv : BitVec 4} (hne : peer ≠ some l)
    (hsv : 2 ≤ sv.toNat) :
    setPeerOperands (lineCode l) (optLineCode peer) sv = .error .value := by
  simp [setPeerOperands, hne, sideOperand_error.mpr ⟨rfl, hsv⟩, bind, Except.bind]

/-- A performed LR_SET_PEER writes the pointer of its side (R169). -/
theorem performs_lrSetPeer {s : State} {l : Line} {peer : Option Line} {sv : BitVec 4} {side : PeerSide}
    (hne : peer ≠ some l) (hside : sideOperand sv = .ok side) :
    ∃ b, Performs (.lrSetPeer (lineCode l) (optLineCode peer) sv) s b 0 [] ∧
      OnlyLine s.blk b l (setPeer side peer (s.blk.line l)) :=
  ⟨(s.work.modifyLine l (setPeer side peer)).blk, performs_of_operands rfl (setPeerOperands_ok hne hside) rfl,
    onlyLine_modifyLine s.blk l (setPeer side peer)⟩

/-- Settles O28: the operands are those of two distinct codes, or the first check that fails rejects. -/
theorem setPeerWritesOnePointer : Obligations.SetPeerWritesOnePointer := by
  refine fun s => ⟨fun l peer hne =>
      ⟨performs_lrSetPeer hne (side := .incoming) rfl, performs_lrSetPeer hne (side := .outgoing) rfl⟩,
    fun la lb sv => ⟨encoded_of_mem (r := ⟨0x0D, [.LA, .LB, .SV], 0x34000000, 0xFC003FFF⟩) (by decide) rfl,
      fun hla => ?_, fun hla hlow hhigh => ?_, fun hla hsame => ?_, fun hla hlb hne hsv => ?_⟩⟩
  · exact rejects_of_operands rfl (setPeerOperands_line_error lb sv hla)
  · obtain ⟨l, rfl⟩ := exists_lineCode hla
    exact rejects_of_operands rfl (setPeerOperands_peer_error l sv hlow hhigh)
  · obtain ⟨l, rfl⟩ := exists_lineCode hla
    subst hsame
    exact rejects_of_operands rfl (setPeerOperands_same_error l sv)
  · obtain ⟨l, rfl⟩ := exists_lineCode hla
    obtain ⟨peer, rfl⟩ := exists_optLineCode hlb
    have hpeer : peer ≠ some l := by rintro rfl; exact hne rfl
    exact rejects_of_operands rfl (setPeerOperands_value_error hpeer hsv)

/-! LR_READ_DIGIT (R171). -/

/-- Settles O29: the look-up finds a character exactly for an index below the number of digits. -/
theorem readDigitAnswersTheCharacter : Obligations.ReadDigitAnswersTheCharacter := by
  refine fun s => ⟨fun l h => ?_, fun l h => ?_, fun la =>
    ⟨encoded_of_mem (r := ⟨0x0E, [.LA], 0x38000000, 0xFC3FFFFF⟩) (by decide) rfl,
      fun hla => rejects_of_operands rfl (lineOperand_error.mpr ⟨rfl, hla⟩)⟩⟩
  · refine performs_of_operands (w := s.work) rfl (lineOperand_lineCode l) ?_
    rw [List.getElem?_eq_getElem h]
  · refine rejects_of_perform (e := .range) rfl (lineOperand_lineCode l) ?_
    rw [List.getElem?_eq_none h]

end Sys2Proof.Machine
end

section
/-! PROOFS. What a CYCLE does to a line's status, digits and timer (spec/41_line_registry.md R160 to R174; spec/42_hook_pulse.md R195;
spec/43_tone_decoder.md R230; spec/46_system.md R296). -/

namespace Sys2Proof.Machine

/-! What the parts of a CYCLE may write in a record. -/

section Frames

variable (p : Params) (c : Cfg) (now : Word) (r : Bool) (L : LineRec)

/-- The hook filter writes its own fields, the hook states and the detector's (R191). -/
theorem hookFilter_frame :
    let F := hookFilter c now r L
    F = { L with hook := F.hook, prevHook := F.prevHook, hCand := F.hCand, hSince := F.hSince, hCount := F.hCount,
                 pPhase := F.pPhase, pCount := F.pCount } := by
  have sampled : let S := hookSample now r L
      S = { L with hCand := S.hCand, hSince := S.hSince, hCount := S.hCount } := by
    unfold hookSample
    split <;> rfl
  unfold hookFilter
  generalize hookSample now r L = S at sampled
  rw [sampled]
  unfold hookAccept
  split
  · dsimp only
    split <;> rfl
  · rfl

/-- The glitch filter writes its own fields (R192). -/
theorem glitchFilter_frame :
    let F := (glitchFilter c now r L).1
    F = { L with gCand := F.gCand, gSince := F.gSince, gLevel := F.gLevel } := by
  unfold glitchFilter glitchAccept glitchSample
  split
  · split <;> rfl
  · split <;> rfl

/-- Both filters of a line (R190). -/
theorem filterLine_frame :
    let F := (filterLine c now r L).1
    F = { L with hook := F.hook, prevHook := F.prevHook, hCand := F.hCand, hSince := F.hSince, hCount := F.hCount,
                 gCand := F.gCand, gSince := F.gSince, gLevel := F.gLevel, pPhase := F.pPhase, pCount := F.pCount } := by
  have hook := hookFilter_frame c now r L
  have glitch := glitchFilter_frame c now r (hookFilter c now r L)
  unfold filterLine
  generalize hookFilter c now r L = H at hook glitch
  generalize (glitchFilter c now r H).1 = F at glitch
  dsimp only at hook glitch ⊢
  rw [glitch, hook]

/-- The edge step writes the detector's fields (R194). -/
theorem edgeRec_frame (e : Option Edge) :
    let E := edgeRec c e L
    E = { L with pPhase := E.pPhase, pCount := E.pCount, pEdge := E.pEdge } := by
  unfold edgeRec
  split
  · rfl
  · rfl
  · split <;> rfl
  · rfl

/-- The cadence writes the ring sub-state (R255). -/
theorem ringUpdate_frame :
    let R := ringUpdate p c now L
    R = { L with rPhase := R.rPhase, rIter := R.rIter, rT0 := R.rT0, rTT := R.rTT, fr := R.fr, rm := R.rm } := by
  have toggling : let R := togglingPhase p c now L
      R = { L with rPhase := R.rPhase, rIter := R.rIter, rT0 := R.rT0, rTT := R.rTT, fr := R.fr, rm := R.rm } := by
    unfold togglingPhase endToggling
    dsimp only
    split
    · split <;> rfl
    · split <;> rfl
  have pause : let R := pausePhase c now L
      R = { L with rPhase := R.rPhase, rIter := R.rIter, rT0 := R.rT0, rTT := R.rTT, fr := R.fr, rm := R.rm } := by
    unfold pausePhase
    split <;> rfl
  unfold ringUpdate
  split
  · rfl
  · split
    · rfl
    · exact toggling
  · split
    · rfl
    · exact pause

/-- Step 5 writes the timer's two flags (R166). -/
theorem timerExpiry_frame :
    let T := timerExpiry now L
    T = { L with tArmed := T.tArmed, expired := T.expired } := by
  unfold timerExpiry
  split <;> rfl

end Frames

/-! The timers (R163 to R166). -/

/-- The timer of a record (R38, R39): tArmed, tStart, tDur, expired. -/
def LineRec.timer (L : LineRec) : Bool × Word × Word × Bool := (L.tArmed, L.tStart, L.tDur, L.expired)

/-- Step 5 expires a timer that is armed and due (R166). -/
theorem timerExpiry_of_due {now : Word} {L : LineRec} (h : L.tArmed = true ∧ Reached now L.tStart L.tDur) :
    timerExpiry now L = { L with tArmed := false, expired := true } := if_pos h

/-- Step 5 leaves any other timer alone (R166). -/
theorem timerExpiry_of_not_due {now : Word} {L : LineRec} (h : ¬ (L.tArmed = true ∧ Reached now L.tStart L.tDur)) :
    timerExpiry now L = L := if_neg h

/-- After step 5 the timer is not due. -/
theorem not_due_timerExpiry (now : Word) (L : LineRec) :
    ¬ ((timerExpiry now L).tArmed = true ∧ Reached now (timerExpiry now L).tStart (timerExpiry now L).tDur) := by
  by_cases h : L.tArmed = true ∧ Reached now L.tStart L.tDur
  · rw [timerExpiry_of_due h]
    exact fun due => Bool.false_ne_true due.1
  · rwa [timerExpiry_of_not_due h]

theorem gapRec_timer (p : Params) (c : Cfg) (now : Word) (L : LineRec) : (gapRec p c now L).timer = L.timer := by
  unfold gapRec emitRec
  split
  · dsimp only
    split
    · rw [applyStatus_eq]
      rfl
    · rfl
  · split <;> rfl

/-- Step 2 leaves every timer alone (R190). -/
theorem lineRec2_timer (p : Params) (c : Cfg) (now : Word) (shk : BitVec 8) (l : Line) (L : LineRec) :
    (lineRec2 p c now shk l L).timer = L.timer := by
  have filtered (r : Bool) : (filterLine c now r L).1.timer = L.timer := (congrArg LineRec.timer (filterLine_frame c now r L) :)
  have edge (e : Option Edge) (M : LineRec) : (edgeRec c e M).timer = M.timer := (congrArg LineRec.timer (edgeRec_frame c M e) :)
  unfold lineRec2 hookPulseRec detectorRec
  split
  · split
    · rw [gapRec_timer, edge, filtered]
    · exact filtered _
  · rfl

/-- With the tone decoder off, step 3 leaves every record alone (R225). -/
theorem afterTone_line_of_inactive {s : State} (h : s.blk.tone.active = false) (m : Line) :
    (afterTone s).blk.line m = (afterPulse s).blk.line m := by
  obtain ⟨-, -, -, tone, -⟩ := afterPulse_shared s
  have off : ¬ (afterPulse s).blk.tone.active = true := by rw [tone, h]; exact Bool.false_ne_true
  cases afterTone_effect s with
  | nothing hl _ => exact hl m
  | timer _ _ ha => exact absurd ha off
  | digit _ _ ha => exact absurd ha off

/-- With the tone decoder off, a CYCLE expires the timer that a line had before it. -/
theorem afterCycle_line_timer_of_inactive {s : State} (h : s.blk.tone.active = false) (m : Line) :
    ∃ M : LineRec, M.timer = (s.blk.line m).timer ∧ (afterCycle s).blk.line m = timerExpiry s.now M := by
  refine ⟨_, ?_, afterCycle_line s m⟩
  rw [afterTone_line_of_inactive h, afterPulse_line]
  exact (congrArg LineRec.timer (ringUpdate_frame ..) :).trans (lineRec2_timer ..)

/-- Settles O59: step 5 is timerExpiry on each record, and before it, with the tone decoder off, the timers are those before the
CYCLE. -/
theorem dueTimersExpireInTheCycle : Obligations.DueTimersExpireInTheCycle := by
  refine ⟨fun now w => ?_, fun s => ⟨_, execCycle_eq s, fun l => ⟨?_, fun hoff => ?_⟩⟩⟩
  · obtain ⟨line, out, ready, xb, evq, drops, tone, cfg⟩ := timerStep_effect now w
    exact ⟨out, ⟨ready, xb, evq, drops, tone, cfg⟩, fun l =>
      ⟨fun due => (line l).trans (timerExpiry_of_due due), fun due => (line l).trans (timerExpiry_of_not_due due)⟩⟩
  · dsimp only
    rw [afterCycle_line]
    exact not_due_timerExpiry s.now _
  · obtain ⟨M, htimer, hline⟩ := afterCycle_line_timer_of_inactive hoff l
    simp only [LineRec.timer, Prod.mk.injEq] at htimer
    obtain ⟨armed, start, dur, expired⟩ := htimer
    dsimp only
    rw [hline, ← armed, ← start, ← dur, ← expired]
    by_cases due : M.tArmed = true ∧ Reached s.now M.tStart M.tDur
    · rw [timerExpiry_of_due due]
      exact ⟨rfl, rfl, fun _ => ⟨rfl, rfl⟩, fun h => absurd due h⟩
    · rw [timerExpiry_of_not_due due]
      exact ⟨rfl, rfl, fun h => absurd h due, fun _ => ⟨rfl, rfl⟩⟩

/-! The digits (R170, R174). -/

/-- The status and the digits of a record (R34, R36). -/
def LineRec.dialling (L : LineRec) : LineStatus × List Byte := (L.status, L.digits)

/-- What the decoder whose dialing status is st may do to a record (R195, R230): nothing that shows in the status and the digits,
or, from Ready or st, move it to st and append at most one digit. -/
inductive DialStep (st : LineStatus) (L L' : LineRec) : Prop where
  | kept (h : L'.dialling = L.dialling)
  | dialled (hfrom : L.status = .ready ∨ L.status = st) (hto : L'.status = st)
      (hdigits : L'.digits = L.digits ∨ ∃ ch : Byte, L'.digits = L.digits ++ [ch])

theorem DialStep.of_same {st : LineStatus} {L M L' : LineRec} (h : DialStep st M L') (hL : M.dialling = L.dialling) :
    DialStep st L L' := by
  obtain ⟨hstatus, hdigits⟩ := Prod.mk.inj hL
  cases h with
  | kept h => exact .kept (h.trans hL)
  | dialled hfrom hto hd => exact .dialled (hstatus ▸ hfrom) hto (hdigits ▸ hd)

theorem appended_digits (p : Params) (ch : Byte) (L : LineRec) :
    (appended p ch L).digits = L.digits ∨ (appended p ch L).digits = L.digits ++ [ch] := by
  unfold appended
  dsimp only
  split
  · exact .inr rfl
  · exact .inl rfl

/-- A decoder's digit, and the move of a Ready line to its status. -/
theorem dialStep_appended {st : LineStatus} (hst : st ≠ .idle) (p : Params) (ch : Byte) {L : LineRec}
    (hfrom : L.status = .ready ∨ L.status = st) :
    DialStep st L (if L.status = .ready then applyStatus st (appended p ch L) else appended p ch L) := by
  have hdigits : (appended p ch L).digits = L.digits ∨ ∃ d : Byte, (appended p ch L).digits = L.digits ++ [d] :=
    (appended_digits p ch L).imp_right fun h => ⟨ch, h⟩
  by_cases hready : L.status = .ready
  · rw [if_pos hready, applyStatus_eq]
    refine .dialled hfrom rfl ?_
    rw [if_neg hst]
    exact hdigits
  · rw [if_neg hready]
    exact .dialled hfrom (hfrom.resolve_left hready) hdigits

theorem gapRec_dialStep (p : Params) (c : Cfg) (now : Word) {L : LineRec} (hfrom : L.status = .ready ∨ L.status = .pulseDialing) :
    DialStep .pulseDialing L (gapRec p c now L) := by
  unfold gapRec
  split
  · exact (dialStep_appended (by decide) p (pulseDigit L.pCount) (L := pulseIdle L) hfrom).of_same rfl
  · split
    · exact .kept rfl
    · exact .kept rfl

theorem detectorRec_dialStep (p : Params) (c : Cfg) (now : Word) (e : Option Edge) (L : LineRec) :
    DialStep .pulseDialing L (detectorRec p c now e L) := by
  unfold detectorRec
  split
  · rename_i hgate
    have hfrom : (edgeRec c e L).status = .ready ∨ (edgeRec c e L).status = .pulseDialing := by
      simp only [pulseGate, Bool.and_eq_true, Bool.or_eq_true, beq_iff_eq] at hgate
      rw [edgeRec_status]
      exact hgate.2
    exact (gapRec_dialStep p c now hfrom).of_same (congrArg LineRec.dialling (edgeRec_frame c L e) :)
  · exact .kept rfl

/-- Step 2 is a step of the pulse decoder (R193, R195). -/
theorem lineRec2_dialStep (p : Params) (c : Cfg) (now : Word) (shk : BitVec 8) (l : Line) (L : LineRec) :
    DialStep .pulseDialing L (lineRec2 p c now shk l L) := by
  unfold lineRec2 hookPulseRec
  split
  · exact (detectorRec_dialStep ..).of_same (congrArg LineRec.dialling (filterLine_frame c now _ L) :)
  · exact .kept rfl

/-- Step 3 is a step of the tone decoder on each line (R230). -/
theorem ToneEffect.dialStep {p : Params} {now : Word} {w w' : Work} (e : ToneEffect p now w w') (m : Line) :
    DialStep .toneDialing (w.blk.line m) (w'.blk.line m) := by
  cases e with
  | nothing hl _ => exact .kept (congrArg LineRec.dialling (hl m))
  | timer l d _ hl ho _ =>
    by_cases hm : m = l
    · subst hm
      exact .kept (congrArg LineRec.dialling hl :)
    · exact .kept (congrArg LineRec.dialling (ho m hm))
  | digit l ch _ hs hl ho _ =>
    by_cases hm : m = l
    · subst hm
      exact hl ▸ dialStep_appended (by decide) p ch hs
    · exact .kept (congrArg LineRec.dialling (ho m hm))

/-- Steps 4 and 5 leave the status and the digits alone. -/
theorem afterCycle_dialling (s : State) (m : Line) :
    ((afterCycle s).blk.line m).dialling = ((afterTone s).blk.line m).dialling := by
  rw [afterCycle_line]
  exact (congrArg LineRec.dialling (timerExpiry_frame ..) :).trans (congrArg LineRec.dialling (ringUpdate_frame ..) :)

/-- Settles O57: a line that the pulse decoder dialled is in PulseDialing, where the tone decoder leaves it alone. -/
theorem digitsHaveOneWriterAtATime : Obligations.DigitsHaveOneWriterAtATime := by
  refine fun s => ⟨_, execCycle_eq s, fun l => ?_⟩
  have pulse := lineRec2_dialStep s.params s.blk.cfg s.now (shkOf s.data) l (s.blk.line l)
  rw [← afterPulse_line] at pulse
  have tone := (afterTone_effect s).dialStep l
  obtain ⟨status, digits⟩ := Prod.mk.inj (afterCycle_dialling s l)
  dsimp only
  rw [status, digits]
  cases tone with
  | kept same =>
    obtain ⟨status, digits⟩ := Prod.mk.inj same
    rw [status, digits]
    cases pulse with
    | kept same => exact .inl (congrArg Prod.snd same)
    | dialled hfrom hto hdigits =>
      refine hdigits.imp_right fun ⟨ch, hch⟩ => ⟨ch, hch, ?_⟩
      exact hfrom.imp (fun h => ⟨h, .inl hto⟩) fun h => .inl ⟨h, hto⟩
  | dialled hfrom hto hdigits =>
    cases pulse with
    | kept same =>
      obtain ⟨status, digits⟩ := Prod.mk.inj same
      rw [status] at hfrom
      rw [digits] at hdigits
      refine hdigits.imp_right fun ⟨ch, hch⟩ => ⟨ch, hch, ?_⟩
      exact hfrom.imp (fun h => ⟨h, .inr hto⟩) fun h => .inr ⟨h, hto⟩
    | dialled _ hpulse _ =>
      rw [hpulse] at hfrom
      exact absurd hfrom (by decide)

end Sys2Proof.Machine
end

section
/-! PROOFS. The status changes of a CYCLE and what marks them (spec/41_line_registry.md R160, R161; spec/42_hook_pulse.md R195;
spec/43_tone_decoder.md R230): a relation between the work before and after that every operation of a CYCLE meets. -/

namespace Sys2Proof.Machine

/-- The status, the previous status and the change bit of a record (R34, R39). -/
def LineRec.standing (L : LineRec) : LineStatus × LineStatus × Bool := (L.status, L.prevStatus, L.change)

/-- From w to w', line m stands as before, or it left Ready for a dialing status with the marks that set-status leaves. -/
inductive StatusMarked (w w' : Work) (m : Line) : Prop where
  | kept (h : (w'.blk.line m).standing = (w.blk.line m).standing)
  | left (st : LineStatus) (hst : st = .pulseDialing ∨ st = .toneDialing) (hfrom : (w.blk.line m).status = .ready)
      (hto : (w'.blk.line m).standing = (st, .ready, true)) (hready : w'.blk.lastReady ≠ some m)
      (hnotified : w.blk.cfg.notifyEn = true → .notify m st ∈ w'.out)

/-- From w to w', every change of a line's status is marked; the configuration and the records emitted stay, and the last-ready
pointer names no line that it did not name. -/
structure Marks (w w' : Work) : Prop where
  cfg : w'.blk.cfg = w.blk.cfg
  out : w.out ⊆ w'.out
  ready : ∀ m, w.blk.lastReady ≠ some m → w'.blk.lastReady ≠ some m
  line : ∀ m, StatusMarked w w' m

/-! The relation composes. -/

/-- Nothing that the relation speaks of changes but the trace, which may grow. -/
theorem Marks.of_same {w w' : Work} (cfg : w'.blk.cfg = w.blk.cfg) (out : w.out ⊆ w'.out)
    (ready : w'.blk.lastReady = w.blk.lastReady) (line : ∀ m, (w'.blk.line m).standing = (w.blk.line m).standing) : Marks w w' :=
  ⟨cfg, out, fun _ h => ready ▸ h, fun m => .kept (line m)⟩

theorem Marks.refl (w : Work) : Marks w w := .of_same rfl (List.Subset.refl _) rfl fun _ => rfl

/-- A line that has left Ready is in a dialing status, so it does not leave Ready again. -/
theorem Marks.trans {w v u : Work} (h : Marks w v) (k : Marks v u) : Marks w u := by
  refine ⟨k.cfg.trans h.cfg, List.Subset.trans h.out k.out, fun m hm => k.ready m (h.ready m hm), fun m => ?_⟩
  cases h.line m with
  | kept same =>
    cases k.line m with
    | kept same' => exact .kept (same'.trans same)
    | left st hst hfrom hto hready hnotified =>
      exact .left st hst ((congrArg Prod.fst same).symm.trans hfrom) hto hready (h.cfg ▸ hnotified)
  | left st hst hfrom hto hready hnotified =>
    cases k.line m with
    | kept same => exact .left st hst hfrom (same.trans hto) (k.ready m hready) fun hen => k.out (hnotified hen)
    | left _ _ hfrom' =>
      have hst' : st = .ready := (congrArg Prod.fst hto).symm.trans hfrom'
      subst hst'
      exact absurd hst (by decide)

theorem Marks.forLines {f : Line → Work → Work} (hf : ∀ l a, Marks a (f l a)) (w : Work) : Marks w (forLines f w) :=
  forLines_induct (Marks w) f w (.refl w) fun l a h => h.trans (hf l a)

/-! The shared operations. -/

theorem Marks.emit (w : Work) (r : Out) : Marks w (w.emit r) := .of_same rfl (List.subset_append_left ..) rfl fun _ => rfl

theorem Marks.onTone (w : Work) (f : ToneState → ToneState) : Marks w (w.onTone f) :=
  .of_same rfl (List.Subset.refl _) rfl fun _ => rfl

theorem Marks.setEvq (w : Work) (q : Block → List Event) : Marks w (w.onBlk fun b => b.setEvq (q b)) :=
  .of_same rfl (List.Subset.refl _) rfl fun _ => rfl

/-- An update of one record that keeps its status, previous status and change bit. -/
theorem Marks.modifyLine {w : Work} {l : Line} {f : LineRec → LineRec}
    (hf : (f (w.blk.line l)).standing = (w.blk.line l).standing) : Marks w (w.modifyLine l f) := by
  refine .of_same rfl (List.Subset.refl _) rfl fun m => ?_
  rw [workModifyLine_blk]
  by_cases hm : m = l
  · rw [hm, line_modifyLine_same, hf]
  · rw [line_modifyLine_ne _ _ hm]

theorem Marks.appendDigit (p : Params) (l : Line) (ch : Byte) (w : Work) : Marks w (appendDigit p l ch w) := by
  rcases appendDigit_cases p l ch w with ⟨-, h⟩ | ⟨-, h⟩ <;> rw [h]
  · exact .modifyLine rfl
  · exact .emit ..

/-- Set-status from Ready to a dialing status leaves the marks (R160, R161). -/
theorem Marks.setStatus {w : Work} {l : Line} {st : LineStatus} (hst : st = .pulseDialing ∨ st = .toneDialing)
    (hfrom : (w.blk.line l).status = .ready) : Marks w (setStatus l st w) := by
  have hne : st ≠ .ready := by rintro rfl; exact absurd hst (by decide)
  have hready : (Machine.setStatus l st w).blk.lastReady = if w.blk.lastReady = some l then none else w.blk.lastReady := by
    rw [setStatus_lastReady, nextLastReady, if_neg hne]
  refine ⟨setStatus_cfg l st w, ?_, fun m hm => ?_, fun m => ?_⟩
  · rw [setStatus_out]
    exact List.subset_append_left ..
  · rw [hready]
    split
    · nofun
    · exact hm
  · by_cases hm : m = l
    · subst hm
      refine .left st hst hfrom ?_ ?_ fun hen => ?_
      · rw [setStatus_line_same, applyStatus_eq, LineRec.standing, hfrom]
      · rw [hready]
        split
        · nofun
        · assumption
      · rw [setStatus_out, if_pos hen]
        exact List.mem_append_right _ (List.mem_singleton_self _)
    · exact .kept (congrArg LineRec.standing (setStatus_line_ne st w hm))

/-! Steps 1 and 2. -/

theorem drainStep_marks (w : Work) : Marks w (drainStep w) := .setEvq ..

theorem edgeStep_marks (l : Line) (e : Option Edge) (w : Work) : Marks w (edgeStep l e w) := by
  unfold edgeStep
  split
  · exact .modifyLine rfl
  · exact .modifyLine rfl
  · unfold endPulse
    dsimp only
    split
    · exact .modifyLine rfl
    · exact (Marks.emit ..).trans (.modifyLine rfl)
  · exact .refl w

theorem emitDigit_marks (p : Params) (l : Line) (w : Work) : Marks w (emitDigit p l w) := by
  have digit := (Marks.modifyLine (l := l) (f := pulseIdle) rfl).trans
    (.appendDigit p l (pulseDigit (w.blk.line l).pCount) (w.modifyLine l pulseIdle))
  unfold emitDigit
  dsimp only
  split
  · exact digit.trans (.setStatus (.inl rfl) ‹_›)
  · exact digit

theorem gapAndTimeout_marks (p : Params) (now : Word) (l : Line) (w : Work) : Marks w (gapAndTimeout p now l w) := by
  rcases gapAndTimeout_cases p now l w with ⟨-, h⟩ | ⟨-, -, h⟩ | ⟨-, -, h⟩ <;> rw [h]
  · exact emitDigit_marks p l w
  · exact (Marks.emit ..).trans (.modifyLine rfl)
  · exact .refl w

theorem hookPulseLine_marks (p : Params) (now : Word) (shk : BitVec 8) (l : Line) (w : Work) :
    Marks w (hookPulseLine p now shk l w) := by
  unfold hookPulseLine
  split
  · have filtered : (filterLine w.blk.cfg now (shk.getLsbD l.val) (w.blk.line l)).1.standing = (w.blk.line l).standing :=
      (congrArg LineRec.standing (filterLine_frame ..) :)
    refine (Marks.modifyLine (f := fun _ => _) filtered).trans ?_
    unfold pulseDetector
    dsimp only
    split
    · exact (edgeStep_marks ..).trans (gapAndTimeout_marks ..)
    · exact .modifyLine rfl
  · exact .refl w

theorem hookPulseStep_marks (p : Params) (now : Word) (shk : BitVec 8) (w : Work) : Marks w (hookPulseStep p now shk w) :=
  .forLines (hookPulseLine_marks p now shk) w

/-! Step 3. -/

theorem appendTone_marks (p : Params) (n : BitVec 4) (w : Work) : Marks w (appendTone p n w) := by
  unfold appendTone
  split
  · exact .emit ..
  · rename_i l _
    split
    · have digit := (Marks.appendDigit p l (dtmfChar p n) w).trans (.onTone _ fun t => { t with line := some l })
      dsimp only
      split
      · exact digit.trans (.setStatus (.inr rfl) ‹_›)
      · exact digit
    · exact .emit ..

theorem acceptNibble_marks (p : Params) (now : Word) (n : BitVec 4) (w : Work) : Marks w (acceptNibble p now n w) := by
  unfold acceptNibble
  split
  · exact .emit ..
  · split
    · exact .emit ..
    · exact (Marks.onTone ..).trans (appendTone_marks ..)

theorem stabilityCheck_marks (p : Params) (now : Word) (q : BitVec 4) (w : Work) : Marks w (stabilityCheck p now q w) := by
  unfold stabilityCheck
  split
  · exact (Marks.onTone ..).trans (acceptNibble_marks ..)
  · exact .refl w

theorem endTone_marks (now : Word) (w : Work) : Marks w (endTone now w) := by
  unfold endTone
  dsimp only
  split
  · exact .emit ..
  · split
    · exact .modifyLine rfl
    · exact .refl w

theorem strobeEdge_marks (now : Word) (ev : Option Event) (w : Work) : Marks w (strobeEdge now ev w) := by
  unfold strobeEdge
  split
  · exact .refl w
  · split
    · exact .onTone ..
    · unfold fallingEdge
      split
      · exact (endTone_marks now w).trans (.onTone ..)
      · exact .onTone ..

theorem toneStep_marks (p : Params) (now : Word) (q : BitVec 4) (w : Work) : Marks w (toneStep p now q w) := by
  unfold toneStep
  dsimp only
  split
  · exact (Marks.setEvq ..).trans ((strobeEdge_marks ..).trans (stabilityCheck_marks ..))
  · exact .setEvq ..

/-! Steps 4 and 5, and the CYCLE. -/

theorem ringStep_marks (p : Params) (now : Word) (w : Work) : Marks w (ringStep p now w) :=
  .forLines (fun _ _ => .modifyLine (congrArg LineRec.standing (ringUpdate_frame ..) :)) w

theorem timerStep_marks (now : Word) (w : Work) : Marks w (timerStep now w) :=
  .forLines (fun _ _ => .modifyLine (congrArg LineRec.standing (timerExpiry_frame ..) :)) w

theorem afterCycle_marks (s : State) : Marks s.work (afterCycle s) := by
  have pulse : Marks s.work (afterPulse s) := (drainStep_marks s.work).trans (hookPulseStep_marks s.params s.now (shkOf s.data) _)
  have tone : Marks (afterPulse s) (afterTone s) := toneStep_marks s.params s.now (qOf s.data) _
  exact pulse.trans (tone.trans ((ringStep_marks s.params s.now _).trans (timerStep_marks s.now _)))

/-- Settles O58: every operation of the five steps marks the status changes that it makes. -/
theorem cycleStatusChangesAreMarked : Obligations.CycleStatusChangesAreMarked := by
  refine fun s => ⟨_, execCycle_eq s, fun l => ?_⟩
  dsimp only
  cases (afterCycle_marks s).line l with
  | kept same =>
    simp only [LineRec.standing, Prod.mk.injEq] at same
    exact .inl same
  | left st hst hfrom hto hready hnotified =>
    simp only [LineRec.standing, Prod.mk.injEq] at hto
    obtain ⟨status, prev, change⟩ := hto
    subst status
    exact .inr ⟨hfrom, hst, prev, change, hready, hnotified⟩

end Sys2Proof.Machine
end

section
/-! PROOFS. The pulse detector (spec/42_hook_pulse.md R194 to R197): its edge step, its gap and its timeout as equations of the work,
and the count of a train of pulses. -/

namespace Sys2Proof.Machine

/-! Updates of one record. -/

/-- Two updates of one record are one update. -/
theorem Work.modifyLine_modifyLine (w : Work) (l : Line) (f g : LineRec → LineRec) :
    (w.modifyLine l f).modifyLine l g = w.modifyLine l fun L => g (f L) := by
  have hblk : (w.blk.modifyLine l f).modifyLine l g = w.blk.modifyLine l fun L => g (f L) :=
    Block.ext_lines (fun m => by by_cases hm : m = l <;> simp [line_modifyLine, hm]) rfl rfl rfl rfl rfl rfl
  exact congrArg (fun b => ({ w with blk := b } : Work)) hblk

/-- An update reads the record as it is. -/
theorem Work.modifyLine_congr {w : Work} {l : Line} {f g : LineRec → LineRec} (h : f (w.blk.line l) = g (w.blk.line l)) :
    w.modifyLine l f = w.modifyLine l g :=
  congrArg (fun L => ({ w with blk := w.blk.setLine l L } : Work)) h

/-- A move to a status other than Idle is the one that the statements name (R160). -/
theorem applyStatus_eq_movedTo {st : LineStatus} (hst : st ≠ .idle) (L : LineRec) : applyStatus st L = movedTo st L := by
  rw [applyStatus_eq]
  by_cases hring : L.rPhase = .idle <;> simp [movedTo, hst, hring]

/-! The words of the detector. -/

theorem nextCount_eq_ofNat (n : BitVec 4) : nextCount n = BitVec.ofNat 4 (n.toNat % 10 + 1) := by
  revert n
  decide

theorem pulseDigit_toNat (n : BitVec 4) : (pulseDigit n).toNat = 0x30 + n.toNat % 10 := by
  revert n
  decide

/-- A duration in the trace is saturated at 0xFFFF (R315). -/
theorem logDuration_eq_ofNat (d : Word) : logDuration d = BitVec.ofNat 16 (min d.toNat 0xFFFF) := by
  unfold logDuration
  split
  · rename_i hfits
    rw [Nat.min_eq_left hfits]
    rfl
  · rename_i hlong
    rw [Nat.min_eq_right (Nat.le_of_not_le hlong)]
    rfl

/-! The edge step (R194). -/

/-- A low duration is within the two bounds, both inclusive (R194). -/
abbrev PulseWithin (c : Cfg) (d : Word) : Prop := c.pulseDebounceMs.toNat ≤ d.toNat ∧ d.toNat ≤ c.pulseLowMaxMs.toNat

/-- A low period within the bounds has ended at t (R194). -/
def countPulse (t : Word) (L : LineRec) : LineRec :=
  { L with pCount := BitVec.ofNat 4 (L.pCount.toNat % 10 + 1), pPhase := .betweenPulses, pEdge := t }

section EdgeStep

variable {l : Line} {w : Work}

theorem edgeStep_none (l : Line) (w : Work) : edgeStep l none w = w := by
  unfold edgeStep
  cases (w.blk.line l).pPhase <;> rfl

theorem edgeStep_falling (h : (w.blk.line l).pPhase ≠ .inPulse) (t : Word) :
    edgeStep l (some (.falling t)) w = w.modifyLine l (beginPulse t) := by
  unfold edgeStep
  cases hphase : (w.blk.line l).pPhase with
  | idle => rfl
  | inPulse => exact absurd hphase h
  | betweenPulses => rfl

theorem edgeStep_rising_ignored (h : (w.blk.line l).pPhase ≠ .inPulse) (t : Word) : edgeStep l (some (.rising t)) w = w := by
  unfold edgeStep
  cases hphase : (w.blk.line l).pPhase with
  | idle => rfl
  | inPulse => exact absurd hphase h
  | betweenPulses => rfl

theorem edgeStep_falling_ignored (h : (w.blk.line l).pPhase = .inPulse) (t : Word) :
    edgeStep l (some (.falling t)) w = w := by
  unfold edgeStep
  rw [h]

theorem edgeStep_rising (h : (w.blk.line l).pPhase = .inPulse) (t : Word) :
    edgeStep l (some (.rising t)) w = endPulse l t w := by
  unfold edgeStep
  rw [h]

theorem endPulse_of_within {t : Word} (h : PulseWithin w.blk.cfg (t - (w.blk.line l).pEdge)) :
    endPulse l t w = w.modifyLine l (countPulse t) := by
  refine (if_pos h).trans (Work.modifyLine_congr ?_)
  rw [nextCount_eq_ofNat]
  rfl

theorem endPulse_of_not_within {t : Word} (h : ¬ PulseWithin w.blk.cfg (t - (w.blk.line l).pEdge)) :
    endPulse l t w = (w.modifyLine l pulseIdle).emit
      (.log .pulseAbort (BitVec.ofNat 16 l.val) (BitVec.ofNat 16 (min (t - (w.blk.line l).pEdge).toNat 0xFFFF))) := by
  rw [← logDuration_eq_ofNat]
  exact if_neg h

end EdgeStep

/-- Settles O54: one equation per phase and edge. -/
theorem edgeStepFollowsItsTable : Obligations.EdgeStepFollowsItsTable := by
  refine fun l w => ⟨edgeStep_none l w, fun t h => ⟨edgeStep_falling h t, edgeStep_rising_ignored h t⟩, fun t h =>
    ⟨edgeStep_falling_ignored h t, fun hgood => ?_, fun hbad => ?_⟩⟩
  · exact (edgeStep_rising h t).trans (endPulse_of_within hgood)
  · exact (edgeStep_rising h t).trans (endPulse_of_not_within hbad)

/-! The gap and the timeout (R195, R196). -/

section Gap

variable {p : Params} {now : Word} {l : Line} {w : Work}

theorem gapAndTimeout_of_gap (h : gapDue w.blk.cfg now (w.blk.line l)) : gapAndTimeout p now l w = emitDigit p l w := if_pos h

theorem gapAndTimeout_out_of_gap (h : gapDue w.blk.cfg now (w.blk.line l)) :
    (gapAndTimeout p now l w).out = w.out ++
      (if (w.blk.line l).digits.length < p.digitsMax then []
        else [.log .digitOverflow (BitVec.ofNat 16 l.val) ((pulseDigit (w.blk.line l).pCount).setWidth 16)]) ++
      (if (w.blk.line l).status = .ready ∧ w.blk.cfg.notifyEn = true then [.notify l .pulseDialing] else []) := by
  rw [gapAndTimeout_out, gapOut, if_pos h, List.append_assoc]

theorem gapAndTimeout_of_late (hgap : ¬ gapDue w.blk.cfg now (w.blk.line l)) (h : lateDue w.blk.cfg now (w.blk.line l)) :
    gapAndTimeout p now l w = pulseTimeout l w := (if_neg hgap).trans (if_pos h)

theorem gapAndTimeout_of_early (hgap : ¬ gapDue w.blk.cfg now (w.blk.line l)) (h : ¬ lateDue w.blk.cfg now (w.blk.line l)) :
    gapAndTimeout p now l w = w := (if_neg hgap).trans (if_neg h)

end Gap

/-- The record after a digit: the detector reset, the character kept where there is room, a Ready line moved (R170, R195). -/
theorem emitRec_eq (p : Params) (L : LineRec) :
    emitRec p L = if L.status = .ready then movedTo .pulseDialing (appended p (pulseDigit L.pCount) (pulseIdle L))
      else appended p (pulseDigit L.pCount) (pulseIdle L) := by
  rw [← applyStatus_eq_movedTo (by decide)]
  rfl

/-- A digit changes the record of its line, and the last-ready pointer where a Ready line is moved (R195). -/
theorem emitDigit_onlyLine (p : Params) (l : Line) (w : Work) :
    OnlyLine (w.blk.setLastReady (if (w.blk.line l).status = .ready then withoutReady l w.blk.lastReady else w.blk.lastReady))
      (emitDigit p l w).blk l (emitRec p (w.blk.line l)) := by
  obtain ⟨hlocal, hready⟩ := emitDigit_local p l w
  refine ⟨emitDigit_line p l w, hlocal.others, ?_, hlocal.xb, hlocal.evq, hlocal.evqDrops, hlocal.tone, hlocal.cfg⟩
  rw [hready, setLastReady_lastReady]
  by_cases hs : (w.blk.line l).status = .ready <;> simp [hs, withoutReady]

/-- Settles O55: in the gap `emitDigit`, past the timeout `pulseTimeout`, else nothing. -/
theorem gapEmitsTheDigitAndTimeoutResets : Obligations.GapEmitsTheDigitAndTimeoutResets := by
  refine fun p now l w => ⟨fun hgap _ _ => ⟨pulseDigit (w.blk.line l).pCount, pulseDigit_toNat _,
    gapAndTimeout_out_of_gap hgap, ?_⟩, fun hgap hlate => gapAndTimeout_of_late hgap hlate, fun hgap hlate => gapAndTimeout_of_early hgap hlate⟩
  rw [gapAndTimeout_of_gap hgap]
  exact emitRec_eq p (w.blk.line l) ▸ emitDigit_onlyLine p l w

/-! A train of pulses (R194, R195). -/

/-- The record after n + 1 pulses from no count, the last ending at t. -/
def afterTrain (n : Nat) (t : Word) (L : LineRec) : LineRec :=
  { L with pPhase := .betweenPulses, pCount := BitVec.ofNat 4 (n % 10 + 1), pEdge := t }

theorem countPulse_of_no_count {L : LineRec} (h : L.pCount = 0) (t : Word) : countPulse t L = afterTrain 0 t L := by
  simp [countPulse, afterTrain, h]

/-- One more pulse is folded into the count of a train. -/
theorem countPulse_afterTrain (n : Nat) (t u : Word) (L : LineRec) :
    countPulse u (afterTrain n t L) = afterTrain (n + 1) u L := by
  have hfold : (BitVec.ofNat 4 (n % 10 + 1)).toNat % 10 + 1 = (n + 1) % 10 + 1 := by
    rw [BitVec.toNat_ofNat]
    omega
  simp only [countPulse, afterTrain, hfold]

/-- A falling edge and a rising edge within the bounds count one pulse, and nothing else changes. -/
theorem edgeStep_pulse {l : Line} {w : Work} (h : (w.blk.line l).pPhase ≠ .inPulse) {fall rise : Word}
    (hwithin : PulseWithin w.blk.cfg (rise - fall)) :
    edgeStep l (some (.rising rise)) (edgeStep l (some (.falling fall)) w) = w.modifyLine l (countPulse rise) := by
  have hlow : ((w.modifyLine l (beginPulse fall)).blk.line l) = beginPulse fall (w.blk.line l) := line_modifyLine_same ..
  rw [edgeStep_falling h, edgeStep_rising (by rw [hlow]; rfl), endPulse_of_within (by rw [hlow]; exact hwithin),
    Work.modifyLine_modifyLine]
  rfl

/-- Settles O56: by induction on the pulses before the last one. -/
theorem pulseTrainIsCounted : Obligations.PulseTrainIsCounted := by
  intro l w pulses fall rise hidle hcount hwithin
  change _ = w.modifyLine l (afterTrain pulses.length rise)
  have hlast (qs : List (Word × Word)) (f r : Word) : (f, r) ∈ qs ++ [(f, r)] :=
    List.mem_append_right _ (List.mem_singleton_self _)
  induction pulses using List.reverseRecOn generalizing fall rise with
  | nil =>
    refine (edgeStep_pulse (by rw [hidle]; decide) (hwithin _ (hlast ..))).trans ?_
    exact Work.modifyLine_congr (countPulse_of_no_count hcount rise)
  | append_singleton qs q ih =>
    obtain ⟨fall', rise'⟩ := q
    have hbetween : ((w.modifyLine l (afterTrain qs.length rise')).blk.line l) = afterTrain qs.length rise' (w.blk.line l) :=
      line_modifyLine_same ..
    rw [List.foldl_append, ih fall' rise' fun q hq => hwithin q (List.mem_append_left _ hq)]
    have hphase : ((w.modifyLine l (afterTrain qs.length rise')).blk.line l).pPhase ≠ .inPulse := by
      rw [hbetween]
      nofun
    refine (edgeStep_pulse hphase (hwithin _ (hlast ..))).trans ?_
    rw [Work.modifyLine_modifyLine, List.length_append, List.length_singleton]
    simp only [countPulse_afterTrain]

end Sys2Proof.Machine
end

section
/-! PROOFS. The filters of a line and step 2 of a CYCLE (spec/42_hook_pulse.md R190 to R193): the filters as one equation, what a
CYCLE leaves of them and of the detector, and step 2 against the detector of each line alone. -/

namespace Sys2Proof.Machine

/-! The filters of a line (R191, R192). -/

section Filters

variable (c : Cfg) (now : Word) (r : Bool) (L : LineRec)

/-- When the sampled level was first seen (R191). -/
def hookSince : Word := if L.hCand = some r then L.hSince else now

/-- How many samples of the level there are (R191). -/
def hookCount : BitVec 16 := if L.hCand = some r then satInc consecMax L.hCount else 1

/-- The sampled level is not the hook state, and both thresholds are met (R191). -/
def hookAccepts : Bool :=
  decide (hookOfLevel r ≠ L.hook ∧ Reached now (hookSince now r L) c.hookStableMs ∧
    c.hookStableConsec.toNat ≤ (hookCount r L).toNat)

/-- When the raw level was first seen (R192). -/
def glitchSince : Word := if L.gCand = some r then L.gSince else now

/-- The raw level is not the accepted one, and has persisted (R192). -/
def glitchAccepts : Bool := decide (L.gLevel ≠ some r ∧ Reached now (glitchSince now r L) c.pulseGlitchMs)

theorem hookSample_eq :
    hookSample now r L = { L with hCand := some r, hSince := hookSince now r L, hCount := hookCount r L } := by
  by_cases h : L.hCand = some r
  · simp [hookSample, hookSince, hookCount, h]
  · simp [hookSample, hookSince, hookCount, h]

theorem hookFilter_eq :
    hookFilter c now r L =
      { L with
        hCand := some r
        hSince := hookSince now r L
        hCount := hookCount r L
        hook := if hookAccepts c now r L then hookOfLevel r else L.hook
        prevHook := if hookAccepts c now r L then L.hook else L.prevHook
        pPhase := if hookAccepts c now r L ∧ hookOfLevel r = .on then .idle else L.pPhase
        pCount := if hookAccepts c now r L ∧ hookOfLevel r = .on then 0 else L.pCount } := by
  rw [hookFilter, hookSample_eq]
  by_cases h : hookAccepts c now r L = true
  · refine (if_pos (of_decide_eq_true h)).trans ?_
    by_cases hon : hookOfLevel r = .on
    · simp [h, hon]
    · simp [h, hon]
  · refine (if_neg fun ha => h (decide_eq_true ha)).trans ?_
    simp [h]

theorem glitchSample_eq : glitchSample now r L = { L with gCand := some r, gSince := glitchSince now r L } := by
  by_cases h : L.gCand = some r
  · rw [glitchSample, if_neg (not_not.mpr h), glitchSince, if_pos h, ← h]
  · simp [glitchSample, glitchSince, h]

theorem glitchFilter_eq :
    glitchFilter c now r L =
      ({ L with
         gCand := some r
         gSince := glitchSince now r L
         gLevel := if glitchAccepts c now r L then some r else L.gLevel },
       if glitchAccepts c now r L then edgeOf L.gLevel r (glitchSince now r L) else none) := by
  rw [glitchFilter, glitchSample_eq]
  by_cases h : glitchAccepts c now r L = true
  · refine (if_pos (of_decide_eq_true h)).trans ?_
    simp [h]
  · refine (if_neg fun ha => h (decide_eq_true ha)).trans ?_
    simp [h]

/-- A level accepted after off-hook is on-hook, a falling edge (R192). -/
theorem edgeOf_of_high {old : Option Bool} {r : Bool} (h : old = some true) (hr : old ≠ some r) (t : Word) :
    edgeOf old r t = some (.falling t) := by
  subst h
  cases r with
  | false => rfl
  | true => exact absurd rfl hr

/-- A level accepted after on-hook is off-hook, a rising edge (R192). -/
theorem edgeOf_of_low {old : Option Bool} {r : Bool} (h : old = some false) (hr : old ≠ some r) (t : Word) :
    edgeOf old r t = some (.rising t) := by
  subst h
  cases r with
  | false => exact absurd rfl hr
  | true => rfl

/-- The first accepted level is no edge (R192). -/
theorem edgeOf_first (r : Bool) (t : Word) : edgeOf none r t = none := rfl

/-- Both filters of a line, field by field, and the edge (R190). -/
theorem filterLine_eq :
    filterLine c now r L =
      ({ L with
         hCand := some r
         hSince := hookSince now r L
         hCount := hookCount r L
         hook := if hookAccepts c now r L then hookOfLevel r else L.hook
         prevHook := if hookAccepts c now r L then L.hook else L.prevHook
         gCand := some r
         gSince := glitchSince now r L
         gLevel := if glitchAccepts c now r L then some r else L.gLevel
         pPhase := if hookAccepts c now r L ∧ hookOfLevel r = .on then .idle else L.pPhase
         pCount := if hookAccepts c now r L ∧ hookOfLevel r = .on then 0 else L.pCount },
       if glitchAccepts c now r L then edgeOf L.gLevel r (glitchSince now r L) else none) := by
  rw [filterLine, hookFilter_eq, glitchFilter_eq]
  rfl

theorem filterLine_hook :
    (filterLine c now r L).1.hook = if hookAccepts c now r L then hookOfLevel r else L.hook := by rw [filterLine_eq]

theorem filterLine_edge :
    (filterLine c now r L).2 = if glitchAccepts c now r L then edgeOf L.gLevel r (glitchSince now r L) else none := by
  rw [filterLine_eq]

/-- The detector is reset exactly when the line goes on-hook (R191). -/
theorem hookAccepts_on_iff :
    hookAccepts c now r L = true ∧ hookOfLevel r = .on ↔ (filterLine c now r L).1.hook = .on ∧ L.hook ≠ .on := by
  rw [filterLine_hook]
  by_cases h : hookAccepts c now r L = true
  · simp only [h, true_and, if_true, iff_self_and]
    exact fun hon hL => (of_decide_eq_true h).1 (hon.trans hL.symm)
  · simp [h]

/-- The filters write their own fields, the hook states, and on going on-hook the detector's phase and count. -/
theorem filterLine_writes :
    let F := (filterLine c now r L).1
    let hungUp := F.hook = .on ∧ L.hook ≠ .on
    F = { L with
      hook := F.hook, prevHook := F.prevHook, hCand := F.hCand, hSince := F.hSince, hCount := F.hCount
      gCand := F.gCand, gSince := F.gSince, gLevel := F.gLevel
      pPhase := if hungUp then .idle else L.pPhase
      pCount := if hungUp then 0 else L.pCount } := by
  simp only [← hookAccepts_on_iff]
  rw [filterLine_eq]

end Filters

/-! What a CYCLE leaves of a line's filters and detector. -/

/-- The filters' fields and the hook states of a record (R35, R41, R42). -/
def LineRec.filters (L : LineRec) :
    HookState × HookState × Option Bool × Word × BitVec 16 × Option Bool × Word × Option Bool :=
  (L.hook, L.prevHook, L.hCand, L.hSince, L.hCount, L.gCand, L.gSince, L.gLevel)

/-- The detector's fields of a record (R43). -/
def LineRec.detector (L : LineRec) : PulsePhase × BitVec 4 × Word := (L.pPhase, L.pCount, L.pEdge)

/-- What step 2 alone writes in a record. -/
def LineRec.sensing (L : LineRec) :
    (HookState × HookState × Option Bool × Word × BitVec 16 × Option Bool × Word × Option Bool) × PulsePhase × BitVec 4 × Word :=
  (L.filters, L.detector)

theorem applyStatus_sensing (st : LineStatus) (L : LineRec) : (applyStatus st L).sensing = L.sensing := by
  rw [applyStatus_eq]
  rfl

/-- Step 3 leaves the filters and the detector alone (R225). -/
theorem ToneEffect.sensing {p : Params} {now : Word} {w w' : Work} (e : ToneEffect p now w w') (m : Line) :
    (w'.blk.line m).sensing = (w.blk.line m).sensing := by
  cases e with
  | nothing hl _ => rw [hl m]
  | timer l d _ hl ho _ =>
    by_cases hm : m = l
    · rw [hm, hl]
      rfl
    · rw [ho m hm]
  | digit l ch _ _ hl ho _ =>
    by_cases hm : m = l
    · rw [hm, hl]
      split
      · exact applyStatus_sensing ..
      · rfl
    · rw [ho m hm]

/-- Of the five steps, step 2 writes the filters and the detector (R296). -/
theorem afterCycle_sensing (s : State) (m : Line) :
    ((afterCycle s).blk.line m).sensing =
      (lineRec2 s.params s.blk.cfg s.now (shkOf s.data) m (s.blk.line m)).sensing := by
  have stepped : ((afterCycle s).blk.line m).sensing = ((afterTone s).blk.line m).sensing := by
    rw [afterCycle_line]
    exact (congrArg LineRec.sensing (timerExpiry_frame ..) :).trans (congrArg LineRec.sensing (ringUpdate_frame ..) :)
  rw [stepped, (afterTone_effect s).sensing, afterPulse_line]

theorem gapRec_filters (p : Params) (c : Cfg) (now : Word) (L : LineRec) : (gapRec p c now L).filters = L.filters := by
  unfold gapRec emitRec
  split
  · dsimp only
    split
    · exact congrArg Prod.fst (applyStatus_sensing ..)
    · rfl
  · split <;> rfl

/-- The detector leaves the filters alone (R193). -/
theorem detectorRec_filters (p : Params) (c : Cfg) (now : Word) (e : Option Edge) (L : LineRec) :
    (detectorRec p c now e L).filters = L.filters := by
  unfold detectorRec
  split
  · exact (gapRec_filters ..).trans (congrArg LineRec.filters (edgeRec_frame c L e) :)
  · rfl

/-- SHK bit l is DATA bit l (R295). -/
theorem getLsbD_shkOf (d : Word) (l : Line) : (shkOf d).getLsbD l.val = d.getLsbD l.val := by
  simp [shkOf, l.isLt]

section Active

variable {s : State} {l : Line}

/-- The filters and the hook states of an active line after a CYCLE are those that filterLine leaves (R190). -/
theorem afterCycle_filters_of_active (h : s.blk.cfg.activeMask.getLsbD l.val = true) :
    ((afterCycle s).blk.line l).filters =
      (filterLine s.blk.cfg s.now (s.data.getLsbD l.val) (s.blk.line l)).1.filters := by
  have line2 := congrArg Prod.fst (afterCycle_sensing s l)
  rw [lineRec2, if_pos h, getLsbD_shkOf] at line2
  exact line2.trans (detectorRec_filters ..)

/-- The detector of an active line after a CYCLE (R193). -/
theorem afterCycle_detector_of_active (h : s.blk.cfg.activeMask.getLsbD l.val = true) :
    let f := filterLine s.blk.cfg s.now (s.data.getLsbD l.val) (s.blk.line l)
    ((afterCycle s).blk.line l).detector = (detectorRec s.params s.blk.cfg s.now f.2 f.1).detector := by
  have line2 := congrArg Prod.snd (afterCycle_sensing s l)
  rw [lineRec2, if_pos h, getLsbD_shkOf] at line2
  exact line2

theorem lineRec2_of_inactive (h : s.blk.cfg.activeMask.getLsbD l.val = false) :
    lineRec2 s.params s.blk.cfg s.now (shkOf s.data) l (s.blk.line l) = s.blk.line l := by
  rw [lineRec2, h]
  rfl

end Active

/-! The gate of the detector (R193). -/

theorem pulseGate_iff (L : LineRec) : pulseGate L = true ↔ L.hook = .off ∧ (L.status = .ready ∨ L.status = .pulseDialing) := by
  simp only [pulseGate, Bool.and_eq_true, Bool.or_eq_true, beq_iff_eq]

/-- The gate closed, the detector of an active line is at Idle with no count after a CYCLE. -/
theorem afterCycle_detector_of_closed {s : State} {l : Line} (h : s.blk.cfg.activeMask.getLsbD l.val = true)
    (hgate : ¬ pulseGate (filterLine s.blk.cfg s.now (s.data.getLsbD l.val) (s.blk.line l)).1 = true) :
    ((afterCycle s).blk.line l).pPhase = .idle ∧ ((afterCycle s).blk.line l).pCount = 0 := by
  have hdetector := afterCycle_detector_of_active h
  dsimp only at hdetector
  rw [detectorRec, if_neg hgate] at hdetector
  simp only [LineRec.detector, Prod.mk.injEq] at hdetector
  obtain ⟨phase, count, -⟩ := hdetector
  exact ⟨phase, count⟩

theorem hookCount_of_same {r : Bool} {L : LineRec} (h : L.hCand = some r) :
    (hookCount r L).toNat = min (L.hCount.toNat + 1) 65535 := by
  rw [hookCount, if_pos h, satInc_eq_ofNat, BitVec.toNat_ofNat]
  have hmax : consecMax.toNat = 65535 := rfl
  omega

/-- Settles O50: the hook fields after a CYCLE are those of `filterLine_eq`; on-hook closes the detector's gate. -/
theorem cycleRunsTheHookFilter : Obligations.CycleRunsTheHookFilter := by
  refine fun s l hactive => ⟨_, execCycle_eq s, ?_⟩
  have hfilters := afterCycle_filters_of_active hactive
  rw [filterLine_eq] at hfilters
  simp only [LineRec.filters, Prod.mk.injEq] at hfilters
  obtain ⟨hook, prev, cand, since, count, -⟩ := hfilters
  dsimp only
  rw [hook, prev, cand, since, count]
  refine ⟨rfl, fun h => ⟨if_pos h, hookCount_of_same h⟩, fun h => ⟨if_neg h, if_neg h⟩, fun haccepted => ?_, fun haccepted => ?_⟩
  · have haccepts : hookAccepts s.blk.cfg s.now (s.data.getLsbD l.val) (s.blk.line l) = true := decide_eq_true haccepted
    refine ⟨if_pos haccepts, if_pos haccepts, fun hon => afterCycle_detector_of_closed hactive fun hgate => ?_⟩
    have hoff := ((pulseGate_iff _).mp hgate).1
    rw [filterLine_hook, if_pos haccepts] at hoff
    exact HookState.noConfusion (hon.symm.trans hoff)
  · have haccepts : ¬ hookAccepts s.blk.cfg s.now (s.data.getLsbD l.val) (s.blk.line l) = true :=
      fun h => haccepted (of_decide_eq_true h)
    exact ⟨if_neg haccepts, if_neg haccepts⟩

/-- Settles O51: the glitch filter's fields after a CYCLE and its edge are those of `filterLine_eq`. -/
theorem cycleRunsTheGlitchFilter : Obligations.CycleRunsTheGlitchFilter := by
  refine fun s l hactive => ⟨_, execCycle_eq s, ?_⟩
  have hfilters := afterCycle_filters_of_active hactive
  rw [filterLine_eq] at hfilters
  simp only [LineRec.filters, Prod.mk.injEq] at hfilters
  obtain ⟨-, -, -, -, -, cand, since, level⟩ := hfilters
  dsimp only
  rw [cand, since, level, filterLine_edge]
  have haccepts : glitchAccepts s.blk.cfg s.now (s.data.getLsbD l.val) (s.blk.line l) = true ↔ _ := decide_eq_true_iff
  rw [← haccepts]
  refine ⟨rfl, fun h => if_pos h, fun h => if_neg h, fun h => if_pos h, fun h => if_neg h, fun h hhigh => ?_, fun h hlow => ?_,
    fun h => ?_⟩
  · rw [if_pos h, edgeOf_of_high hhigh (haccepts.mp h).1]
  · rw [if_pos h, edgeOf_of_low hlow (haccepts.mp h).1]
  · rcases h with hrejected | hfirst
    · exact if_neg hrejected
    · rw [hfirst, edgeOf_first, ite_self]

/-! Step 2 and the bits of SHK (R190). -/

theorem hookPulseLine_congr (p : Params) (now : Word) {shk shk' : BitVec 8} {l : Line} {w : Work}
    (h : w.blk.cfg.activeMask.getLsbD l.val = true → shk.getLsbD l.val = shk'.getLsbD l.val) :
    hookPulseLine p now shk l w = hookPulseLine p now shk' l w := by
  unfold hookPulseLine
  refine ite_congr rfl (fun hactive => ?_) fun _ => rfl
  rw [h hactive]

/-- Step 2 reads the SHK bits of the active lines. -/
theorem hookPulseStep_congr (p : Params) (now : Word) {shk shk' : BitVec 8} {w : Work}
    (h : ∀ l : Line, w.blk.cfg.activeMask.getLsbD l.val = true → shk.getLsbD l.val = shk'.getLsbD l.val) :
    hookPulseStep p now shk w = hookPulseStep p now shk' w := by
  have hsame : hookPulseStep p now shk w = hookPulseStep p now shk' w ∧ (hookPulseStep p now shk w).blk.cfg = w.blk.cfg := by
    refine forLines_induct₂ (fun a b => a = b ∧ a.blk.cfg = w.blk.cfg) _ _ w w ⟨rfl, rfl⟩ ?_
    rintro l a _ ⟨rfl, hcfg⟩
    exact ⟨hookPulseLine_congr p now (hcfg ▸ h l), (hookPulseLine_local p now shk l a).1.cfg.trans hcfg⟩
  exact hsame.1

/-- A CYCLE reads DATA as the SHK bits of the active lines and as Q (R190, R295). -/
theorem execCycle_withData {s : State} {d : Word} (hq : qOf d = qOf s.data)
    (hshk : ∀ l : Line, s.blk.cfg.activeMask.getLsbD l.val = true → d.getLsbD l.val = s.data.getLsbD l.val) :
    execCycle { s with data := d } =
      .next { s with data := d, blk := (afterCycle s).blk, resp := { code := 0, val := 0, trace := (afterCycle s).out } } := by
  have hpulse : afterPulse { s with data := d } = afterPulse s :=
    hookPulseStep_congr s.params s.now fun l hactive => by
      rw [getLsbD_shkOf, getLsbD_shkOf]
      exact hshk l hactive
  have htone : afterTone { s with data := d } = afterTone s := by
    rw [afterTone, hpulse, hq]
    rfl
  rw [execCycle_eq, afterCycle, htone]
  rfl

/-- Settles O52: an inactive line goes through step 2 as it is, and no step reads its SHK bit. -/
theorem inactiveLineIsFrozen : Obligations.InactiveLineIsFrozen := by
  refine fun s l hinactive => ⟨_, execCycle_eq s, ?_, fun d hd => ?_⟩
  · have hsensing := afterCycle_sensing s l
    rw [lineRec2_of_inactive hinactive] at hsensing
    simp only [LineRec.sensing, LineRec.filters, LineRec.detector, Prod.mk.injEq, and_assoc] at hsensing
    obtain ⟨hook, prev, cand, since, count, gcand, gsince, glevel, phase, pulses, edge⟩ := hsensing
    refine ⟨hook, prev, cand, since, count, gcand, gsince, glevel, phase, pulses, edge, fun hoff => ?_⟩
    have hdialling := afterCycle_dialling s l
    rw [afterTone_line_of_inactive hoff, afterPulse_line, lineRec2_of_inactive hinactive] at hdialling
    exact (Prod.mk.inj hdialling).2
  · refine execCycle_withData ?_ fun m hactive => hd m.val (by omega) fun hm => ?_
    · refine BitVec.eq_of_getLsbD_eq fun i hi => ?_
      simp only [qOf, BitVec.getLsbD_extractLsb', hi, decide_true, Bool.true_and]
      exact hd (8 + i) (by omega) (by omega)
    · rw [hm, hinactive] at hactive
      exact Bool.false_ne_true hactive

/-! Step 2 against the detector of each line alone (R193). -/

theorem detectorAlone_eq (p : Params) (now : Word) (shk : BitVec 8) (b : Block) (l : Line) :
    detectorAlone p now shk b l = hookPulseLine p now shk l { blk := b, out := [] } := by
  unfold detectorAlone hookPulseLine pulseDetector
  refine ite_congr rfl (fun _ => ?_) fun _ => rfl
  dsimp only
  rw [workModifyLine_blk, line_modifyLine_same]
  exact ite_congr (propext (pulseGate_iff _).symm) (fun _ => rfl) fun _ => rfl

/-- What step 2 does to a line alone, in the words of the loop's own rules. -/
theorem detectorAlone_effect (p : Params) (now : Word) (shk : BitVec 8) (b : Block) (l : Line) :
    (detectorAlone p now shk b l).blk.line l = lineRec2 p b.cfg now shk l (b.line l) ∧
    (detectorAlone p now shk b l).out = lineOut2 p b.cfg now shk l (b.line l) ∧
    (detectorAlone p now shk b l).blk.lastReady = readyAfter (leaves2 b.cfg now shk l (b.line l)) l b.lastReady := by
  rw [detectorAlone_eq]
  exact ⟨hookPulseLine_line .., (hookPulseLine_out ..).trans (List.nil_append _), (hookPulseLine_local ..).2⟩

theorem hookPulseStep_out_eq_alone (p : Params) (now : Word) (shk : BitVec 8) (w : Work) :
    (hookPulseStep p now shk w).out = w.out ++ (allLines.map fun l => (detectorAlone p now shk w.blk l).out).flatten := by
  simp only [hookPulseStep_out, detectorAlone_effect]

theorem hookPulseStep_line_eq_alone (p : Params) (now : Word) (shk : BitVec 8) (w : Work) (l : Line) :
    (hookPulseStep p now shk w).blk.line l = (detectorAlone p now shk w.blk l).blk.line l := by
  rw [hookPulseStep_line, (detectorAlone_effect ..).1]

/-- The last-ready pointer is left as the line that it names leaves it. -/
theorem hookPulseStep_lastReady_eq_alone (p : Params) (now : Word) (shk : BitVec 8) (w : Work) :
    (hookPulseStep p now shk w).blk.lastReady =
      match w.blk.lastReady with
      | none => none
      | some l => (detectorAlone p now shk w.blk l).blk.lastReady := by
  rw [hookPulseStep_lastReady]
  cases hready : w.blk.lastReady with
  | none => rfl
  | some l =>
    obtain ⟨-, -, alone⟩ := detectorAlone_effect p now shk w.blk l
    simp only [alone, readyAfter, hready, and_true]

/-- With the gate open, a CYCLE leaves an active line's detector as the edge step and the gap and timeout check leave it. -/
theorem afterCycle_detector_of_open {s : State} {l : Line} (h : s.blk.cfg.activeMask.getLsbD l.val = true)
    (hgate : pulseGate (filterLine s.blk.cfg s.now (s.data.getLsbD l.val) (s.blk.line l)).1 = true) :
    let f := filterLine s.blk.cfg s.now (s.data.getLsbD l.val) (s.blk.line l)
    ((afterCycle s).blk.line l).detector =
      ((gapAndTimeout s.params s.now l (edgeStep l f.2 { blk := s.blk.setLine l f.1, out := [] })).blk.line l).detector := by
  have hdetector := afterCycle_detector_of_active h
  dsimp only at hdetector ⊢
  rw [detectorRec, if_pos hgate] at hdetector
  rw [hdetector, gapAndTimeout_line, edgeStep_line, (edgeStep_local ..).1.cfg, line_setLine_same, setLine_cfg]

/-- Settles O53: the gate after the filters, step 2 line by line, and the filters' frame. -/
theorem cycleRunsThePulseDetector : Obligations.CycleRunsThePulseDetector := by
  refine ⟨fun s l hactive => ⟨_, execCycle_eq s, ?_⟩, fun p now shk w => ?_, fun c now r L => filterLine_writes c now r L⟩
  · have hfilters := afterCycle_filters_of_active hactive
    simp only [LineRec.filters, Prod.mk.injEq] at hfilters
    obtain ⟨hook, -⟩ := hfilters
    have hgate := pulseGate_iff (filterLine s.blk.cfg s.now (s.data.getLsbD l.val) (s.blk.line l)).1
    rw [filterLine_status, ← hook] at hgate
    refine ⟨fun hclosed => afterCycle_detector_of_closed hactive (hclosed ∘ hgate.mp), fun hopened => ?_⟩
    have hdetector := afterCycle_detector_of_open hactive (hgate.mpr hopened)
    simp only [LineRec.detector, Prod.mk.injEq] at hdetector
    exact hdetector
  · obtain ⟨xb, evq, drops, tone, cfg⟩ := hookPulseStep_shared p now shk w
    exact ⟨hookPulseStep_out_eq_alone .., hookPulseStep_line_eq_alone p now shk w, hookPulseStep_lastReady_eq_alone ..,
      xb, evq, drops, tone, cfg⟩

end Sys2Proof.Machine
end

section
/-! PROOFS. The tone decoder (spec/43_tone_decoder.md R221 to R230): its two commands, the active line, step 3 of a CYCLE as one
equation per case of the strobe machine, and what becomes of a nibble that is read. -/

namespace Sys2Proof.Machine

/-! The active line (R222). -/

section ActiveLine

variable {b : Block} {l : Line}

theorem activeLine_of_lastReady (h : b.lastReady = some l) : activeLine b = some l := by
  rw [activeLine, h]

theorem activeLine_of_still_dialing (hready : b.lastReady = none) (hline : b.tone.line = some l)
    (hs : (b.line l).status = .toneDialing) : activeLine b = some l := by
  simp only [activeLine, hready, hline, hs, if_true]

theorem activeLine_of_neither (hready : b.lastReady = none)
    (hleft : ∀ l, b.tone.line = some l → (b.line l).status ≠ .toneDialing) : activeLine b = none := by
  rw [activeLine, hready]
  cases hline : b.tone.line with
  | none => rfl
  | some l => exact if_neg (hleft l hline)

end ActiveLine

/-- Settles O33: the two branches that name a line, and the one that names none. -/
theorem activeLineIsLastReadyOrStillToneDialing : Obligations.ActiveLineIsLastReadyOrStillToneDialing := fun _ =>
  ⟨fun _ => activeLine_of_lastReady, fun hready _ => activeLine_of_still_dialing hready, activeLine_of_neither⟩

/-! TD_ACTIVATE and TD_DEACTIVATE (R223, R224). -/

theorem performs_switchTone {i : Instr} {s : State} {on : Bool} (hexec : exec i s = respond s (s.work.onTone (switchTone on)) 0) :
    Performs i s (s.blk.setTone { s.blk.tone with active := on, pending := false, high := false }) 0 [] := by
  rw [Performs, hexec, respond_eq]
  rfl

/-- Settles O31: both commands are switchTone, which starts the strobe machine again. -/
theorem switchingTheToneDecoder : Obligations.SwitchingTheToneDecoder := fun _ =>
  ⟨encoded_of_mem (r := ⟨0x10, [], 0x40000000, 0xFFFFFFFF⟩) (by decide) rfl,
    encoded_of_mem (r := ⟨0x11, [], 0x44000000, 0xFFFFFFFF⟩) (by decide) rfl,
    performs_switchTone (on := true) rfl, performs_switchTone (on := false) rfl⟩

/-! A digit of the tone decoder (R170, R230). -/

/-- The status of a line that the decoder appends to (R230). -/
abbrev TakesTones (L : LineRec) : Prop := L.status = .ready ∨ L.status = .toneDialing

/-- The digit is appended to line l, which becomes the line last appended to (R230). -/
def keepTone (p : Params) (l : Line) (n : BitVec 4) (w : Work) : Work :=
  (appendDigit p l (dtmfChar p n) w).onTone fun t => { t with line := some l }

theorem keepTone_onlyLine (p : Params) (l : Line) (n : BitVec 4) (w : Work) :
    OnlyLine (w.blk.setTone { w.blk.tone with line := some l }) (keepTone p l n w).blk l
      (appended p (dtmfChar p n) (w.blk.line l)) := by
  have hlocal := LocalTo.appendDigit p l (dtmfChar p n) w
  refine ⟨appendDigit_line .., hlocal.others, appendDigit_lastReady .., hlocal.xb, hlocal.evq, hlocal.evqDrops, ?_, hlocal.cfg⟩
  exact congrArg (fun t : ToneState => { t with line := some l }) hlocal.tone

theorem keepTone_status (p : Params) (l : Line) (n : BitVec 4) (w : Work) :
    ((keepTone p l n w).blk.line l).status = (w.blk.line l).status := by
  rw [(keepTone_onlyLine p l n w).line]
  rfl

/-- A status that is set after a change of one line's record changes that record further, and the last-ready pointer (R160). -/
theorem OnlyLine.setStatus {b : Block} {w : Work} {l : Line} {L : LineRec} (h : OnlyLine b w.blk l L) (st : LineStatus) :
    OnlyLine (b.setLastReady (nextLastReady l st b.lastReady)) (setStatus l st w).blk l (applyStatus st L) := by
  have hset := onlyLine_setStatus l st w
  refine ⟨h.line ▸ hset.line, fun m hm => (hset.others m hm).trans (h.others m hm), ?_, ?_, ?_, ?_, ?_, ?_⟩
  · rw [setStatus_lastReady, h.shared.lastReady, setLastReady_lastReady]
  · exact hset.shared.xb.trans h.shared.xb
  · exact hset.shared.evq.trans h.shared.evq
  · exact hset.shared.evqDrops.trans h.shared.evqDrops
  · exact hset.shared.tone.trans h.shared.tone
  · exact hset.shared.cfg.trans h.shared.cfg

theorem nextLastReady_of_ne_ready {l : Line} {st : LineStatus} {o : Option Line} (h : st ≠ .ready) :
    nextLastReady l st o = withoutReady l o := if_neg h

/-- A line in the trace is its index (R9, R315). -/
theorem lineCode_setWidth (l : Line) : (lineCode l).setWidth 16 = BitVec.ofNat 16 l.val := by
  revert l
  decide

section AppendTone

variable {p : Params} {n : BitVec 4} {w : Work} {l : Line}

theorem appendTone_of_no_line (h : activeLine w.blk = none) :
    appendTone p n w = w.emit (.log .dtmfReject (n.setWidth 16) 0xF) := by
  rw [appendTone, h]
  rfl

theorem appendTone_rejected (h : activeLine w.blk = some l) (hs : ¬ TakesTones (w.blk.line l)) :
    appendTone p n w = w.emit (.log .dtmfReject (n.setWidth 16) (BitVec.ofNat 16 l.val)) := by
  rw [appendTone, h, ← lineCode_setWidth]
  exact if_neg hs

theorem appendTone_kept (h : activeLine w.blk = some l) (hs : TakesTones (w.blk.line l)) :
    appendTone p n w =
      if (w.blk.line l).status = .ready then setStatus l .toneDialing (keepTone p l n w) else keepTone p l n w := by
  rw [appendTone, h, ← keepTone_status p l n w]
  exact if_pos hs

theorem appendTone_out_kept (h : activeLine w.blk = some l) (hs : TakesTones (w.blk.line l)) :
    (appendTone p n w).out = w.out ++
      (if (w.blk.line l).digits.length < p.digitsMax then []
        else [.log .digitOverflow (BitVec.ofNat 16 l.val) ((dtmfChar p n).setWidth 16)]) ++
      (if (w.blk.line l).status = .ready ∧ w.blk.cfg.notifyEn = true then [.notify l .toneDialing] else []) := by
  have hkept : (keepTone p l n w).out = _ := appendDigit_out p l (dtmfChar p n) w
  rw [appendTone_kept h hs]
  by_cases hready : (w.blk.line l).status = .ready
  · have hcfg : (keepTone p l n w).blk.cfg = w.blk.cfg := (keepTone_onlyLine p l n w).shared.cfg
    simp only [hready, if_true, setStatus_out, hkept, hcfg, true_and]
  · simp only [hready, if_false, hkept, false_and, List.append_nil]

theorem appendTone_onlyLine_kept (h : activeLine w.blk = some l) (hs : TakesTones (w.blk.line l)) :
    OnlyLine
      ((w.blk.setTone { w.blk.tone with line := some l }).setLastReady
        (if (w.blk.line l).status = .ready then withoutReady l w.blk.lastReady else w.blk.lastReady))
      (appendTone p n w).blk l
      (if (w.blk.line l).status = .ready then movedTo .toneDialing (appended p (dtmfChar p n) (w.blk.line l))
        else appended p (dtmfChar p n) (w.blk.line l)) := by
  rw [appendTone_kept h hs]
  by_cases hready : (w.blk.line l).status = .ready
  · simp only [hready, if_true]
    rw [← applyStatus_eq_movedTo (by decide), ← nextLastReady_of_ne_ready (st := .toneDialing) (by decide)]
    exact (keepTone_onlyLine p l n w).setStatus .toneDialing
  · simp only [hready, if_false]
    exact keepTone_onlyLine p l n w

end AppendTone

/-! A nibble that is read (R229). -/

/-- The nibble becomes the last accepted one (R229). -/
def rememberNibble (now : Word) (n : BitVec 4) (w : Work) : Work :=
  w.onBlk fun b => b.setTone { w.blk.tone with lastNib := some n, lastNibT := now }

/-- The nibble is the last accepted one, accepted less than DTMF_DEBOUNCE_MS ago (R229). -/
abbrev Repeated (now : Word) (n : BitVec 4) (b : Block) : Prop :=
  b.tone.lastNib = some n ∧ (now - b.tone.lastNibT).toNat < b.cfg.dtmfDebounceMs.toNat

theorem rememberNibble_activeLine (now : Word) (n : BitVec 4) (w : Work) :
    activeLine (rememberNibble now n w).blk = activeLine w.blk := rfl

section AcceptNibble

variable {p : Params} {now : Word} {n : BitVec 4} {w : Work}

theorem acceptNibble_zero (h : n = 0) : acceptNibble p now n w = w.emit (.log .dtmfSpurious 0 0) := if_pos h

theorem acceptNibble_repeated (hn : n ≠ 0) (h : Repeated now n w.blk) :
    acceptNibble p now n w = w.emit (.log .dtmfDuplicate (n.setWidth 16) 0) := (if_neg hn).trans (if_pos h)

theorem acceptNibble_new (hn : n ≠ 0) (h : ¬ Repeated now n w.blk) :
    acceptNibble p now n w = appendTone p n (rememberNibble now n w) := (if_neg hn).trans (if_neg h)

end AcceptNibble

/-- Settles O34: a new nibble is remembered and handed to appendTone, which looks for the active line. -/
theorem nibbleIsCheckedMappedAndAppended : Obligations.NibbleIsCheckedMappedAndAppended := by
  refine fun p now n w => ⟨acceptNibble_zero, acceptNibble_repeated, fun hn hnew hnone => ?_, fun hn hnew l hline => ?_⟩
  · rw [acceptNibble_new hn hnew]
    exact appendTone_of_no_line hnone
  · have hline' : activeLine (rememberNibble now n w).blk = some l := (rememberNibble_activeLine now n w).trans hline
    rw [acceptNibble_new hn hnew]
    exact ⟨fun hready hdialing => appendTone_rejected hline' (not_or.mpr ⟨hready, hdialing⟩),
      fun hs => ⟨appendTone_out_kept hline' hs, appendTone_onlyLine_kept hline' hs⟩⟩

/-! The strobe machine (R226 to R228). -/

/-- The strobe machine after a rise (R226). -/
def ToneState.risen (now : Word) (t : ToneState) : ToneState := { t with pending := true, high := true, rise := now }

/-- The strobe machine after a fall (R227). -/
def ToneState.fallen (t : ToneState) : ToneState := { t with pending := false, high := false }

/-- The read is pending, and its rise is DTMF_STABLE_MS or longer ago (R228). -/
abbrev ReadDue (now : Word) (b : Block) : Prop := b.tone.pending = true ∧ Reached now b.tone.rise b.cfg.dtmfStableMs

/-- The read is pending, and the tone that ends now was shorter than DTMF_MIN_TONE_MS (R227). -/
abbrev ToneTooShort (now : Word) (b : Block) : Prop :=
  b.tone.pending = true ∧ (now - b.tone.rise).toNat < b.cfg.dtmfMinToneMs.toNat

section Strobe

variable {p : Params} {now : Word} {q : BitVec 4} {w : Work}

theorem stabilityCheck_of_due (h : ReadDue now w.blk) :
    stabilityCheck p now q w = acceptNibble p now q (w.onTone fun t => { t with pending := false }) := if_pos h

theorem stabilityCheck_of_not_due (h : ¬ ReadDue now w.blk) : stabilityCheck p now q w = w := if_neg h

/-- A read whose rise is now is due exactly when DTMF_STABLE_MS is 0. -/
theorem reached_now_iff (d : Word) : Reached now now d ↔ d = 0 := by
  rw [Reached, BitVec.sub_self]
  exact Nat.le_zero.trans ⟨fun h => BitVec.eq_of_toNat_eq h, fun h => h ▸ rfl⟩

theorem endTone_of_short (h : ToneTooShort now w.blk) :
    endTone now w = w.emit (.log .dtmfAbort (BitVec.ofNat 16 (min (now - w.blk.tone.rise).toNat 0xFFFF)) 0) := by
  rw [← logDuration_eq_ofNat]
  exact if_pos h

theorem endTone_of_no_line (h : ¬ ToneTooShort now w.blk) (hline : activeLine w.blk = none) : endTone now w = w := by
  refine (if_neg h).trans ?_
  rw [hline]

theorem endTone_of_line {l : Line} (h : ¬ ToneTooShort now w.blk) (hline : activeLine w.blk = some l) :
    endTone now w = w.modifyLine l (setLineTimer now w.blk.cfg.dtmfDoneMs) := by
  refine (if_neg h).trans ?_
  rw [hline]

theorem fallingEdge_of_low (h : w.blk.tone.high = false) : fallingEdge now w = w.onTone ToneState.fallen := by
  rw [fallingEdge, h]
  rfl

theorem fallingEdge_of_high (h : w.blk.tone.high = true) : fallingEdge now w = (endTone now w).onTone ToneState.fallen := by
  rw [fallingEdge, h]
  rfl

theorem fallingEdge_of_short (hhigh : w.blk.tone.high = true) (h : ToneTooShort now w.blk) :
    fallingEdge now w = (w.onTone ToneState.fallen).emit
      (.log .dtmfAbort (BitVec.ofNat 16 (min (now - w.blk.tone.rise).toNat 0xFFFF)) 0) := by
  rw [fallingEdge_of_high hhigh, endTone_of_short h]
  rfl

theorem fallingEdge_of_no_line (hhigh : w.blk.tone.high = true) (h : ¬ ToneTooShort now w.blk)
    (hline : activeLine w.blk = none) : fallingEdge now w = w.onTone ToneState.fallen := by
  rw [fallingEdge_of_high hhigh, endTone_of_no_line h hline]

theorem fallingEdge_of_line {l : Line} (hhigh : w.blk.tone.high = true) (h : ¬ ToneTooShort now w.blk)
    (hline : activeLine w.blk = some l) :
    fallingEdge now w = (w.onTone ToneState.fallen).modifyLine l (setLineTimer now w.blk.cfg.dtmfDoneMs) := by
  rw [fallingEdge_of_high hhigh, endTone_of_line h hline]
  rfl

/-! Step 3 (R225). -/

/-- The first strobe event leaves the queue (R225). -/
def takeStrobe (w : Work) : Work := w.onBlk fun b => b.setEvq (b.evq.eraseP (ofStrobe b.cfg))

theorem toneStep_of_inactive (h : w.blk.tone.active = false) : toneStep p now q w = takeStrobe w := by
  simp only [toneStep, removeFirst, isAt_strobe_eq_ofStrobe, onBlk_blk, setEvq_tone, h]
  rfl

theorem toneStep_of_active (h : w.blk.tone.active = true) :
    toneStep p now q w =
      stabilityCheck p now q (strobeEdge now (w.blk.evq.find? (ofStrobe w.blk.cfg)) (takeStrobe w)) := by
  simp only [toneStep, removeFirst, isAt_strobe_eq_ofStrobe, onBlk_blk, setEvq_tone, h, if_true]
  rfl

theorem toneStep_without_event (h : w.blk.tone.active = true) (hev : w.blk.evq.find? (ofStrobe w.blk.cfg) = none) :
    toneStep p now q w = stabilityCheck p now q (takeStrobe w) := by
  rw [toneStep_of_active h, hev]
  rfl

theorem toneStep_of_rise {e : Event} (h : w.blk.tone.active = true)
    (hev : w.blk.evq.find? (ofStrobe w.blk.cfg) = some e) (hlvl : e.lvl = true) :
    toneStep p now q w = stabilityCheck p now q ((takeStrobe w).onTone (ToneState.risen now)) := by
  rw [toneStep_of_active h, hev, strobeEdge, hlvl]
  rfl

/-- After a fall no read is pending, so the nibble is not read. -/
theorem toneStep_of_fall {e : Event} (h : w.blk.tone.active = true)
    (hev : w.blk.evq.find? (ofStrobe w.blk.cfg) = some e) (hlvl : e.lvl = false) :
    toneStep p now q w = fallingEdge now (takeStrobe w) := by
  rw [toneStep_of_active h, hev, strobeEdge, hlvl]
  exact stabilityCheck_idle _ _ _ _ rfl

end Strobe

/-- Settles O32: no event, a rise, or a fall; the read is due by `ReadDue`, at the rise itself by `reached_now_iff`. -/
theorem toneStepTakesOneStrobeEvent : Obligations.ToneStepTakesOneStrobeEvent := by
  refine fun p now q w => ⟨toneStep_of_inactive, fun hactive hev => ?none, fun hactive e hev hlvl => ?rise,
    fun hactive e hev hlvl => ?fall⟩
  case none =>
    rw [toneStep_without_event hactive hev]
    exact ⟨fun hpending hreached => stabilityCheck_of_due ⟨hpending, hreached⟩, fun hdue => stabilityCheck_of_not_due hdue⟩
  case rise =>
    rw [toneStep_of_rise hactive hev hlvl]
    exact ⟨fun hstable => stabilityCheck_of_not_due fun ⟨_, hreached⟩ => hstable ((reached_now_iff _).mp hreached),
      fun hstable => stabilityCheck_of_due ⟨rfl, (reached_now_iff _).mpr hstable⟩⟩
  case fall =>
    rw [toneStep_of_fall hactive hev hlvl]
    exact ⟨fun hlow => fallingEdge_of_low hlow, fun hhigh hpending hshort => fallingEdge_of_short hhigh ⟨hpending, hshort⟩,
      fun hhigh hlong => ⟨fun hline => fallingEdge_of_no_line hhigh hlong hline,
        fun l hline => fallingEdge_of_line hhigh hlong hline⟩⟩

end Sys2Proof.Machine
end

section
/-! PROOFS. The ring cadence (spec/44_ring_cadence.md R250 to R258): its three commands, step 4 of a CYCLE as a case per phase, and
what the other steps of a CYCLE leave of a cadence. -/

namespace Sys2Proof.Machine

/-! RG_START (R252). -/

theorem ringStartable_iff (c : Cfg) (L : LineRec) :
    ringStartable c L = true ↔ L.status = .idle ∧ L.rPhase = .idle ∧ c.ringIterations ≠ 0 := by
  simp only [ringStartable, Bool.and_eq_true, beq_iff_eq, bne_iff_ne, and_assoc]

section RingStart

variable {s : State} {l : Line}

theorem performs_rgStart (h : ringStartable s.blk.cfg (s.blk.line l) = true) :
    ∃ b, Performs (.rgStart (lineCode l)) s b 0 [] ∧
      OnlyLine s.blk b l (beginToggling s.now { s.blk.line l with rIter := 0 }) :=
  ⟨_, performs_of_operands (w := s.work.modifyLine l fun L => beginToggling s.now { L with rIter := 0 }) rfl
      (lineOperand_lineCode l) (if_pos h),
    onlyLine_modifyLine s.blk l fun L => beginToggling s.now { L with rIter := 0 }⟩

theorem rejects_rgStart (h : ¬ ringStartable s.blk.cfg (s.blk.line l) = true) : Rejects (.rgStart (lineCode l)) s 7 :=
  rejects_of_perform (e := .state) rfl (lineOperand_lineCode l) (if_neg h)

end RingStart

/-- Settles O35: the start condition and the refusal condition are complements, by `ringStartable_iff`. -/
theorem ringStartBeginsToggling : Obligations.RingStartBeginsToggling := by
  refine fun s => ⟨fun l hstatus hphase hiter => ?_, fun l hrefused => ?_, fun la =>
    ⟨encoded_of_mem (r := ⟨0x14, [.LA], 0x50000000, 0xFC3FFFFF⟩) (by decide) rfl,
      fun hla => rejects_of_operands rfl (lineOperand_error.mpr ⟨rfl, hla⟩)⟩⟩
  · exact performs_rgStart ((ringStartable_iff ..).mpr ⟨hstatus, hphase, hiter⟩)
  · refine rejects_rgStart fun hstart => ?_
    obtain ⟨hstatus, hphase, hiter⟩ := (ringStartable_iff ..).mp hstart
    rcases hrefused with h | h | h
    · exact h hstatus
    · exact h hphase
    · exact hiter h

/-! RG_STOP and RG_STOP_ALL (R251, R253, R254). -/

theorem stopRing_eq_ite (L : LineRec) :
    stopRing L = if L.rPhase = .idle then L else { L with rPhase := .idle, fr := false, rm := false } := ite_not ..

/-- The loop that updates every record of the work updates every record of its block and emits nothing. -/
theorem forLines_workModifyLine (f : LineRec → LineRec) (w : Work) :
    forLines (fun l v => v.modifyLine l f) w = w.onBlk (forLines fun l b => b.modifyLine l f) :=
  forLines_induct₂ (fun (v : Work) (b : Block) => v = w.onBlk fun _ => b) _ _ w w.blk rfl fun _ _ _ h => h ▸ rfl

theorem performs_rgStopAll (s : State) :
    Performs .rgStopAll s (forLines (fun l b => b.modifyLine l stopRing) s.blk) 0 [] := by
  have hexec : exec .rgStopAll s = respond s (forLines (fun l v => v.modifyLine l stopRing) s.work) 0 := rfl
  rw [Performs, hexec, forLines_workModifyLine, respond_eq]
  rfl

/-- Settles O36: both commands update records by stopRing, the one of its line and the other of every line. -/
theorem ringStopsZeroThePins : Obligations.RingStopsZeroThePins := by
  refine fun s => ⟨fun l => ?_,
    ⟨_, performs_rgStopAll s, sharedSame_forLines_modifyLine (fun _ => stopRing) s.blk, fun l => ?_⟩,
    encoded_of_mem (r := ⟨0x16, [], 0x58000000, 0xFFFFFFFF⟩) (by decide) rfl, fun la =>
      ⟨encoded_of_mem (r := ⟨0x15, [.LA], 0x54000000, 0xFC3FFFFF⟩) (by decide) rfl,
        fun hla => rejects_of_operands rfl (lineOperand_error.mpr ⟨rfl, hla⟩)⟩⟩
  · dsimp only
    rw [← stopRing_eq_ite]
    exact performs_modifyLine (f := stopRing) rfl
  · exact (forLines_modifyLine_line (fun _ => stopRing) s.blk l).trans (stopRing_eq_ite _)

/-! One update of one cadence (R255 to R257). -/

section RingUpdate

variable {p : Params} {c : Cfg} {now : Word} {L : LineRec}

theorem ringUpdate_of_idle (h : L.rPhase = .idle) : ringUpdate p c now L = L := by
  rw [ringUpdate, h]

/-- A cadence of a line that is not Idle is force-stopped (R255). -/
theorem ringUpdate_of_not_idle (h : L.rPhase ≠ .idle) (hs : L.status ≠ .idle) : ringUpdate p c now L = forceStop L := by
  unfold ringUpdate
  split
  · exact absurd ‹_› h
  · exact if_pos hs
  · exact if_pos hs

theorem ringUpdate_of_toggling (h : L.rPhase = .toggling) (hs : L.status = .idle) :
    ringUpdate p c now L = togglingPhase p c now L := by
  rw [ringUpdate, h]
  exact if_neg (not_not.mpr hs)

theorem ringUpdate_of_pause (h : L.rPhase = .pause) (hs : L.status = .idle) : ringUpdate p c now L = pausePhase c now L := by
  rw [ringUpdate, h]
  exact if_neg (not_not.mpr hs)

/-! The branches of a Toggling phase and of a Pause. -/

theorem togglingPhase_over (h : Reached now L.rT0 c.ringLengthMs) : togglingPhase p c now L = endToggling c now L := if_pos h

theorem togglingPhase_toggle (hover : ¬ Reached now L.rT0 c.ringLengthMs) (h : Reached now L.rTT p.ringHalfMs) :
    togglingPhase p c now L = { L with fr := !L.fr, rTT := now } := (if_neg hover).trans (if_pos h)

theorem togglingPhase_hold (hover : ¬ Reached now L.rT0 c.ringLengthMs) (h : ¬ Reached now L.rTT p.ringHalfMs) :
    togglingPhase p c now L = L := (if_neg hover).trans (if_neg h)

theorem pausePhase_over (h : Reached now L.rT0 c.ringPauseMs) : pausePhase c now L = beginToggling now L := if_pos h

theorem pausePhase_wait (h : ¬ Reached now L.rT0 c.ringPauseMs) : pausePhase c now L = L := if_neg h

/-- The Toggling phase that ends is the last one (R256), with the saturated count as a number. -/
theorem le_satInc_rIter_iff :
    c.ringIterations ≤ satInc 255 L.rIter ↔ c.ringIterations.toNat ≤ min (L.rIter.toNat + 1) 255 := by
  rw [satInc_eq_ofNat, BitVec.le_def, BitVec.toNat_ofNat, Nat.mod_eq_of_lt]
  · rfl
  · exact Nat.lt_of_le_of_lt (Nat.min_le_right ..) (by decide)

theorem endToggling_ring_last (h : c.ringIterations.toNat ≤ min (L.rIter.toNat + 1) 255) :
    (endToggling c now L).ring = (.idle, BitVec.ofNat 8 (min (L.rIter.toNat + 1) 255), L.rT0, L.rTT, false, false) := by
  rw [endToggling, if_pos (le_satInc_rIter_iff.mpr h), satInc_eq_ofNat]
  rfl

theorem endToggling_ring_more (h : ¬ c.ringIterations.toNat ≤ min (L.rIter.toNat + 1) 255) :
    (endToggling c now L).ring = (.pause, BitVec.ofNat 8 (min (L.rIter.toNat + 1) 255), now, L.rTT, false, false) := by
  rw [endToggling, if_neg (mt le_satInc_rIter_iff.mp h), satInc_eq_ofNat]
  rfl

/-- On an Idle line the update of a cadence is the one that R256 and R257 say. -/
theorem ringAdvance_ringUpdate (hs : L.status = .idle) : RingAdvance p c now L (ringUpdate p c now L) where
  last h hover hlast := by
    rw [ringUpdate_of_toggling h hs, togglingPhase_over hover, endToggling_ring_last hlast]
  pause h hover hmore := by
    rw [ringUpdate_of_toggling h hs, togglingPhase_over hover, endToggling_ring_more hmore]
  toggle h hover hhalf := by
    rw [ringUpdate_of_toggling h hs, togglingPhase_toggle hover hhalf, LineRec.ring, h]
  hold h hover hhalf := by
    rw [ringUpdate_of_toggling h hs, togglingPhase_hold hover hhalf]
  resume h hover := by
    rw [ringUpdate_of_pause h hs, pausePhase_over hover]
    rfl
  wait h hover := by
    rw [ringUpdate_of_pause h hs, pausePhase_wait hover]

end RingUpdate

/-- Settles O37: step 4 is ringUpdate on each record. -/
theorem ringStepAdvancesEachLineAlone : Obligations.RingStepAdvancesEachLineAlone := by
  intro p now w
  obtain ⟨line, out, ready, xb, evq, drops, tone, cfg⟩ := ringStep_effect p now w
  refine ⟨out, ⟨ready, xb, evq, drops, tone, cfg⟩, fun l => ?_⟩
  dsimp only
  rw [line l]
  refine ⟨ringUpdate_frame .., ringUpdate_of_idle, fun hring hs => ?_, fun _ hs => ringAdvance_ringUpdate hs⟩
  rw [ringUpdate_of_not_idle hring hs]
  rfl

/-! What steps 2 and 3 leave of a cadence: a decoder moves only a Ready line to its status, and there, by the invariant, the cadence
is idle (R48 item 1, R258). -/

section Cadence

variable {p : Params} {L : LineRec}

theorem applyStatus_ring (h : L.rPhase = .idle) {st : LineStatus} : (applyStatus st L).ring = L.ring := by
  simp [applyStatus_eq, LineRec.ring, h]

theorem LineInv.ring_idle_of_ready (h : LineInv p L) (hs : L.status = .ready) : L.rPhase = .idle := by
  by_contra hring
  have hidle := h.ring_idle hring
  rw [hs] at hidle
  cases hidle

theorem gapRec_ring (h : LineInv p L) (c : Cfg) (now : Word) : (gapRec p c now L).ring = L.ring := by
  unfold gapRec emitRec
  split
  · dsimp only
    split
    · exact applyStatus_ring (L := appended p (pulseDigit L.pCount) (pulseIdle L)) (h.ring_idle_of_ready ‹_›)
    · rfl
  · split <;> rfl

theorem detectorRec_ring (h : LineInv p L) (c : Cfg) (now : Word) (e : Option Edge) :
    (detectorRec p c now e L).ring = L.ring := by
  unfold detectorRec
  split
  · exact (gapRec_ring (h.edgeRec c e) c now).trans (congrArg LineRec.ring (edgeRec_frame c L e) :)
  · rfl

/-- Step 2 leaves the cadence alone (R190). -/
theorem lineRec2_ring (h : LineInv p L) (c : Cfg) (now : Word) (shk : BitVec 8) (l : Line) :
    (lineRec2 p c now shk l L).ring = L.ring := by
  unfold lineRec2 hookPulseRec
  split
  · exact (detectorRec_ring (h.filterLine c now _) c now _).trans (congrArg LineRec.ring (filterLine_frame c now _ L) :)
  · rfl

/-- Step 3 leaves the cadence alone (R225). -/
theorem ToneEffect.ring {now : Word} {w w' : Work} (e : ToneEffect p now w w') {m : Line} (h : LineInv p (w.blk.line m)) :
    (w'.blk.line m).ring = (w.blk.line m).ring := by
  cases e with
  | nothing hl _ => rw [hl m]
  | timer l d _ hl ho _ =>
    by_cases hm : m = l
    · rw [hm, hl]
      rfl
    · rw [ho m hm]
  | digit l ch _ _ hl ho _ =>
    by_cases hm : m = l
    · subst hm
      rw [hl]
      split
      · exact applyStatus_ring (L := appended p ch (w.blk.line m)) (h.ring_idle_of_ready ‹_›)
      · rfl
    · rw [ho m hm]

end Cadence

section InvariantCycle

variable {s : State}

theorem afterPulse_lineInv (h : Inv s) (m : Line) : LineInv s.params ((afterPulse s).blk.line m) := by
  rw [afterPulse_line]
  exact (h.lines m).lineRec2 ..

theorem afterTone_lineInv (h : Inv s) (m : Line) : LineInv s.params ((afterTone s).blk.line m) :=
  (afterTone_effect s).lineInv (afterPulse_lineInv h) m

theorem afterTone_ring (h : Inv s) (m : Line) : ((afterTone s).blk.line m).ring = (s.blk.line m).ring := by
  rw [(afterTone_effect s).ring (afterPulse_lineInv h m), afterPulse_line, lineRec2_ring (h.lines m)]

/-- Step 5 leaves the cadence that step 4 leaves (R166). -/
theorem afterCycle_ring (s : State) (m : Line) :
    ((afterCycle s).blk.line m).ring = (ringUpdate s.params s.blk.cfg s.now ((afterTone s).blk.line m)).ring := by
  rw [afterCycle_line]
  exact (congrArg LineRec.ring (timerExpiry_frame ..) :)

end InvariantCycle

/-- The advance of a cadence is a relation of the ring sub-states. -/
theorem RingAdvance.of_ring {p : Params} {c : Cfg} {now : Word} {L M L' M' : LineRec} (a : RingAdvance p c now M M')
    (h : M.ring = L.ring) (h' : L'.ring = M'.ring) : RingAdvance p c now L L' := by
  have fields := h
  simp only [LineRec.ring, Prod.mk.injEq] at fields
  obtain ⟨phase, iter, t0, tt, fr, rm⟩ := fields
  exact {
    last := by rw [h', ← phase, ← iter, ← t0, ← tt]; exact a.last
    pause := by rw [h', ← phase, ← iter, ← t0, ← tt]; exact a.pause
    toggle := by rw [h', ← phase, ← iter, ← t0, ← tt, ← fr, ← rm]; exact a.toggle
    hold := by rw [h', ← h, ← phase, ← t0, ← tt]; exact a.hold
    resume := by rw [h', ← phase, ← iter, ← t0]; exact a.resume
    wait := by rw [h', ← h, ← phase, ← t0]; exact a.wait }

/-- Settles O38: after step 3 the cadence is as before and, when it is not idle, the line still Idle; so step 4 advances it, and
step 5 leaves it. -/
theorem cycleAdvancesTheCadence : Obligations.CycleAdvancesTheCadence := by
  refine fun s hinv => ⟨_, execCycle_eq s, fun l => ?_⟩
  have kept : ((afterTone s).blk.line l).ring = (s.blk.line l).ring := afterTone_ring hinv l
  have phase : ((afterTone s).blk.line l).rPhase = (s.blk.line l).rPhase := congrArg Prod.fst kept
  have stepped := afterCycle_ring s l
  refine ⟨fun hidle => ?_, fun hring => ?_⟩
  · rw [ringUpdate_of_idle (phase.trans hidle)] at stepped
    exact stepped.trans kept
  · have hs : ((afterTone s).blk.line l).status = .idle := (afterTone_lineInv hinv l).ring_idle (phase ▸ hring)
    exact (ringAdvance_ringUpdate hs).of_ring kept stepped

end Sys2Proof.Machine
end

section
/-! PROOFS. The crossbar (spec/45_crossbar.md R270 to R277): what its six commands write in the matrix, what they answer, and their
rejections in the order of R270 and R271. -/

namespace Sys2Proof.Machine

/-! The operands (R270, R271, R274, R275). -/

theorem pairOperand_line_error {la lb : BitVec 4} (h : 8 ≤ la.toNat ∨ 8 ≤ lb.toNat) : pairOperand la lb = .error .line := by
  by_cases hla : la.toNat < 8
  · obtain ⟨x, rfl⟩ := exists_lineCode hla
    have hlb : 8 ≤ lb.toNat := h.resolve_left hla.not_ge
    simp [pairOperand, lineOperand_error.mpr ⟨rfl, hlb⟩, bind, Except.bind]
  · simp [pairOperand, lineOperand_error.mpr ⟨rfl, Nat.not_lt.mp hla⟩, bind, Except.bind]

theorem pairOperand_same_error {la lb : BitVec 4} (hla : la.toNat < 8) (h : la = lb) : pairOperand la lb = .error .same := by
  subst h
  obtain ⟨x, rfl⟩ := exists_lineCode hla
  simp [pairOperand, bind, Except.bind]

theorem xbSetOperands_codes {x y : Line} (h : x ≠ y) (c : ConnState) :
    xbSetOperands (lineCode x) (lineCode y) (c.code.setWidth 4) = .ok (x, y, c) := by
  simp [xbSetOperands, pairOperand_lineCode h, bind, Except.bind]

theorem xbSetOperands_pair_error {la lb : BitVec 4} {e : Err} (sv : BitVec 4) (h : pairOperand la lb = .error e) :
    xbSetOperands la lb sv = .error e := by
  simp [xbSetOperands, h, bind, Except.bind]

theorem xbSetOperands_value_error {la lb sv : BitVec 4} (hla : la.toNat < 8) (hlb : lb.toNat < 8) (hne : la ≠ lb)
    (hsv : 4 ≤ sv.toNat) : xbSetOperands la lb sv = .error .value := by
  obtain ⟨x, rfl⟩ := exists_lineCode hla
  obtain ⟨y, rfl⟩ := exists_lineCode hlb
  have hxy : x ≠ y := fun h => hne (congrArg lineCode h)
  simp [xbSetOperands, pairOperand_lineCode hxy, connOperand_error.mpr ⟨rfl, hsv⟩, bind, Except.bind]

theorem thresholdOperands_codes (x : Line) (c : ConnState) :
    thresholdOperands (lineCode x) (c.code.setWidth 4) = .ok (x, c) := by
  simp [thresholdOperands, bind, Except.bind]

theorem thresholdOperands_line_error {la : BitVec 4} (sv : BitVec 4) (hla : 8 ≤ la.toNat) :
    thresholdOperands la sv = .error .line := by
  simp [thresholdOperands, lineOperand_error.mpr ⟨rfl, hla⟩, bind, Except.bind]

theorem thresholdOperands_value_error {la sv : BitVec 4} (hla : la.toNat < 8) (hsv : 4 ≤ sv.toNat) :
    thresholdOperands la sv = .error .value := by
  obtain ⟨x, rfl⟩ := exists_lineCode hla
  simp [thresholdOperands, connOperand_error.mpr ⟨rfl, hsv⟩, bind, Except.bind]

/-! XB_SET (R271). -/

/-- Settles O39: the command is setPair, whose matrix `conn_setPair` gives, or the first check that fails rejects. -/
theorem xbSetWritesBothEntries : Obligations.XbSetWritesBothEntries := by
  refine fun s => ⟨fun x y c hxy => ⟨setPair x y c s.blk, ?_, setPair_onlyMatrix x y c s.blk, ?_, ?_, fun u v hne hne' => ?_⟩,
    fun la lb sv => ⟨encoded_of_mem (r := ⟨0x18, [.LA, .LB, .SV], 0x60000000, 0xFC003FFF⟩) (by decide) rfl,
      fun hline => ?_, fun hla hsame => ?_, fun hla hlb hne hsv => ?_⟩⟩
  · exact performs_of_operands (w := s.work.onBlk (setPair x y c)) rfl (xbSetOperands_codes hxy c) rfl
  · exact (conn_setPair ..).trans (if_pos (.inl ⟨rfl, rfl⟩))
  · exact (conn_setPair ..).trans (if_pos (.inr ⟨rfl, rfl⟩))
  · exact (conn_setPair ..).trans (if_neg (not_or.mpr ⟨hne, hne'⟩))
  · exact rejects_of_operands rfl (xbSetOperands_pair_error sv (pairOperand_line_error hline))
  · exact rejects_of_operands rfl (xbSetOperands_pair_error sv (pairOperand_same_error hla hsame))
  · exact rejects_of_operands rfl (xbSetOperands_value_error hla hlb hne hsv)

/-! XB_GET and XB_ARE_CONNECTED (R272, R273). -/

/-- Both queries of a pair are rejected with the error of checkPair (R270). -/
theorem rejects_pairQueries {la lb : BitVec 4} {e : Err} (s : State) (h : pairOperand la lb = .error e) :
    Rejects (.xbGet la lb) s e.code ∧ Rejects (.xbAreConnected la lb) s e.code :=
  ⟨rejects_of_operands rfl h, rejects_of_operands rfl h⟩

/-- Settles O40: both queries check the pair and then answer from its entry of the matrix. -/
theorem xbPairQueries : Obligations.XbPairQueries := by
  refine fun s => ⟨fun x y hxy => ⟨?_, ?_⟩, fun la lb =>
    ⟨encoded_of_mem (r := ⟨0x19, [.LA, .LB], 0x64000000, 0xFC03FFFF⟩) (by decide) rfl,
      encoded_of_mem (r := ⟨0x1A, [.LA, .LB], 0x68000000, 0xFC03FFFF⟩) (by decide) rfl, fun hline => ?_, fun hla hsame => ?_⟩⟩
  · exact performs_of_operands (w := s.work) rfl (pairOperand_lineCode hxy) rfl
  · exact performs_of_operands (w := s.work) rfl (pairOperand_lineCode hxy) rfl
  · exact rejects_pairQueries s (pairOperand_line_error hline)
  · exact rejects_pairQueries s (pairOperand_same_error hla hsame)

/-! XB_GET_CONNECTED and XB_GET_ALL (R274, R275). -/

theorem reaches_iff {b : Block} {x y : Line} {c : ConnState} :
    reaches b x c y = true ↔ y ≠ x ∧ c.code.toNat ≤ (b.conn x y).code.toNat := by
  simp [reaches, ConnState.atLeast]

/-- The search over the lines finds the least line that satisfies the predicate. -/
theorem find?_allLines_of_least {p : Line → Bool} {y : Line} (hy : p y = true) (hleast : ∀ z, z < y → ¬ p z = true) :
    allLines.find? p = some y := by
  cases hfind : allLines.find? p with
  | none => exact absurd hy (List.find?_eq_none.mp hfind y (mem_allLines y))
  | some z =>
    have hyz : ¬ y < z := fun hlt => by simp [not_of_lt_find? allLines_ascending hfind (mem_allLines y) hlt] at hy
    have hzy : ¬ z < y := fun hlt => hleast z hlt (List.find?_some hfind)
    exact congrArg some (le_antisymm (not_lt.mp hyz) (not_lt.mp hzy))

/-- The code of a line in a 32-bit answer is its number (R9). -/
theorem lineCode_setWidth_val (l : Line) : (lineCode l).setWidth 32 = BitVec.ofNat 32 l.val := by
  refine BitVec.eq_of_toNat_eq ?_
  have hl : l.val < 2 ^ 32 := by omega
  rw [BitVec.toNat_setWidth_of_le (by decide), lineCode_toNat, BitVec.toNat_ofNat, Nat.mod_eq_of_lt hl]

theorem performs_xbGetConnected {s : State} {x : Line} {c : ConnState} {o : Option Line}
    (h : allLines.find? (reaches s.blk x c) = o) :
    Performs (.xbGetConnected (lineCode x) (c.code.setWidth 4)) s s.blk ((optLineCode o).setWidth 32) [] :=
  h ▸ performs_of_operands (w := s.work) rfl (thresholdOperands_codes x c) rfl

theorem performs_xbGetAll (s : State) (x : Line) (c : ConnState) :
    Performs (.xbGetAll (lineCode x) (c.code.setWidth 4)) s s.blk ((lineMask (reaches s.blk x c)).setWidth 32) [] :=
  performs_of_operands (w := s.work) rfl (thresholdOperands_codes x c) rfl

/-- Both queries of a threshold are rejected with the error of their operands. -/
theorem rejects_thresholdQueries {la sv : BitVec 4} {e : Err} (s : State) (h : thresholdOperands la sv = .error e) :
    Rejects (.xbGetConnected la sv) s e.code ∧ Rejects (.xbGetAll la sv) s e.code :=
  ⟨rejects_of_operands rfl h, rejects_of_operands rfl h⟩

/-- Settles O41: one query answers the search for a line that `reaches` takes, the other the mask of these lines. -/
theorem xbConnectedQueries : Obligations.XbConnectedQueries := by
  refine fun s => ⟨fun x c => ⟨fun y hy hleast => ?_, fun hnone => ?_, ?_⟩, fun la sv =>
    ⟨encoded_of_mem (r := ⟨0x1B, [.LA, .SV], 0x6C000000, 0xFC3C3FFF⟩) (by decide) rfl,
      encoded_of_mem (r := ⟨0x1C, [.LA, .SV], 0x70000000, 0xFC3C3FFF⟩) (by decide) rfl, fun hla => ?_, fun hla hsv => ?_⟩⟩
  · have hfind := find?_allLines_of_least (reaches_iff.mpr hy) fun z hz h => hleast z hz (reaches_iff.mp h)
    exact lineCode_setWidth_val y ▸ performs_xbGetConnected hfind
  · exact performs_xbGetConnected (List.find?_eq_none.mpr fun y _ h => hnone y (reaches_iff.mp h))
  · obtain ⟨bits, above⟩ := isLineBits_lineMask (f := reaches s.blk x c) fun _ => rfl
    exact ⟨_, performs_xbGetAll s x c, fun y => (bits y).symm ▸ reaches_iff, above⟩
  · exact rejects_thresholdQueries s (thresholdOperands_line_error sv hla)
  · exact rejects_thresholdQueries s (thresholdOperands_value_error hla hsv)

/-! XB_DISCONNECT (R276). -/

/-- Settles O42: the command is disconnectLine, whose matrix `conn_disconnectLine` gives. -/
theorem xbDisconnectClearsRowAndColumn : Obligations.XbDisconnectClearsRowAndColumn := by
  refine fun s => ⟨fun x => ⟨disconnectLine x s.blk, ?_, disconnectLine_onlyMatrix x s.blk, fun y => ⟨?_, ?_⟩,
      fun u v hu hv => ?_⟩, fun la =>
    ⟨encoded_of_mem (r := ⟨0x1D, [.LA], 0x74000000, 0xFC3FFFFF⟩) (by decide) rfl,
      fun hla => rejects_of_operands rfl (lineOperand_error.mpr ⟨rfl, hla⟩)⟩⟩
  · exact performs_of_operands (w := s.work.onBlk (disconnectLine x)) rfl (lineOperand_lineCode x) rfl
  · exact (conn_disconnectLine ..).trans (if_pos (.inl rfl))
  · exact (conn_disconnectLine ..).trans (if_pos (.inr rfl))
  · exact (conn_disconnectLine ..).trans (if_neg (not_or.mpr ⟨hu, hv⟩))

end Sys2Proof.Machine
end

section
/-! PROOFS. The system commands (spec/46_system.md R290, R295, R296): NOP and the commands that only read, and what a CYCLE as a
whole does and leaves alone. -/

namespace Sys2Proof.Machine

/-! The commands that only read (R85, R290). -/

/-- The answer leaves the machine as it is but for the response. -/
def OnlyResponds (s : State) (res : Result) : Prop := ∃ r, res = .next { s with resp := r }

theorem respond_onlyResponds (s : State) (v : Word) : OnlyResponds s (respond s s.work v) := ⟨_, rfl⟩

theorem raiseErr_onlyResponds (e : Err) (i : Instr) (s : State) : OnlyResponds s (raiseErr e i s) := ⟨_, rfl⟩

theorem checked_onlyResponds {α : Type} {i : Instr} {s : State} {ops : Except Err α} {k : α → Result}
    (hk : ∀ a, OnlyResponds s (k a)) : OnlyResponds s (checked i s ops k) := by
  cases ops with
  | error e => exact raiseErr_onlyResponds e i s
  | ok a => exact hk a

/-- Past the end of the digits the read raises, and elsewhere it answers the digit (R171). -/
theorem execLrReadDigit_onlyResponds (la : BitVec 4) (s : State) : OnlyResponds s (execLrReadDigit la s) := by
  refine checked_onlyResponds fun l => ?_
  split
  · exact raiseErr_onlyResponds ..
  · exact respond_onlyResponds ..

/-- A command that has only responded gives the same answer again: no command reads the last response (R12). -/
theorem exec_repeats {i : Instr} {s : State} {r : Response} (h : exec i s = .next { s with resp := r }) :
    exec i { s with resp := r } = .next { s with resp := r } :=
  commandReadsNoResponseAndNoLaterInput i s _ r s.inputs h

/-- Settles O43: each of the eight commands only responds, and a command that only responds repeats its answer. -/
theorem nopAndReadsChangeNothing : Obligations.NopAndReadsChangeNothing := by
  intro s
  refine ⟨encoded_of_mem (r := ⟨0x00, [], 0x00000000, 0xFFFFFFFF⟩) (by decide) rfl, respond_eq s s.work 0, fun i hi => ?_⟩
  have responds : OnlyResponds s (exec i s) := by
    obtain rfl | ⟨n, rfl⟩ | ⟨la, lb, rfl⟩ | ⟨la, lb, rfl⟩ | ⟨la, sv, rfl⟩ | ⟨la, sv, rfl⟩ | ⟨la, rfl⟩ | ⟨la, rfl⟩ := hi
    · exact respond_onlyResponds s 0
    · exact checked_onlyResponds fun _ => respond_onlyResponds ..
    · exact checked_onlyResponds fun _ => respond_onlyResponds ..
    · exact checked_onlyResponds fun _ => respond_onlyResponds ..
    · exact checked_onlyResponds fun _ => respond_onlyResponds ..
    · exact checked_onlyResponds fun _ => respond_onlyResponds ..
    · exact checked_onlyResponds fun _ => respond_onlyResponds ..
    · exact execLrReadDigit_onlyResponds la s
  obtain ⟨r, hnext⟩ := responds
  exact ⟨r, hnext, exec_repeats hnext⟩

/-! CYCLE (R295, R296). -/

/-- Settles O48: a CYCLE responds 0 with the work that the five steps leave (`execCycle_eq`). -/
theorem cyclePerformsTheFiveSteps : Obligations.CyclePerformsTheFiveSteps := fun s =>
  ⟨encoded_of_mem (r := ⟨0x3F, [], 0xFC000000, 0xFFFFFFFF⟩) (by decide) rfl, execCycle_eq s⟩

/-- A CYCLE keeps or clears the last-ready pointer: it names no line that it did not name before (R160, R195, R230). -/
theorem afterCycle_lastReady_kept_or_none (s : State) :
    (afterCycle s).blk.lastReady = s.blk.lastReady ∨ (afterCycle s).blk.lastReady = none := by
  cases hready : (afterCycle s).blk.lastReady with
  | none => exact .inr rfl
  | some m =>
    have named : s.blk.lastReady = some m := not_not.mp fun hne => (afterCycle_marks s).ready m hne hready
    exact .inl named.symm

/-- Settles O49: the shared state by `afterCycle_shared`, the peers by `afterCycle_peers`. -/
theorem cycleLeavesTheRestAlone : Obligations.CycleLeavesTheRestAlone := by
  intro s
  obtain ⟨-, -, hxb, hdrops, hcfg, -, -⟩ := afterCycle_shared s
  exact ⟨_, execCycle_eq s, rfl, rfl, rfl, hcfg, hxb, hdrops, afterCycle_lastReady_kept_or_none s,
    fun l => Prod.mk.inj (afterCycle_peers s l)⟩

end Sys2Proof.Machine
end

section
/-! PROOFS. The command errors (spec/60_exceptions.md R311 to R313): what a rejected transaction leaves, and its CODE as the code of
the first check that fails. -/

namespace Sys2Proof.Machine

/-! What a command error leaves (R311). -/

theorem Answers.responds_or_raises {i : Instr} {s : State} {res : Result} (h : Answers i s res) :
    (∃ w v, res = respond s w v) ∨ ∃ e, res = raiseErr e i s := by
  cases h with
  | performed w v => exact .inl ⟨w, v, rfl⟩
  | rejected e => exact .inr ⟨e, rfl⟩

/-- A word's transaction is performed, or rejected with the word's own OP in the record: a command's opcode is the OP of the word
that decodes to it (R105, R311). -/
theorem perform_responds_or_rejects (cmd : Word) (s : State) :
    (∃ w v, perform cmd s = respond s w v) ∨ ∃ e, perform cmd s = .next (s.rejected e (fieldOP cmd)) := by
  cases hdec : decode cmd with
  | error e => exact .inr ⟨errOfDecode e, by simp only [perform, hdec]⟩
  | ok i =>
    have hop : fieldOP cmd = i.opcode := by rw [← encodeOfDecoded cmd i hdec, fieldOP_encode]
    rw [perform_of_decode hdec, hop]
    exact (exec_answers i s).responds_or_raises

/-- Settles O10: an answer with a CODE other than 0 is a rejection, which writes the response alone. -/
theorem commandErrorHasNoEffect : Obligations.CommandErrorHasNoEffect := by
  intro s s' t rest hin hstep hcode
  rw [step_of_inputs hin] at hstep
  rw [shiftRight_setWidth]
  rcases perform_responds_or_rejects t.cmd (s.take t rest) with ⟨w, v, hperf⟩ | ⟨e, hrej⟩
  · obtain rfl := Host.Outcome.next.inj (hstep.symm.trans hperf)
    exact absurd rfl hcode
  · obtain rfl := Host.Outcome.next.inj (hstep.symm.trans hrej)
    rfl

/-! The code of the first operand check that fails (R313 items 3 to 7). -/

/-- The code of the error that the operand checks raise, 0 when they pass. -/
def operandCode {α : Type} : Except Err α → Nat
  | .error e => e.code.toNat
  | .ok _ => 0

section OperandCode

variable {α β : Type}

/-- A check that computes a value and cannot fail after the checks before it adds no code. -/
theorem operandCode_bind_ok (x : Except Err α) (g : α → β) : operandCode (x >>= fun a => .ok (g a)) = operandCode x := by
  cases x <;> rfl

/-- A line field is checked first, then the rest. -/
theorem operandCode_line_bind {f : BitVec 4} {k : Line → Except Err α} {rest : Nat}
    (hk : ∀ l, f = lineCode l → operandCode (k l) = rest) :
    operandCode (lineOperand f >>= k) = if 8 ≤ f.toNat then 3 else rest := by
  by_cases hf : 8 ≤ f.toNat
  · rw [if_pos hf, lineOperand_error.mpr ⟨rfl, hf⟩]
    rfl
  · obtain ⟨l, rfl⟩ := exists_lineCode (Nat.not_le.mp hf)
    rw [if_neg hf, lineOperand_lineCode]
    exact hk l rfl

/-- The two lines of checkPair are checked, then that they differ, then the rest (R270). -/
theorem operandCode_pair_bind (la lb : BitVec 4) {k : Line × Line → Except Err α} {rest : Nat}
    (hk : ∀ p, operandCode (k p) = rest) :
    operandCode (pairOperand la lb >>= k) =
      if 8 ≤ la.toNat then 3 else if 8 ≤ lb.toNat then 3 else if la = lb then 4 else rest := by
  rw [pairOperand, bind_assoc]
  refine operandCode_line_bind fun x hx => ?_
  rw [bind_assoc]
  refine operandCode_line_bind fun y hy => ?_
  subst hx hy
  by_cases hxy : x = y
  · rw [if_pos hxy, if_pos (congrArg lineCode hxy)]
    rfl
  · rw [if_neg hxy, if_neg (mt lineCode_injective hxy)]
    exact hk (x, y)

/-- A peer field is a line or none (R169). -/
theorem operandCode_peer_bind {f : BitVec 4} {k : Option Line → Except Err α} {rest : Nat}
    (hk : ∀ o, f = optLineCode o → operandCode (k o) = rest) :
    operandCode (peerOperand f >>= k) = if 8 ≤ f.toNat ∧ f.toNat ≤ 14 then 3 else rest := by
  by_cases hf : 8 ≤ f.toNat ∧ f.toNat ≤ 14
  · obtain ⟨hlow, hhigh⟩ := hf
    rw [if_pos ⟨hlow, hhigh⟩, peerOperand_error hlow hhigh]
    rfl
  · have hpeer : f.toNat < 8 ∨ f = 0xF := by bv_omega
    obtain ⟨o, rfl⟩ := exists_optLineCode hpeer
    rw [if_neg hf, peerOperand_code]
    exact hk o rfl

end OperandCode

theorem operandCode_line (f : BitVec 4) : operandCode (lineOperand f) = if 8 ≤ f.toNat then 3 else 0 := by
  rw [← bind_pure (lineOperand f)]
  exact operandCode_line_bind fun _ _ => rfl

theorem operandCode_pair (la lb : BitVec 4) :
    operandCode (pairOperand la lb) =
      if 8 ≤ la.toNat then 3 else if 8 ≤ lb.toNat then 3 else if la = lb then 4 else 0 := by
  rw [← bind_pure (pairOperand la lb)]
  exact operandCode_pair_bind la lb fun _ => rfl

theorem operandCode_status : ∀ f : BitVec 4, operandCode (statusOperand f) = if 14 ≤ f.toNat then 5 else 0 := by decide

theorem operandCode_conn : ∀ f : BitVec 4, operandCode (connOperand f) = if 4 ≤ f.toNat then 5 else 0 := by decide

theorem operandCode_side : ∀ f : BitVec 4, operandCode (sideOperand f) = if 2 ≤ f.toNat then 5 else 0 := by decide

theorem operandCode_setStatus (la sv : BitVec 4) :
    operandCode (setStatusOperands la sv) = if 8 ≤ la.toNat then 3 else if 14 ≤ sv.toNat then 5 else 0 :=
  operandCode_line_bind fun l _ => (operandCode_bind_ok _ (Prod.mk l)).trans (operandCode_status sv)

theorem operandCode_setPeer (la lb sv : BitVec 4) :
    operandCode (setPeerOperands la lb sv) =
      if 8 ≤ la.toNat then 3 else if 8 ≤ lb.toNat ∧ lb.toNat ≤ 14 then 3 else if la = lb then 4
      else if 2 ≤ sv.toNat then 5 else 0 := by
  refine operandCode_line_bind fun l hl => operandCode_peer_bind fun o ho => ?_
  subst hl ho
  by_cases hsame : o = some l
  · subst hsame
    simp [operandCode, bind, Except.bind, optLineCode, Err.code]
  · have hne : lineCode l ≠ optLineCode o := by revert l o; decide
    rw [if_neg hne, if_neg hsame]
    exact (operandCode_bind_ok _ fun side => (l, o, side)).trans (operandCode_side sv)

theorem operandCode_xbSet (la lb sv : BitVec 4) :
    operandCode (xbSetOperands la lb sv) =
      if 8 ≤ la.toNat then 3 else if 8 ≤ lb.toNat then 3 else if la = lb then 4 else if 4 ≤ sv.toNat then 5 else 0 :=
  operandCode_pair_bind la lb fun (x, y) => (operandCode_bind_ok _ fun c => (x, y, c)).trans (operandCode_conn sv)

theorem operandCode_threshold (la sv : BitVec 4) :
    operandCode (thresholdOperands la sv) = if 8 ≤ la.toNat then 3 else if 4 ≤ sv.toNat then 5 else 0 :=
  operandCode_line_bind fun l _ => (operandCode_bind_ok _ (Prod.mk l)).trans (operandCode_conn sv)

theorem operandCode_readable (n : BitVec 8) : operandCode (readableOperand n) = if isUnassigned n then 6 else 0 := by
  unfold readableOperand
  cases hreg : regOfNumber n with
  | none => exact (if_pos (regOfNumber_eq_none.mp hreg)).symm
  | some r =>
    have hassigned : ¬ isUnassigned n := fun h => by simp [regOfNumber_eq_none.mpr h] at hreg
    exact (if_neg hassigned).symm

/-- The numbers that are not RW are the gap above 0x10 and all from 0x20 (R58). -/
theorem operandCode_writable (n : BitVec 8) :
    operandCode (writableOperand n) = if (0x11 ≤ n.toNat ∧ n.toNat ≤ 0x17) ∨ 0x20 ≤ n.toNat then 6 else 0 := by
  unfold writableOperand
  rcases regOfNumber_cases n with ⟨r, hreg, hrw, -⟩ | ⟨r, hreg, hro, -⟩ | ⟨hreg, hun⟩
  · rw [hreg, if_neg (by omega)]
    rfl
  · rw [hreg, if_pos (by omega)]
    rfl
  · rw [hreg, if_pos (by omega)]
    rfl

/-! The CODE of a command (R313). -/

/-- The answer is a next state with this CODE. -/
def AnswersCode (res : Result) (n : Nat) : Prop := ∃ t, res = .next t ∧ t.resp.code.toNat = n

theorem respond_answersCode (s : State) (w : Work) (v : Word) : AnswersCode (respond s w v) 0 := ⟨_, rfl, rfl⟩

theorem raiseErr_answersCode (e : Err) (i : Instr) (s : State) : AnswersCode (raiseErr e i s) e.code.toNat := ⟨_, rfl, rfl⟩

/-- A command whose one source of errors is its operands. -/
theorem checked_answersCode {α : Type} {i : Instr} {s : State} {ops : Except Err α} {k : α → Result} {n : Nat}
    (hops : operandCode ops = n) (hk : ∀ a, AnswersCode (k a) 0) : AnswersCode (checked i s ops k) n := by
  subst hops
  cases ops with
  | error e => exact raiseErr_answersCode e i s
  | ok a => exact hk a

/-- A command that checks its line and then more, which the line's number decides. -/
theorem checked_line_answersCode {i : Instr} {s : State} {la : BitVec 4} {k : Line → Result} {rest : Line → Nat}
    (hk : ∀ l, AnswersCode (k l) (rest l)) :
    AnswersCode (checked i s (lineOperand la) k) (if h : la.toNat < 8 then rest ⟨la.toNat, h⟩ else 3) := by
  by_cases hla : la.toNat < 8
  · have hline : lineOperand la = .ok ⟨la.toNat, hla⟩ := dif_pos hla
    rw [hline, checked_ok, dif_pos hla]
    exact hk _
  · rw [lineOperand_error.mpr ⟨rfl, Nat.not_lt.mp hla⟩, dif_neg hla]
    exact raiseErr_answersCode .line i s

theorem execEqPush_answersCode (addr : BitVec 7) (pin : BitVec 4) (lvl : Bool) (s : State) :
    AnswersCode (execEqPush addr pin lvl s) 0 := by
  by_cases hroom : s.blk.evq.length < s.params.evqCap
  · rw [execEqPush_of_room hroom]
    exact respond_answersCode ..
  · rw [execEqPush_of_full hroom]
    exact respond_answersCode ..

/-- The index is checked behind the line (R171, R313 item 9). -/
theorem execLrReadDigit_answersCode (la : BitVec 4) (s : State) :
    AnswersCode (execLrReadDigit la s) (expectedCode (.lrReadDigit la) s) := by
  refine checked_line_answersCode (rest := fun l => if (s.blk.line l).digits.length ≤ s.data.toNat then 8 else 0) fun l => ?_
  by_cases hpast : (s.blk.line l).digits.length ≤ s.data.toNat
  · rw [if_pos hpast, List.getElem?_eq_none hpast]
    exact raiseErr_answersCode ..
  · rw [if_neg hpast, List.getElem?_eq_getElem (Nat.not_le.mp hpast)]
    exact respond_answersCode ..

/-- The state is checked behind the line (R252, R313 item 8). -/
theorem execRgStart_answersCode (la : BitVec 4) (s : State) :
    AnswersCode (execRgStart la s) (expectedCode (.rgStart la) s) := by
  refine checked_line_answersCode (rest := fun l => if (s.blk.line l).status ≠ .idle ∨ (s.blk.line l).rPhase ≠ .idle ∨
    s.blk.cfg.ringIterations = 0 then 7 else 0) fun l => ?_
  have hstart := ringStartable_iff s.blk.cfg (s.blk.line l)
  by_cases hrefused : (s.blk.line l).status ≠ .idle ∨ (s.blk.line l).rPhase ≠ .idle ∨ s.blk.cfg.ringIterations = 0
  · have hnot : ¬ ringStartable s.blk.cfg (s.blk.line l) = true := by rw [hstart]; tauto
    rw [if_pos hrefused, if_neg hnot]
    exact raiseErr_answersCode ..
  · have hyes : ringStartable s.blk.cfg (s.blk.line l) = true := by rw [hstart]; tauto
    rw [if_neg hrefused, if_pos hyes]
    exact respond_answersCode ..

/-- The CODE of a command is that of its first failing check. -/
theorem exec_answersCode (i : Instr) (s : State) : AnswersCode (exec i s) (expectedCode i s) := by
  have responds : ∀ {w v}, AnswersCode (respond s w v) 0 := respond_answersCode ..
  cases i with
  | nop => exact responds
  | eqPush addr pin lvl => exact execEqPush_answersCode addr pin lvl s
  | eqPollMatch => exact responds
  | eqPollAddr => exact responds
  | eqPollAny => exact responds
  | eqClear => exact responds
  | lrSetStatus la sv => exact checked_answersCode (operandCode_setStatus la sv) fun _ => responds
  | lrSetTimer la => exact checked_answersCode (operandCode_line la) fun _ => responds
  | lrResetTimer la => exact checked_answersCode (operandCode_line la) fun _ => responds
  | lrTakeChanges => exact responds
  | lrTakeExpired => exact responds
  | lrSetPeer la lb sv => exact checked_answersCode (operandCode_setPeer la lb sv) fun _ => responds
  | lrReadDigit la => exact execLrReadDigit_answersCode la s
  | lrReadLine la => exact checked_answersCode (operandCode_line la) fun _ => responds
  | tdActivate => exact responds
  | tdDeactivate => exact responds
  | rgStart la => exact execRgStart_answersCode la s
  | rgStop la => exact checked_answersCode (operandCode_line la) fun _ => responds
  | rgStopAll => exact responds
  | xbSet la lb sv => exact checked_answersCode (operandCode_xbSet la lb sv) fun _ => responds
  | xbGet la lb => exact checked_answersCode (operandCode_pair la lb) fun _ => responds
  | xbAreConnected la lb => exact checked_answersCode (operandCode_pair la lb) fun _ => responds
  | xbGetConnected la sv => exact checked_answersCode (operandCode_threshold la sv) fun _ => responds
  | xbGetAll la sv => exact checked_answersCode (operandCode_threshold la sv) fun _ => responds
  | xbDisconnect la => exact checked_answersCode (operandCode_line la) fun _ => responds
  | regRead reg => exact checked_answersCode (operandCode_readable reg) fun _ => responds
  | regWrite reg => exact checked_answersCode (operandCode_writable reg) fun _ => responds
  | cycle => exact responds

/-! Words that are no command (R313 items 1 and 2). -/

theorem opcodeRow_isNone_iff : ∀ op : BitVec 6, (opcodeRow op.toNat).isNone ↔ unassignedOpcode op.toNat := by decide

/-- The decoder answers illegal exactly for the unassigned opcodes (R105, R107). -/
theorem decode_illegal_iff {w : Word} : decode w = .error .illegal ↔ unassignedOpcode (w.toNat / 2 ^ 26) := by
  rw [← fieldOP_toNat, ← opcodeRow_isNone_iff]
  cases hrow : opcodeRow (fieldOP w).toNat with
  | none => exact iff_of_true (decode_illegal hrow) rfl
  | some row =>
    refine iff_of_false (fun hdec => ?_) (by simp)
    by_cases hmask : w &&& row.mask = place 26 (fieldOP w)
    · simp [decode_of_row hrow hmask] at hdec
    · simp [decode_reserved hrow hmask] at hdec

/-- A command's word decodes to that command and no other. -/
theorem eq_of_encode_eq {i j : Instr} {w : Word} (hdec : decode w = .ok i) (henc : encode j = w) : j = i :=
  Except.ok.inj ((decodeOfEncode j).symm.trans (henc ▸ hdec))

/-- Settles O11: the decoder's answer says which of the three clauses speaks of the word; a command's CODE is `exec_answersCode`. -/
theorem codeIsFirstFailingCheck : Obligations.CodeIsFirstFailingCheck := by
  intro s t rest hin
  rw [← decode_illegal_iff]
  cases hdec : decode t.cmd with
  | error e =>
    have nocommand : ∀ j, encode j ≠ t.cmd := fun j henc => by
      cases hdec.symm.trans (henc ▸ decodeOfEncode j)
    refine ⟨_, step_of_not_command hin hdec, ?_, ?_, fun j henc => absurd henc (nocommand j)⟩
    · rintro ⟨⟩
      rfl
    · intro hlegal _
      cases e with
      | illegal => exact absurd rfl hlegal
      | reserved => rfl
  | ok i =>
    obtain ⟨s', hexec, hcode⟩ := exec_answersCode i (s.take t rest)
    refine ⟨s', (stepRunsDecodedCommand s t rest i hin hdec).trans hexec, nofun, ?_, ?_⟩
    · exact fun _ hno => absurd (encodeOfDecoded t.cmd i hdec) (hno i)
    · intro j henc
      rw [eq_of_encode_eq hdec henc]
      exact hcode

end Sys2Proof.Machine
end

section
/-! PROOFS. The records that a transaction may emit (spec/60_exceptions.md R311, R314 to R316). -/

namespace Sys2Proof.Machine

/-! The records of a CYCLE. -/

theorem mayEmit_cycle_notify (l : Line) (st : LineStatus) : mayEmit .cycle (.notify l st) :=
  .inr (.inr ⟨rfl, .inl ⟨l, st, rfl⟩⟩)

theorem mayEmit_cycle_log {k : LogKind} (x y : BitVec 16) (herr : k ≠ .cmdError) (hovf : k ≠ .evqOverflow) :
    mayEmit .cycle (.log k x y) := .inr (.inr ⟨rfl, .inr ⟨k, x, y, rfl, herr, hovf⟩⟩)

/-- Every record of the trace is one that R316 allows the command. -/
def AllowedTrace (i : Instr) (tr : List Out) : Prop := ∀ r ∈ tr, mayEmit i r

section AllowedTrace

variable {i : Instr} {tr tr' : List Out} {r : Out}

theorem AllowedTrace.nil : AllowedTrace i [] := nofun

theorem AllowedTrace.singleton (h : mayEmit i r) : AllowedTrace i [r] := List.forall_mem_singleton.mpr h

theorem AllowedTrace.append (h : AllowedTrace i tr) (h' : AllowedTrace i tr') : AllowedTrace i (tr ++ tr') :=
  List.forall_mem_append.mpr ⟨h, h'⟩

/-- A record that is emitted under a condition. -/
theorem AllowedTrace.ite {c : Prop} [Decidable c] (h : AllowedTrace i tr) (h' : AllowedTrace i tr') :
    AllowedTrace i (if c then tr else tr') := by
  split
  · exact h
  · exact h'

theorem allowedTrace_log {k : LogKind} (x y : BitVec 16) (herr : k ≠ .cmdError) (hovf : k ≠ .evqOverflow) :
    AllowedTrace .cycle [.log k x y] := .singleton (mayEmit_cycle_log x y herr hovf)

theorem allowedTrace_notify (l : Line) (st : LineStatus) : AllowedTrace .cycle [.notify l st] :=
  .singleton (mayEmit_cycle_notify l st)

end AllowedTrace

/-! Step 2 (R190). -/

theorem edgeOut_allowed (l : Line) (c : Cfg) (e : Option Edge) (L : LineRec) : AllowedTrace .cycle (edgeOut l c e L) := by
  unfold edgeOut
  split
  · exact .ite .nil (allowedTrace_log _ _ (by decide) (by decide))
  · exact .nil

theorem gapOut_allowed (p : Params) (l : Line) (c : Cfg) (now : Word) (L : LineRec) :
    AllowedTrace .cycle (gapOut p l c now L) := by
  have digit : AllowedTrace .cycle _ := allowedTrace_log (k := .digitOverflow) (BitVec.ofNat 16 l.val)
    ((pulseDigit L.pCount).setWidth 16) (by decide) (by decide)
  exact .ite (.append (.ite .nil digit) (.ite (allowedTrace_notify l .pulseDialing) .nil))
    (.ite (allowedTrace_log _ _ (by decide) (by decide)) .nil)

theorem hookPulseStep_allowed (p : Params) (now : Word) (shk : BitVec 8) {w : Work} (h : AllowedTrace .cycle w.out) :
    AllowedTrace .cycle (hookPulseStep p now shk w).out := by
  rw [hookPulseStep_out]
  refine h.append fun r hr => ?_
  obtain ⟨out, hout, hr⟩ := List.mem_flatten.mp hr
  obtain ⟨l, -, rfl⟩ := List.mem_map.mp hout
  have lineOut : AllowedTrace .cycle (lineOut2 p w.blk.cfg now shk l (w.blk.line l)) :=
    .ite (.append (edgeOut_allowed _ _ _ _) (gapOut_allowed _ _ _ _ _)) .nil
  exact lineOut r hr

/-! Step 3 (R225 to R230). -/

section ToneStep

variable (p : Params) (now : Word) {w : Work} (h : AllowedTrace .cycle w.out)
include h

theorem appendTone_allowed (n : BitVec 4) : AllowedTrace .cycle (appendTone p n w).out := by
  have reject : ∀ x y, AllowedTrace .cycle (w.emit (.log .dtmfReject x y)).out := fun x y =>
    h.append (allowedTrace_log x y (by decide) (by decide))
  cases hline : activeLine w.blk with
  | none => exact appendTone_of_no_line hline ▸ reject _ _
  | some l =>
    by_cases hs : TakesTones (w.blk.line l)
    · rw [appendTone_out_kept hline hs]
      exact (h.append (.ite .nil (allowedTrace_log _ _ (by decide) (by decide)))).append (.ite (allowedTrace_notify _ _) .nil)
    · exact appendTone_rejected hline hs ▸ reject _ _

theorem acceptNibble_allowed (n : BitVec 4) : AllowedTrace .cycle (acceptNibble p now n w).out := by
  by_cases hn : n = 0
  · rw [acceptNibble_zero hn]
    exact h.append (allowedTrace_log _ _ (by decide) (by decide))
  · by_cases hrep : Repeated now n w.blk
    · rw [acceptNibble_repeated hn hrep]
      exact h.append (allowedTrace_log _ _ (by decide) (by decide))
    · rw [acceptNibble_new hn hrep]
      exact appendTone_allowed p (w := rememberNibble now n w) h n

theorem stabilityCheck_allowed (q : BitVec 4) : AllowedTrace .cycle (stabilityCheck p now q w).out := by
  by_cases hdue : ReadDue now w.blk
  · rw [stabilityCheck_of_due hdue]
    exact acceptNibble_allowed p now (w := w.onTone _) h q
  · rw [stabilityCheck_of_not_due hdue]
    exact h

theorem endTone_allowed : AllowedTrace .cycle (endTone now w).out := by
  by_cases hshort : ToneTooShort now w.blk
  · rw [endTone_of_short hshort]
    exact h.append (allowedTrace_log _ _ (by decide) (by decide))
  · cases hline : activeLine w.blk with
    | none => rwa [endTone_of_no_line hshort hline]
    | some l => rwa [endTone_of_line hshort hline]

theorem strobeEdge_allowed (ev : Option Event) : AllowedTrace .cycle (strobeEdge now ev w).out := by
  unfold strobeEdge
  split
  · exact h
  · split
    · exact h
    · cases hhigh : w.blk.tone.high with
      | false => rwa [fallingEdge_of_low hhigh]
      | true =>
        rw [fallingEdge_of_high hhigh]
        exact endTone_allowed now h

theorem toneStep_allowed (q : BitVec 4) : AllowedTrace .cycle (toneStep p now q w).out := by
  cases hactive : w.blk.tone.active with
  | false => rwa [toneStep_of_inactive hactive]
  | true =>
    rw [toneStep_of_active hactive]
    exact stabilityCheck_allowed p now (strobeEdge_allowed now (w := takeStrobe w) h _) q

end ToneStep

/-- Steps 1, 4 and 5 emit nothing. -/
theorem afterCycle_allowed (s : State) : AllowedTrace .cycle (afterCycle s).out := by
  obtain ⟨hout, -⟩ := afterCycle_shared s
  rw [hout]
  exact toneStep_allowed s.params s.now (hookPulseStep_allowed s.params s.now (shkOf s.data) .nil) (qOf s.data)

/-! The records of a command. -/

/-- The answer's trace is as R316 has it: one CMD_ERROR record of a rejection, or records that the command may emit. -/
def EmitsAllowed (i : Instr) (res : Result) : Prop :=
  ∀ t, res = .next t → (t.resp.code ≠ 0 → ∃ x y, t.resp.trace = [.log .cmdError x y]) ∧
    (t.resp.code = 0 → AllowedTrace i t.resp.trace)

theorem respond_emitsAllowed {i : Instr} {s : State} {w : Work} {v : Word} (h : AllowedTrace i w.out) :
    EmitsAllowed i (respond s w v) := by
  rintro t ⟨⟩
  exact ⟨fun hcode => absurd rfl hcode, fun _ => h⟩

theorem Err.code_ne_zero (e : Err) : e.code ≠ 0 := by cases e <;> decide

theorem raiseErr_emitsAllowed (e : Err) (i : Instr) (s : State) : EmitsAllowed i (raiseErr e i s) := by
  rintro t ⟨⟩
  exact ⟨fun _ => ⟨_, _, rfl⟩, fun hcode => absurd hcode e.code_ne_zero⟩

theorem checked_emitsAllowed {α : Type} {i : Instr} {s : State} {ops : Except Err α} {k : α → Result}
    (hk : ∀ a, EmitsAllowed i (k a)) : EmitsAllowed i (checked i s ops k) := by
  cases ops with
  | error e => exact raiseErr_emitsAllowed e i s
  | ok a => exact hk a

/-- EQ_PUSH emits one EVQ_OVERFLOW record when the queue is full (R142). -/
theorem execEqPush_emitsAllowed (addr : BitVec 7) (pin : BitVec 4) (lvl : Bool) (s : State) :
    EmitsAllowed (.eqPush addr pin lvl) (execEqPush addr pin lvl s) := by
  by_cases hroom : s.blk.evq.length < s.params.evqCap
  · rw [execEqPush_of_room hroom]
    exact respond_emitsAllowed .nil
  · rw [execEqPush_of_full hroom]
    exact respond_emitsAllowed (.singleton (.inl ⟨addr, pin, lvl, _, _, rfl, rfl⟩))

/-- LR_SET_STATUS emits a NOTIFY record when notifications are enabled (R161). -/
theorem execLrSetStatus_emitsAllowed (la sv : BitVec 4) (s : State) :
    EmitsAllowed (.lrSetStatus la sv) (execLrSetStatus la sv s) := by
  refine checked_emitsAllowed fun (l, st) => respond_emitsAllowed ?_
  rw [setStatus_out]
  exact .append .nil (.ite (.singleton (.inr (.inl ⟨la, sv, l, st, rfl, rfl⟩))) .nil)

theorem execLrReadDigit_emitsAllowed (la : BitVec 4) (s : State) :
    EmitsAllowed (.lrReadDigit la) (execLrReadDigit la s) := by
  refine checked_emitsAllowed fun l => ?_
  split
  · exact raiseErr_emitsAllowed _ _ s
  · exact respond_emitsAllowed .nil

theorem execRgStart_emitsAllowed (la : BitVec 4) (s : State) : EmitsAllowed (.rgStart la) (execRgStart la s) := by
  refine checked_emitsAllowed fun l => ?_
  split
  · exact respond_emitsAllowed .nil
  · exact raiseErr_emitsAllowed _ _ s

/-- Every command's trace is as R316 has it. -/
theorem exec_emitsAllowed (i : Instr) (s : State) : EmitsAllowed i (exec i s) := by
  cases i with
  | nop => exact respond_emitsAllowed .nil
  | eqPush addr pin lvl => exact execEqPush_emitsAllowed addr pin lvl s
  | eqPollMatch => exact respond_emitsAllowed .nil
  | eqPollAddr => exact respond_emitsAllowed .nil
  | eqPollAny => exact respond_emitsAllowed .nil
  | eqClear => exact respond_emitsAllowed .nil
  | lrSetStatus la sv => exact execLrSetStatus_emitsAllowed la sv s
  | lrSetTimer => exact checked_emitsAllowed fun _ => respond_emitsAllowed .nil
  | lrResetTimer => exact checked_emitsAllowed fun _ => respond_emitsAllowed .nil
  | lrTakeChanges => exact respond_emitsAllowed .nil
  | lrTakeExpired => exact respond_emitsAllowed .nil
  | lrSetPeer => exact checked_emitsAllowed fun _ => respond_emitsAllowed .nil
  | lrReadDigit la => exact execLrReadDigit_emitsAllowed la s
  | lrReadLine => exact checked_emitsAllowed fun _ => respond_emitsAllowed .nil
  | tdActivate => exact respond_emitsAllowed .nil
  | tdDeactivate => exact respond_emitsAllowed .nil
  | rgStart la => exact execRgStart_emitsAllowed la s
  | rgStop => exact checked_emitsAllowed fun _ => respond_emitsAllowed .nil
  | rgStopAll => exact respond_emitsAllowed .nil
  | xbSet => exact checked_emitsAllowed fun _ => respond_emitsAllowed .nil
  | xbGet => exact checked_emitsAllowed fun _ => respond_emitsAllowed .nil
  | xbAreConnected => exact checked_emitsAllowed fun _ => respond_emitsAllowed .nil
  | xbGetConnected => exact checked_emitsAllowed fun _ => respond_emitsAllowed .nil
  | xbGetAll => exact checked_emitsAllowed fun _ => respond_emitsAllowed .nil
  | xbDisconnect => exact checked_emitsAllowed fun _ => respond_emitsAllowed .nil
  | regRead => exact checked_emitsAllowed fun _ => respond_emitsAllowed .nil
  | regWrite => exact checked_emitsAllowed fun _ => respond_emitsAllowed .nil
  | cycle => exact respond_emitsAllowed (afterCycle_allowed s)

/-- Settles O14: `exec_emitsAllowed` at the next state. -/
theorem onlyAllowedRecords : Obligations.OnlyAllowedRecords := exec_emitsAllowed

end Sys2Proof.Machine
end

section
/-! PROOFS. The reset state (spec/70_reset_and_hazards.md R340, R341): the words of its registers and lines, its matrix and its
outputs. -/

namespace Sys2Proof.Machine

/-! The reset block (R340). -/

@[simp] theorem line_reset (l : Line) : Block.reset.line l = LineRec.reset := by simp [Block.line, Block.reset]

@[simp] theorem conn_reset (x y : Line) : Block.reset.conn x y = .none := by simp [Block.conn, Block.reset]

/-- A mask of bits that are all false is 0. -/
theorem lineMask_eq_zero {f : Line → Bool} (h : ∀ l, f l = false) : lineMask f = 0 := by simp [lineMask, h]

theorem lineMask_word_eq_zero {f : Line → Bool} (h : ∀ l, f l = false) : ((lineMask f).setWidth 32 : Word) = 0 := by
  rw [lineMask_eq_zero h]
  rfl

theorem ringFR_reset : ringFR Block.reset = 0 := lineMask_eq_zero fun l => by rw [line_reset]; rfl

theorem ringRM_reset : ringRM Block.reset = 0 := lineMask_eq_zero fun l => by rw [line_reset]; rfl

/-! The registers (R341). -/

theorem readCfg_reset (r : CfgReg) : readCfg Cfg.reset r = 0 := by
  cases r with
  | pinMap l =>
    have hpins : Cfg.reset.pinMap[l] = { addr := 0, hookPin := 0, frPin := 0, rmPin := 0 } := by simp [Cfg.reset]
    rw [readCfg, hpins]
    decide
  | _ => rfl

/-- The word of an RO register in the reset state, as the table of R341 has it. -/
def statAtReset (p : Params) : StatReg → Word
  | .ringHalf => p.ringHalfMs
  | .lastReady => 0xF
  | .hookState => 0xAAAA
  | .tdStatus => 0xF00
  | .params => paramsWord p
  | _ => 0

theorem hookStateWord_reset : hookStateWord Block.reset = 0xAAAA := by
  simp only [hookStateWord, line_reset]
  decide

theorem readStat_reset (p : Params) (r : StatReg) : readStat p Block.reset r = statAtReset p r := by
  cases r with
  | notIdle => exact lineMask_word_eq_zero fun l => by rw [Block.notIdle, line_reset]; rfl
  | change | expired | timerArmed => exact lineMask_word_eq_zero fun l => by rw [line_reset]; rfl
  | hookState => exact hookStateWord_reset
  | ringOut =>
    rw [readStat, ringRM_reset, ringFR_reset]
    rfl
  | timerEnd l | ring l | ringT0 l | ringTT l =>
    rw [readStat, line_reset]
    rfl
  | _ => rfl

/-- The status registers 0x22 to 0x25 and 0x27 to 0x29 and those of the lines are 0. -/
theorem statAtReset_eq_zero (p : Params) {r : StatReg}
    (h : r.number.toNat ∈ [0x22, 0x23, 0x24, 0x25, 0x27, 0x28, 0x29] ∨ 0x30 ≤ r.number.toNat) : statAtReset p r = 0 := by
  cases r with
  | ringHalf | lastReady | hookState | tdStatus | params => exact absurd h (by decide)
  | _ => rfl

/-- In the reset state an RO register reads as its word of R341. -/
theorem reads_stat_init (p : Params) (r : StatReg) : Reads (State.init p) r.number (· = statAtReset p r) :=
  reads_register (.ro r) (readStat_reset p r)

theorem reads_zero_of_isRW (p : Params) {n : BitVec 8} (h : isRW n) : Reads (State.init p) n (· = 0) := by
  obtain ⟨r, hreg⟩ := exists_of_isRW h
  exact reads_iff.mpr ⟨.rw r, hreg, readCfg_reset r⟩

theorem reads_zero_of_status (p : Params) {n : BitVec 8}
    (h : n.toNat ∈ [0x22, 0x23, 0x24, 0x25, 0x27, 0x28, 0x29] ∨ 0x30 ≤ n.toNat) (hro : isRO n) :
    Reads (State.init p) n (· = 0) := by
  obtain ⟨r, hreg⟩ := exists_of_isRO hro
  obtain rfl : r.number = n := number_of_regOfNumber hreg
  exact statAtReset_eq_zero p h ▸ reads_stat_init p r

/-! The lines and the matrix (R341). -/

theorem lineWord_reset (l : Line) : lineWord Block.reset l = 0xFF000A00 := by
  have inactive : Block.reset.active l = false := BitVec.getLsbD_zero
  simp only [lineWord, line_reset, inactive]
  decide

theorem performs_lrReadLine (s : State) (l : Line) :
    Performs (.lrReadLine (lineCode l)) s s.blk (lineWord s.blk l) [] :=
  performs_of_operands (w := s.work) rfl (lineOperand_lineCode l) rfl

/-- With an empty matrix a line reaches another one at the threshold None alone (R275). -/
theorem reaches_reset (x y : Line) (c : ConnState) : reaches Block.reset x c y = decide (y ≠ x ∧ c = .none) := by
  have hcode : c.code.toNat ≤ ConnState.none.code.toNat ↔ c = .none := by cases c <;> decide
  rw [Bool.eq_iff_iff, reaches_iff, conn_reset, hcode, decide_eq_true_iff]

/-- Both queries of a pair answer 0 in the reset state. -/
theorem pairQueries_init (p : Params) {x y : Line} (h : x ≠ y) :
    Performs (.xbGet (lineCode x) (lineCode y)) (State.init p) Block.reset 0 [] ∧
    Performs (.xbAreConnected (lineCode x) (lineCode y)) (State.init p) Block.reset 0 [] := by
  have unconnected : (State.init p).blk.conn x y = .none := conn_reset x y
  obtain ⟨get, connected⟩ := (xbPairQueries (State.init p)).1 x y h
  rw [unconnected] at get connected
  exact ⟨get, connected⟩

theorem xbGetAll_init_zero (p : Params) (x : Line) {c : ConnState} (h : c ≠ .none) :
    Performs (.xbGetAll (lineCode x) (c.code.setWidth 4)) (State.init p) Block.reset 0 [] := by
  have hmask : lineMask (reaches (State.init p).blk x c) = 0 :=
    lineMask_eq_zero fun y => (reaches_reset x y c).trans (decide_eq_false fun ⟨_, hc⟩ => h hc)
  have answered := performs_xbGetAll (State.init p) x c
  rw [hmask] at answered
  exact answered

theorem xbGetAll_init_none (p : Params) (x : Line) :
    ∃ v, IsLineBits v (fun y => decide (y ≠ x)) ∧
      Performs (.xbGetAll (lineCode x) 0) (State.init p) Block.reset v [] :=
  ⟨_, isLineBits_lineMask fun y => (reaches_reset x y .none).trans (by simp), performs_xbGetAll (State.init p) x .none⟩

/-- Settles O18: the registers by `statAtReset` and `readCfg_reset`, the lines and the matrix by the words of the reset block. -/
theorem readsAtReset : Obligations.ReadsAtReset := by
  refine ⟨fun p n => ⟨?_, ?_, fun h => reads_zero_of_status p (.inl h) ?_, ?_, ?_,
      fun hlow hhigh => reads_zero_of_status p (.inr hlow) (.inr ⟨hlow, hhigh⟩), reads_zero_of_isRW p⟩,
    reads_stat_init _ .ringHalf, ?_, fun p l m => ⟨lineWord_reset l ▸ performs_lrReadLine (State.init p) l,
      pairQueries_init p, fun _ => xbGetAll_init_zero p l, xbGetAll_init_none p l⟩, ringFR_reset, ringRM_reset, rfl⟩
  · rintro rfl
    exact reads_stat_init p .ringHalf
  · rintro rfl
    exact reads_stat_init p .lastReady
  · simp only [List.mem_cons, List.not_mem_nil, or_false] at h
    omega
  · rintro rfl
    exact reads_stat_init p .hookState
  · rintro rfl
    exact reads_stat_init p .tdStatus
  · have hparams : paramsWord Params.default = 0x00642008 := by decide
    exact hparams ▸ reads_stat_init Params.default .params

end Sys2Proof.Machine
end
